-- ==== Sys2Proof/Word.lean ====
section
/-! DEFINITION. The word types: what the spec treats as bits, each under one name. -/

namespace Sys2Proof

/-- A data byte `D` of an operation, and a stored byte of the register window (R63: every access is one byte). -/
abbrev Byte := BitVec 8

/-- The 16-bit address `A` of a `read` or `write` (R60, R80). -/
abbrev Addr := BitVec 16

/-- One operation word `op[25:0]` (R80, R81: every operation word is 26 bits). -/
abbrev OpWord := BitVec 26

/-- One output sample slot: a signed `P_SAMPLE_BITS` = 16 bit integer (R5, R237). -/
abbrev Slot := BitVec 16

end Sys2Proof
end

