-- ==== Sys2Proof/Syntax.lean ====
section
/-! DEFINITION. The operations of the block as syntax: one constructor for each row of spec/opcode_table.json (R80, R81). -/

namespace Sys2Proof

/-- The two reasons an operation is refused (R261). -/
inductive RefuseReason where
  /-- `address_out_of_range`: a `read` or `write` with an address outside 0xFF10..0xFF3F (R62). -/
  | addressOutOfRange
  /-- `bad_operation_word`: a word the format of R83 excludes. -/
  | badOperationWord
  deriving DecidableEq, Repr

/-- The operations. A row that covers several addresses carries the whole address `A` of its word (R80); which addresses
belong to the row is `Instr.wf`. -/
inductive Instr where
  /-- `RD_FF1x`: `read(a)`, a in 0xFF10..0xFF1F. -/
  | rdFF1x (a : Addr)
  /-- `RD_FF2x`: `read(a)`, a in 0xFF20..0xFF2F. -/
  | rdFF2x (a : Addr)
  /-- `RD_WAVE`: `read(a)`, a in 0xFF30..0xFF3F. -/
  | rdWave (a : Addr)
  /-- `WR_NR52`: `write(0xFF26, v)`, master power. -/
  | wrNR52 (v : Byte)
  /-- `WR_NR10`: `write(0xFF10, v)`, Square1 sweep. -/
  | wrNR10 (v : Byte)
  /-- `WR_NR11`: `write(0xFF11, v)`, Square1 duty and length load. -/
  | wrNR11 (v : Byte)
  /-- `WR_NR12`: `write(0xFF12, v)`, Square1 volume and envelope. -/
  | wrNR12 (v : Byte)
  /-- `WR_NR13`: `write(0xFF13, v)`, Square1 frequency low. -/
  | wrNR13 (v : Byte)
  /-- `WR_NR14`: `write(0xFF14, v)`, Square1 frequency high, length enable, trigger. -/
  | wrNR14 (v : Byte)
  /-- `WR_FF15`: `write(0xFF15, v)`, unlisted, stored only. -/
  | wrFF15 (v : Byte)
  /-- `WR_NR21`: `write(0xFF16, v)`, Square2 duty and length load. -/
  | wrNR21 (v : Byte)
  /-- `WR_NR22`: `write(0xFF17, v)`, Square2 volume and envelope. -/
  | wrNR22 (v : Byte)
  /-- `WR_NR23`: `write(0xFF18, v)`, Square2 frequency low. -/
  | wrNR23 (v : Byte)
  /-- `WR_NR24`: `write(0xFF19, v)`, Square2 frequency high, length enable, trigger. -/
  | wrNR24 (v : Byte)
  /-- `WR_NR30`: `write(0xFF1A, v)`, Wave DAC. -/
  | wrNR30 (v : Byte)
  /-- `WR_NR31`: `write(0xFF1B, v)`, Wave length load. -/
  | wrNR31 (v : Byte)
  /-- `WR_NR32`: `write(0xFF1C, v)`, Wave volume code. -/
  | wrNR32 (v : Byte)
  /-- `WR_NR33`: `write(0xFF1D, v)`, Wave frequency low. -/
  | wrNR33 (v : Byte)
  /-- `WR_NR34`: `write(0xFF1E, v)`, Wave frequency high, length enable, trigger. -/
  | wrNR34 (v : Byte)
  /-- `WR_FF1F`: `write(0xFF1F, v)`, unlisted, stored only. -/
  | wrFF1F (v : Byte)
  /-- `WR_NR41`: `write(0xFF20, v)`, Noise length load. -/
  | wrNR41 (v : Byte)
  /-- `WR_NR42`: `write(0xFF21, v)`, Noise volume and envelope. -/
  | wrNR42 (v : Byte)
  /-- `WR_NR43`: `write(0xFF22, v)`, Noise shift, width, divisor. -/
  | wrNR43 (v : Byte)
  /-- `WR_NR44`: `write(0xFF23, v)`, Noise length enable, trigger. -/
  | wrNR44 (v : Byte)
  /-- `WR_NR50`: `write(0xFF24, v)`, master volume. -/
  | wrNR50 (v : Byte)
  /-- `WR_NR51`: `write(0xFF25, v)`, panning. -/
  | wrNR51 (v : Byte)
  /-- `WR_FF27`: `write(0xFF27, v)`, unlisted, stored only. -/
  | wrFF27 (v : Byte)
  /-- `WR_FF28_2F`: `write(a, v)`, a in 0xFF28..0xFF2F, unlisted, stored only. -/
  | wrFF28to2F (a : Addr) (v : Byte)
  /-- `WR_WAVE`: `write(a, v)`, a in 0xFF30..0xFF3F, wave RAM. -/
  | wrWave (a : Addr) (v : Byte)
  /-- `GEN`: `generate(L, R, n)`, n an unsigned 24-bit count (R82). -/
  | gen (n : BitVec 24)
  /-- `CTL_INIT`: `init()`. -/
  | ctlInit
  /-- `CTL_ENABLE`: `set_enable(b)`. -/
  | ctlEnable (b : Bool)
  /-- `CTL_LOCK`: `set_locked(b)`. -/
  | ctlLock (b : Bool)
  deriving DecidableEq, Repr

end Sys2Proof
end

