-- ==== Sys2Proof/WellFormed.lean ====
section
/-! DEFINITION. Which operations as syntax are operations of the table: a row that covers several addresses carries one of
its own addresses (spec/opcode_table.json, match and mask). -/

namespace Sys2Proof

/-- `a` lies in `lo..hi`, both ends included. -/
def Addr.within (lo hi : Nat) (a : Addr) : Bool := decide (lo ≤ a.toNat ∧ a.toNat ≤ hi)

/-- An operation's address, where its row leaves one open, belongs to that row. -/
def Instr.wf : Instr → Bool
  | .rdFF1x a => Addr.within 0xFF10 0xFF1F a
  | .rdFF2x a => Addr.within 0xFF20 0xFF2F a
  | .rdWave a => Addr.within 0xFF30 0xFF3F a
  | .wrFF28to2F a _ => Addr.within 0xFF28 0xFF2F a
  | .wrWave a _ => Addr.within 0xFF30 0xFF3F a
  | .wrNR52 _ | .wrNR10 _ | .wrNR11 _ | .wrNR12 _ | .wrNR13 _ | .wrNR14 _ | .wrFF15 _ | .wrNR21 _ | .wrNR22 _
  | .wrNR23 _ | .wrNR24 _ | .wrNR30 _ | .wrNR31 _ | .wrNR32 _ | .wrNR33 _ | .wrNR34 _ | .wrFF1F _ | .wrNR41 _
  | .wrNR42 _ | .wrNR43 _ | .wrNR44 _ | .wrNR50 _ | .wrNR51 _ | .wrFF27 _ | .gen _ | .ctlInit | .ctlEnable _
  | .ctlLock _ => true

end Sys2Proof
end

