-- ==== Sys2Proof/Decode.lean ====
section
/-! DEFINITION. The decoder of operation words (R80 to R83) and, after it, the encoder and the match and mask of every row of
spec/opcode_table.json. -/

namespace Sys2Proof

/-! ### The fields of an operation word (R80) -/

/-- `op[25:24]`, the kind. -/
def opKind (w : OpWord) : BitVec 2 := w.extractLsb' 24 2

/-- `op[23:8]`, the address A, or the sub-operation code S of a control word. -/
def opAddr (w : OpWord) : Addr := w.extractLsb' 8 16

/-- `op[7:0]`, the data byte D. -/
def opData (w : OpWord) : Byte := w.extractLsb' 0 8

/-- `op[23:0]`, the sample count N. -/
def opCount (w : OpWord) : BitVec 24 := w.extractLsb' 0 24

/-! ### The decoder -/

/-- Kind 00, `read(A)`: the word's format first (D must be 0, R83), then the address (R62). -/
def decodeRead (a : Addr) (d : Byte) : Except RefuseReason Instr :=
  if d ≠ 0 then .error .badOperationWord
  else if Addr.within 0xFF10 0xFF1F a then .ok (.rdFF1x a)
  else if Addr.within 0xFF20 0xFF2F a then .ok (.rdFF2x a)
  else if Addr.within 0xFF30 0xFF3F a then .ok (.rdWave a)
  else .error .addressOutOfRange

/-- Kind 01, `write(A, D)`: one row for each address or address range (R81). -/
def decodeWrite (a : Addr) (v : Byte) : Except RefuseReason Instr :=
  if a = 0xFF10 then .ok (.wrNR10 v)
  else if a = 0xFF11 then .ok (.wrNR11 v)
  else if a = 0xFF12 then .ok (.wrNR12 v)
  else if a = 0xFF13 then .ok (.wrNR13 v)
  else if a = 0xFF14 then .ok (.wrNR14 v)
  else if a = 0xFF15 then .ok (.wrFF15 v)
  else if a = 0xFF16 then .ok (.wrNR21 v)
  else if a = 0xFF17 then .ok (.wrNR22 v)
  else if a = 0xFF18 then .ok (.wrNR23 v)
  else if a = 0xFF19 then .ok (.wrNR24 v)
  else if a = 0xFF1A then .ok (.wrNR30 v)
  else if a = 0xFF1B then .ok (.wrNR31 v)
  else if a = 0xFF1C then .ok (.wrNR32 v)
  else if a = 0xFF1D then .ok (.wrNR33 v)
  else if a = 0xFF1E then .ok (.wrNR34 v)
  else if a = 0xFF1F then .ok (.wrFF1F v)
  else if a = 0xFF20 then .ok (.wrNR41 v)
  else if a = 0xFF21 then .ok (.wrNR42 v)
  else if a = 0xFF22 then .ok (.wrNR43 v)
  else if a = 0xFF23 then .ok (.wrNR44 v)
  else if a = 0xFF24 then .ok (.wrNR50 v)
  else if a = 0xFF25 then .ok (.wrNR51 v)
  else if a = 0xFF26 then .ok (.wrNR52 v)
  else if a = 0xFF27 then .ok (.wrFF27 v)
  else if Addr.within 0xFF28 0xFF2F a then .ok (.wrFF28to2F a v)
  else if Addr.within 0xFF30 0xFF3F a then .ok (.wrWave a v)
  else .error .addressOutOfRange

/-- Kind 11, control (R80, R83): `op[7:1]` must be 0 and S in 0..2; `op[0]` is the value B of the two switches. `init` has no
operand (R280), so its word is `init` whatever B is (log 9). -/
def decodeControl (code : Addr) (d : Byte) : Except RefuseReason Instr :=
  if d >>> 1 ≠ 0 then .error .badOperationWord
  else if code = 0 then .ok .ctlInit
  else if code = 1 then .ok (.ctlEnable (d.getLsbD 0))
  else if code = 2 then .ok (.ctlLock (d.getLsbD 0))
  else .error .badOperationWord

/-- The decoder: the operation a word is, or the reason it is refused (R81, R83). -/
def decode (w : OpWord) : Except RefuseReason Instr :=
  if opKind w = 0 then decodeRead (opAddr w) (opData w)
  else if opKind w = 1 then decodeWrite (opAddr w) (opData w)
  else if opKind w = 2 then .ok (.gen (opCount w))
  else decodeControl (opAddr w) (opData w)

/-! ### The encoder -/

/-- A word from its kind, its address (or sub-operation code) and its data byte (R80). -/
def packOp (kind : BitVec 2) (a : Addr) (d : Byte) : OpWord := kind ++ a ++ d

/-- A control word's value bit B as its low byte. -/
def bitByte (b : Bool) : Byte := if b then 1 else 0

/-- The word of an operation (R80 and the word forms of 95_test_vectors.md section 0); for `init` the word with B = 0. -/
def encode : Instr → OpWord
  | .rdFF1x a => packOp 0 a 0
  | .rdFF2x a => packOp 0 a 0
  | .rdWave a => packOp 0 a 0
  | .wrNR52 v => packOp 1 0xFF26 v
  | .wrNR10 v => packOp 1 0xFF10 v
  | .wrNR11 v => packOp 1 0xFF11 v
  | .wrNR12 v => packOp 1 0xFF12 v
  | .wrNR13 v => packOp 1 0xFF13 v
  | .wrNR14 v => packOp 1 0xFF14 v
  | .wrFF15 v => packOp 1 0xFF15 v
  | .wrNR21 v => packOp 1 0xFF16 v
  | .wrNR22 v => packOp 1 0xFF17 v
  | .wrNR23 v => packOp 1 0xFF18 v
  | .wrNR24 v => packOp 1 0xFF19 v
  | .wrNR30 v => packOp 1 0xFF1A v
  | .wrNR31 v => packOp 1 0xFF1B v
  | .wrNR32 v => packOp 1 0xFF1C v
  | .wrNR33 v => packOp 1 0xFF1D v
  | .wrNR34 v => packOp 1 0xFF1E v
  | .wrFF1F v => packOp 1 0xFF1F v
  | .wrNR41 v => packOp 1 0xFF20 v
  | .wrNR42 v => packOp 1 0xFF21 v
  | .wrNR43 v => packOp 1 0xFF22 v
  | .wrNR44 v => packOp 1 0xFF23 v
  | .wrNR50 v => packOp 1 0xFF24 v
  | .wrNR51 v => packOp 1 0xFF25 v
  | .wrFF27 v => packOp 1 0xFF27 v
  | .wrFF28to2F a v => packOp 1 a v
  | .wrWave a v => packOp 1 a v
  | .gen n => (2 : BitVec 2) ++ n
  | .ctlInit => packOp 3 0 0
  | .ctlEnable b => packOp 3 1 (bitByte b)
  | .ctlLock b => packOp 3 2 (bitByte b)

/-- The match and the mask of an operation's row, as spec/opcode_table.json prints them. R80 and R83 accept one word more than
the rows: `init` with B = 1 (log 9). -/
def tableRow : Instr → OpWord × OpWord
  | .rdFF1x _ => (0x0FF1000, 0x3FFF0FF)
  | .rdFF2x _ => (0x0FF2000, 0x3FFF0FF)
  | .rdWave _ => (0x0FF3000, 0x3FFF0FF)
  | .wrNR52 _ => (0x1FF2600, 0x3FFFF00)
  | .wrNR10 _ => (0x1FF1000, 0x3FFFF00)
  | .wrNR11 _ => (0x1FF1100, 0x3FFFF00)
  | .wrNR12 _ => (0x1FF1200, 0x3FFFF00)
  | .wrNR13 _ => (0x1FF1300, 0x3FFFF00)
  | .wrNR14 _ => (0x1FF1400, 0x3FFFF00)
  | .wrFF15 _ => (0x1FF1500, 0x3FFFF00)
  | .wrNR21 _ => (0x1FF1600, 0x3FFFF00)
  | .wrNR22 _ => (0x1FF1700, 0x3FFFF00)
  | .wrNR23 _ => (0x1FF1800, 0x3FFFF00)
  | .wrNR24 _ => (0x1FF1900, 0x3FFFF00)
  | .wrNR30 _ => (0x1FF1A00, 0x3FFFF00)
  | .wrNR31 _ => (0x1FF1B00, 0x3FFFF00)
  | .wrNR32 _ => (0x1FF1C00, 0x3FFFF00)
  | .wrNR33 _ => (0x1FF1D00, 0x3FFFF00)
  | .wrNR34 _ => (0x1FF1E00, 0x3FFFF00)
  | .wrFF1F _ => (0x1FF1F00, 0x3FFFF00)
  | .wrNR41 _ => (0x1FF2000, 0x3FFFF00)
  | .wrNR42 _ => (0x1FF2100, 0x3FFFF00)
  | .wrNR43 _ => (0x1FF2200, 0x3FFFF00)
  | .wrNR44 _ => (0x1FF2300, 0x3FFFF00)
  | .wrNR50 _ => (0x1FF2400, 0x3FFFF00)
  | .wrNR51 _ => (0x1FF2500, 0x3FFFF00)
  | .wrFF27 _ => (0x1FF2700, 0x3FFFF00)
  | .wrFF28to2F _ _ => (0x1FF2800, 0x3FFF800)
  | .wrWave _ _ => (0x1FF3000, 0x3FFF000)
  | .gen _ => (0x2000000, 0x3000000)
  | .ctlInit => (0x3000000, 0x3FFFFFF)
  | .ctlEnable _ => (0x3000100, 0x3FFFFFE)
  | .ctlLock _ => (0x3000200, 0x3FFFFFE)

/-! ### The table's words -/

/-- The operation word that the number `w`, taken to `nbits` bits, is (bits above `nbits` are 0; R81: 26 bits). -/
def tableWord (nbits w : Nat) : OpWord := BitVec.ofNat 26 (w % 2 ^ nbits)

/-- What the decoder reads from the number `w` as spec/opcode_table.json numbers its bits; a number that needs more than 26
bits is no operation word. -/
def decodeTableWord (nbits w : Nat) : Option Instr :=
  if w % 2 ^ nbits < 2 ^ 26 then
    match decode (tableWord nbits w) with
    | .ok i => some i
    | .error _ => none
  else none

end Sys2Proof
end

