-- ==== Sys2Proof/Config.lean ====
section
/-! DEFINITION. What one build of the block fixes: the OPEN parameters of R5 as one record of plain data
(a field of `State`, which no operation writes), the spec's own test configuration of them, and the
one free value the spec leaves to any value (R237). -/

namespace Sys2Proof

/-- The OPEN parameters of the block (R5). `P_CLK`, the base rates, `DIV` and `P_NOISE_SILENT_SHIFT` have fixed
values and stand in `Machine/Tables.lean`; `P_ENABLE0` and `P_LOCKED0` (R34) are the values `State.reset` gives the
two host switches. -/
structure Params where
  /-- `P_FS`, generation steps per second, integer >= 1 (D3). -/
  fs : Nat
  /-- `P_THRESH`, the value every fixed-point counter counts up to, integer >= 1 (D4). -/
  thresh : Nat
  /-- `P_ENV_INC0`, the envelope increment of step 0, integer >= 1 (D6). -/
  envInc0 : Nat
  /-- `P_NOISE_MIN_INC`, the least noise increment that is not skipped, integer >= 0 (D9). -/
  noiseMinInc : Nat
  /-- `P_LVL`, the magnitude of the square and noise level, integer >= 1 (D10). -/
  lvl : Nat
  /-- `P_WAVE_GAIN`, the wave channel's scale, integer >= 1 (D10). -/
  waveGain : Nat
  /-- `P_MIX_DIV`, the mixer's divisor, integer >= 1 (D11). -/
  mixDiv : Nat
  /-- `P_R`, output slots per generation step, integer >= 1 (D12). -/
  r : Nat
  /-- `P_SUB`, generation steps of a full sub-block, integer >= 1 (D12). -/
  sub : Nat
  /-- `P_INIT_REGS[0xFF10..0xFF2F]` and `P_INIT_WAVE[k]` at 0xFF30 + k (D14): the bytes `init` writes, an address
  not listed being the byte 0x00. -/
  initImage : List Host.Cell
  deriving DecidableEq, Repr

/-- The ranges R5 gives the OPEN parameters: integers >= 1, but for `P_NOISE_MIN_INC` (>= 0) and the init bytes. -/
abbrev Params.wf (p : Params) : Prop :=
  1 ≤ p.fs ∧ 1 ≤ p.thresh ∧ 1 ≤ p.envInc0 ∧ 1 ≤ p.lvl ∧ 1 ≤ p.waveGain ∧ 1 ≤ p.mixDiv ∧ 1 ≤ p.r ∧ 1 ≤ p.sub

/-- DESIGN CHOICE (log 2, unsafe where a claim rests on it): the test configuration TC of 95_test_vectors.md with the
clean init bytes S0 of R283, taken as the parameters of `State.reset`. -/
def Params.testConfig : Params where
  fs := 32768
  thresh := 16777216
  envInc0 := 1
  noiseMinInc := 1
  lvl := 32
  waveGain := 16
  mixDiv := 8
  r := 2
  sub := 64
  initImage := [(0xFF26, 0x80)]

/-- The free value (log 5, safe): what an output slot receives when its true sample is outside the 16-bit range
(R237: "any value (a draw)"). No body: nothing can be proved of a draw. `State.draws` numbers the draws. -/
opaque Config.freeSlot : Nat → Slot

end Sys2Proof
end

