-- ==== Sys2Proof/Machine/State.lean ====
section
/-! DEFINITION. The state of the block (10_state.md), as plain data, the reasons a step can stop, and the state after reset. -/

namespace Sys2Proof.Machine

/-- The four channels, numbered 0 to 3 in this order (R1). -/
inductive Ch where
  | square1
  | square2
  | wave
  | noise
  deriving DecidableEq, Repr

/-- The two channels with a duty generator, numbers 0 and 1 (R27). -/
inductive Sq where
  | one
  | two
  deriving DecidableEq, Repr

/-- The envelope's direction (R31). -/
inductive EnvDir where
  | up
  | down
  deriving DecidableEq, Repr

/-- The sweep's direction (R32). -/
inductive SweepDir where
  | increase
  | decrease
  deriving DecidableEq, Repr

/-- The noise sequence: wide has the 15-bit period, narrow the 7-bit period (R29). -/
inductive WidthMode where
  | wide
  | narrow
  deriving DecidableEq, Repr

/-- A length counter (R30). -/
structure Length where
  /-- `load`, 0..63, for the wave channel 0..255. -/
  load : Byte
  enabled : Bool
  counter : Nat
  increment : Nat
  deriving DecidableEq, Repr

/-- A volume envelope (R31). -/
structure Envelope where
  step : BitVec 3
  direction : EnvDir
  counter : Nat
  increment : Nat
  deriving DecidableEq, Repr

/-- The fields every channel has (R26), with its length counter (R30) and its envelope (R31). -/
structure Channel where
  enabled : Bool
  powered : Bool
  onLeft : Bool
  onRight : Bool
  volume : BitVec 4
  volumeInit : BitVec 4
  /-- Square and wave: the 11-bit period code, held in 16 bits (D18); noise: the shift code 0..15. -/
  frequency : BitVec 16
  frequencyCounter : Nat
  frequencyIncrement : Nat
  currentLevel : Int
  len : Length
  env : Envelope
  deriving DecidableEq, Repr

/-- The square channels' own fields (R27). -/
structure SquareVoice where
  dutyPattern : BitVec 8
  dutyStep : BitVec 3
  deriving DecidableEq, Repr

/-- The noise channel's own fields (R29); its shift code stands in the channel's `frequency`. -/
structure NoiseVoice where
  lfsr : BitVec 16
  widthMode : WidthMode
  divisorCode : BitVec 3
  deriving DecidableEq, Repr

/-- Square1's frequency sweep (R32). -/
structure Sweep where
  shadowFrequency : BitVec 16
  period : BitVec 3
  direction : SweepDir
  shift : BitVec 3
  counter : Nat
  increment : Nat
  deriving DecidableEq, Repr

/-- The refusal mark (R261), one flag for each reason; once set it stays set (log 7). -/
structure Marks where
  addressOutOfRange : Bool
  badOperationWord : Bool
  deriving DecidableEq, Repr

/-- What an operation returned to its caller (R10): the model's own output port (log 6). -/
inductive Returned where
  /-- Nothing has been returned yet. -/
  | nothing
  /-- The byte a `read` returned. -/
  | byte (b : Byte)
  /-- What a `generate` returned: whether it produced samples. -/
  | produced (b : Bool)
  deriving DecidableEq, Repr

/-- The block, its two host switches, the host's output buffers and the host's pending operations. -/
structure State where
  /-- The OPEN parameters (R5): configuration, written by no operation. The model's own field (log 1, log 2). -/
  params : Params
  /-- The register window 0xFF10..0xFF3F (R21, R60) in canonical form: addresses strictly rising, no byte 0x00 listed; an
  address not listed holds 0x00. -/
  mem : List Host.Cell
  /-- Channel 0 (R26). -/
  square1 : Channel
  /-- Channel 1 (R26). -/
  square2 : Channel
  /-- Channel 2 (R26). -/
  wave : Channel
  /-- Channel 3 (R26). -/
  noise : Channel
  /-- Channel 0's duty generator (R27). -/
  duty1 : SquareVoice
  /-- Channel 1's duty generator (R27). -/
  duty2 : SquareVoice
  /-- Channel 2's `sample_position`, 0..31 (R28). -/
  samplePosition : BitVec 5
  /-- Channel 3's LFSR (R29). -/
  noiseVoice : NoiseVoice
  /-- Channel 0's sweep (R32). -/
  sweep : Sweep
  /-- `mix.volume_left`, 0..7 (R33). -/
  volumeLeft : BitVec 3
  /-- `mix.volume_right`, 0..7 (R33). -/
  volumeRight : BitVec 3
  /-- `host.enable` (R34). -/
  hostEnable : Bool
  /-- `host.locked` (R34). -/
  hostLocked : Bool
  /-- The refusal mark (R261). -/
  marks : Marks
  /-- The value the last `read` or `generate` returned (R10). The model's own field (log 6). -/
  returned : Returned
  /-- `Out.L` (R9, R230): the host's left buffer, as far as slots of it have been written (log 6). -/
  outL : List Slot
  /-- `Out.R` (R9, R230): the host's right buffer, as far as slots of it have been written (log 6). -/
  outR : List Slot
  /-- How many free values output slots have received (R237). The model's own field (log 5). -/
  draws : Nat
  /-- The operations the host has issued and the block has not run yet, oldest first (R12). The model's own field (log 3). -/
  inbox : List OpWord
  deriving DecidableEq, Repr

/-- What stops the machine. There is no fault: "No behaviour of the block is treated as `fault` or `stuck`" (R260 and
93_implementation_defined.md), so nothing raises one; safe. -/
inductive Fault
  deriving DecidableEq, Repr

/-- Why a step has no meaning. An input outside the documented domain is no such case: it sets the refusal mark of the
state and the machine goes on (R261). -/
inductive Refusal where
  /-- The instruction has no meaning in the model yet. Raised by an arm of `exec` only, and no arm raises it; safe. -/
  | notModelled (mnemonic : String)
  deriving DecidableEq, Repr

/-- A length counter before `init` (R30). -/
def Length.before : Length := { load := 0, enabled := false, counter := 0, increment := 0 }

/-- An envelope before `init` (R31). -/
def Envelope.before : Envelope := { step := 0, direction := .down, counter := 0, increment := 0 }

/-- A channel before `init` (R26). -/
def Channel.before : Channel where
  enabled := false
  powered := false
  onLeft := false
  onRight := false
  volume := 0
  volumeInit := 0
  frequency := 0
  frequencyCounter := 0
  frequencyIncrement := 0
  currentLevel := 0
  len := Length.before
  env := Envelope.before

/-- A duty generator before `init` (R27). -/
def SquareVoice.before : SquareVoice := { dutyPattern := 0, dutyStep := 0 }

/-- The LFSR before `init` (R29). -/
def NoiseVoice.before : NoiseVoice := { lfsr := 0, widthMode := .narrow, divisorCode := 0 }

/-- The sweep before `init` (R32). -/
def Sweep.before : Sweep where
  shadowFrequency := 0
  period := 0
  direction := .increase
  shift := 0
  counter := 0
  increment := 0

/-- The first half of `init` (R280): every field of R26 to R33 at its before-init value and every byte of the window 0x00.
The host switches, the refusal mark, the parameters and the model's own fields stay. -/
def State.cleared (s : State) : State :=
  { s with
    mem := []
    square1 := Channel.before
    square2 := Channel.before
    wave := Channel.before
    noise := Channel.before
    duty1 := SquareVoice.before
    duty2 := SquareVoice.before
    samplePosition := 0
    noiseVoice := NoiseVoice.before
    sweep := Sweep.before
    volumeLeft := 0
    volumeRight := 0 }

/-- The machine right after reset: the state `init` leaves (R280, R281) under the clean configuration S0 of R283: every byte
0x00 but NR52 = 0x80, every channel off, the duty patterns and the noise width as the init writes of 0x00 decode them
(R86: 0x10, R95: wide), the host enabled and not locked, no refusal mark, no operation pending. The parameters, the two
switches and the init bytes are OPEN in the spec: their values here are DESIGN CHOICE (logs 2 and 4), unsafe. -/
def State.reset : State where
  params := Params.testConfig
  mem := [(0xFF26, 0x80)]
  square1 := Channel.before
  square2 := Channel.before
  wave := Channel.before
  noise := Channel.before
  duty1 := { dutyPattern := 0x10, dutyStep := 0 }
  duty2 := { dutyPattern := 0x10, dutyStep := 0 }
  samplePosition := 0
  noiseVoice := { lfsr := 0, widthMode := .wide, divisorCode := 0 }
  sweep := Sweep.before
  volumeLeft := 0
  volumeRight := 0
  hostEnable := true
  hostLocked := false
  marks := { addressOutOfRange := false, badOperationWord := false }
  returned := .nothing
  outL := []
  outR := []
  draws := 0
  inbox := []

end Sys2Proof.Machine
end

