-- ==== Sys2Proof/Machine/Ops.lean ====
section
/-! DEFINITION. The named operations over memory, channels and the host's port. The block has no exceptions (R260), so no
operation takes one; refusing an input outside the documented domain (R261) is the shared operation `refuse`. -/

namespace Sys2Proof.Machine

/-! ### Addresses (R23) -/

abbrev nr10 : Nat := 0xFF10
abbrev nr11 : Nat := 0xFF11
abbrev nr12 : Nat := 0xFF12
abbrev nr13 : Nat := 0xFF13
abbrev nr14 : Nat := 0xFF14
abbrev nr21 : Nat := 0xFF16
abbrev nr22 : Nat := 0xFF17
abbrev nr23 : Nat := 0xFF18
abbrev nr24 : Nat := 0xFF19
abbrev nr30 : Nat := 0xFF1A
abbrev nr31 : Nat := 0xFF1B
abbrev nr32 : Nat := 0xFF1C
abbrev nr33 : Nat := 0xFF1D
abbrev nr34 : Nat := 0xFF1E
abbrev nr41 : Nat := 0xFF20
abbrev nr42 : Nat := 0xFF21
abbrev nr43 : Nat := 0xFF22
abbrev nr44 : Nat := 0xFF23
abbrev nr50 : Nat := 0xFF24
abbrev nr51 : Nat := 0xFF25
abbrev nr52 : Nat := 0xFF26

/-- The address of wave RAM's first byte (R61). -/
abbrev waveBase : Nat := 0xFF30

/-- The register window 0xFF10..0xFF3F (R60). -/
def inWindow (a : Nat) : Bool := decide (0xFF10 ≤ a ∧ a ≤ 0xFF3F)

/-! ### Memory: a sorted list of cells -/

/-- The byte at an address; an address not listed holds 0x00 (R280: `init` clears every byte). -/
def memRead : List Host.Cell → Nat → Byte
  | [], _ => 0
  | (k, b) :: rest, a => if k = a then b else memRead rest a

/-- Put a byte before the first listed address above it; the byte 0x00 is not listed. -/
def memCons (a : Nat) (v : Byte) (rest : List Host.Cell) : List Host.Cell :=
  if v = 0 then rest else (a, v) :: rest

/-- Store a byte, keeping the canonical form. -/
def memWrite : List Host.Cell → Nat → Byte → List Host.Cell
  | [], a, v => memCons a v []
  | (k, b) :: rest, a, v =>
    if a < k then memCons a v ((k, b) :: rest)
    else if k = a then memCons a v rest
    else (k, b) :: memWrite rest a v

/-- Every listed address is above `lo`, addresses rise strictly, and no byte 0x00 is listed. -/
def memSortedAbove : Nat → List Host.Cell → Bool
  | _, [] => true
  | lo, (k, b) :: rest => decide (lo < k) && decide (b ≠ 0) && memSortedAbove k rest

/-- The canonical form of the register window: sorted, no 0x00 listed, every address in the window (R60). -/
def memWf (m : List Host.Cell) : Bool := memSortedAbove 0xFF0F m && m.all (fun c => inWindow c.1)

/-- `Reg[a]` (R9): the stored byte. -/
def State.reg (s : State) (a : Nat) : Byte := memRead s.mem a

/-- `Reg[a] <- v` (R9). -/
def State.setReg (s : State) (a : Nat) (v : Byte) : State := { s with mem := memWrite s.mem a v }

/-- `Reg[a] <- 0x00` for the `n` addresses from `a` on. -/
def State.clearRegs (s : State) (a : Nat) : Nat → State
  | 0 => s
  | n + 1 => (s.setReg a 0).clearRegs (a + 1) n

/-! ### Channels -/

/-- `ch[i]` (R9). -/
def State.ch (s : State) : Ch → Channel
  | .square1 => s.square1
  | .square2 => s.square2
  | .wave => s.wave
  | .noise => s.noise

/-- Replace channel `i`'s record. -/
def State.setCh (s : State) (i : Ch) (c : Channel) : State :=
  match i with
  | .square1 => { s with square1 := c }
  | .square2 => { s with square2 := c }
  | .wave => { s with wave := c }
  | .noise => { s with noise := c }

/-- Change channel `i`'s record by `f`. -/
def State.modCh (s : State) (i : Ch) (f : Channel → Channel) : State := s.setCh i (f (s.ch i))

/-- The channel a duty generator belongs to. -/
def Sq.ch : Sq → Ch
  | .one => .square1
  | .two => .square2

/-- A square channel's own fields (R27). -/
def State.duty (s : State) : Sq → SquareVoice
  | .one => s.duty1
  | .two => s.duty2

/-- Replace a square channel's own fields. -/
def State.setDuty (s : State) (q : Sq) (d : SquareVoice) : State :=
  match q with
  | .one => { s with duty1 := d }
  | .two => { s with duty2 := d }

/-! ### The host's port -/

/-- Set the flag of one reason. -/
def Marks.set (m : Marks) : RefuseReason → Marks
  | .addressOutOfRange => { m with addressOutOfRange := true }
  | .badOperationWord => { m with badOperationWord := true }

/-- `refuse(reason)` (R261): set the refusal mark, change no other state. -/
def refuse (r : RefuseReason) (s : State) : State := { s with marks := s.marks.set r }

/-- The next operation word in the host's order of calls (R12, R22), and the state with that call taken. -/
def fetch (s : State) : Option (OpWord × State) :=
  match s.inbox with
  | [] => none
  | w :: rest => some (w, { s with inbox := rest })

/-- What the block does while the host has issued no operation: nothing ("The block is passive", R12). -/
def idle (s : State) : State := s

/-- The host issues an operation as the next one the block runs. -/
def issue (w : OpWord) (s : State) : State := { s with inbox := w :: s.inbox }

end Sys2Proof.Machine
end

