-- ==== Sys2Proof/Machine/Tables.lean ====
section
/-! DEFINITION. The block's tables and fixed constants (R5, R35): the read mask, the duty patterns, the noise divisors, the clock
and the base rates. -/

namespace Sys2Proof.Machine

/-- `P_CLK` (R5, D2). -/
def pClk : Nat := 4194304

/-- `P_ENV_HZ` (R5, D5). -/
def pEnvHz : Nat := 64

/-- `P_SWEEP_HZ` (R5, D5). -/
def pSweepHz : Nat := 128

/-- `P_LEN_HZ` (R5, D5). -/
def pLenHz : Nat := 256

/-- `P_NOISE_SILENT_SHIFT` (R5, D8). -/
def pNoiseSilentShift : Nat := 14

/-- The least value of a signed `P_SAMPLE_BITS` = 16 bit slot (R237). -/
def sampleMin : Int := -32768

/-- The greatest value of a signed `P_SAMPLE_BITS` = 16 bit slot (R237). -/
def sampleMax : Int := 32767

/-- `MASK[a]` (R84): the bits of a read that are 1 whatever is stored; from 0xFF27 on no mask applies (D29). -/
def readMask (a : Nat) : Byte :=
  if a = 0xFF10 then 0x80
  else if a = 0xFF11 then 0x3F
  else if a = 0xFF12 then 0x00
  else if a = 0xFF13 then 0xFF
  else if a = 0xFF14 then 0xBF
  else if a = 0xFF15 then 0xFF
  else if a = 0xFF16 then 0x3F
  else if a = 0xFF17 then 0x00
  else if a = 0xFF18 then 0xFF
  else if a = 0xFF19 then 0xBF
  else if a = 0xFF1A then 0x7F
  else if a = 0xFF1B then 0xFF
  else if a = 0xFF1C then 0x9F
  else if a = 0xFF1D then 0xFF
  else if a = 0xFF1E then 0xBF
  else if a = 0xFF1F then 0xFF
  else if a = 0xFF20 then 0xFF
  else if a = 0xFF21 then 0x00
  else if a = 0xFF22 then 0x00
  else if a = 0xFF23 then 0xBF
  else if a = 0xFF24 then 0x00
  else if a = 0xFF25 then 0x00
  else if a = 0xFF26 then 0x70
  else 0x00

/-- `DUTY[d]` (R86): 12.5, 25, 50 and 75 % as 8-bit step masks. -/
def dutyTable (d : BitVec 2) : BitVec 8 :=
  if d = 0 then 0x10 else if d = 1 then 0x30 else if d = 2 then 0x3C else 0xCF

/-- `DIV[r]` (R5, D7). -/
def noiseDiv (r : BitVec 3) : Nat := if r = 0 then 8 else 16 * r.toNat

/-- `NOISE_HZ[r][s] = fdiv(P_CLK, DIV[r] << s)` (R192, R35). -/
def noiseHz (r : BitVec 3) (shift : Nat) : Nat := pClk / (noiseDiv r <<< shift)

/-- `max_length` (R30, R155): 256 for the wave channel, 64 for the others. -/
def maxLength : Ch → Nat
  | .wave => 256
  | .square1 | .square2 | .noise => 64

end Sys2Proof.Machine
end

