-- ==== Sys2Proof/Machine/Operands.lean ====
section
/-! DEFINITION. The operand forms: the fields of a register's data byte (R85 to R98), each an unsigned field of the byte (R82),
the two halves of the 11-bit frequency (R64), and the nibbles of wave RAM (R65). -/

namespace Sys2Proof.Machine

/-- `v[i]` as a Boolean. -/
def bit (v : Byte) (i : Nat) : Bool := v.getLsbD i

/-- A Boolean as a byte, 1 or 0. -/
def boolByte (b : Bool) : Byte := if b then 1 else 0

/-- NR10 bits 6..4, the sweep period (R85). -/
def sweepPeriodOf (v : Byte) : BitVec 3 := v.extractLsb' 4 3

/-- NR10 bit 3, the sweep direction (R85). -/
def sweepDirOf (v : Byte) : SweepDir := if bit v 3 then .decrease else .increase

/-- NR10 bits 2..0, the sweep shift (R85). -/
def sweepShiftOf (v : Byte) : BitVec 3 := v.extractLsb' 0 3

/-- NRx1 bits 7..6, the duty code (R86). -/
def dutyCodeOf (v : Byte) : BitVec 2 := v.extractLsb' 6 2

/-- NRx1 bits 5..0, the length load (R86, R87). -/
def lengthLoadOf (v : Byte) : Byte := v &&& 0x3F

/-- NRx2 bits 7..4, the initial volume (R88). -/
def volumeInitOf (v : Byte) : BitVec 4 := v.extractLsb' 4 4

/-- NRx2 DAC power: on unless bits 7..3 are all 0 (R88). -/
def dacOf (v : Byte) : Bool := decide (v >>> 3 ≠ 0)

/-- NRx2 bit 3, the envelope direction (R88). -/
def envDirOf (v : Byte) : EnvDir := if bit v 3 then .up else .down

/-- NRx2 bits 2..0, the envelope step (R88). -/
def envStepOf (v : Byte) : BitVec 3 := v.extractLsb' 0 3

/-- NRx3 merged into the low 8 bits of a frequency; bits above bit 10 are dropped (R106). -/
def mergeFreqLow (f : BitVec 16) (v : Byte) : BitVec 16 := (f &&& 0x0700) ||| v.setWidth 16

/-- NRx4 bits 2..0 merged into bits 10..8 of a frequency (R107). -/
def mergeFreqHigh (f : BitVec 16) (v : Byte) : BitVec 16 :=
  (f &&& 0x00FF) ||| ((v.extractLsb' 0 3).setWidth 16 <<< 8)

/-- NRx4 bit 6, the length enable (R90, R91). -/
def lengthEnableOf (v : Byte) : Bool := bit v 6

/-- NRx4 bit 7, the trigger (R90, R91). -/
def triggerOf (v : Byte) : Bool := bit v 7

/-- NR32 bits 6..5, the wave volume code, held in the 4-bit volume (R94, R28). -/
def waveCodeOf (v : Byte) : BitVec 4 := (v.extractLsb' 5 2).setWidth 4

/-- NR43 bits 7..4, the shift code, held in the 16-bit frequency (R95, R29). -/
def shiftCodeOf (v : Byte) : BitVec 16 := (v.extractLsb' 4 4).setWidth 16

/-- NR43 bit 3, the width (R95). -/
def widthOf (v : Byte) : WidthMode := if bit v 3 then .narrow else .wide

/-- NR43 bits 2..0, the divisor code (R95). -/
def divisorOf (v : Byte) : BitVec 3 := v.extractLsb' 0 3

/-- NR50 bits 6..4, the left master volume (R96). -/
def volumeLeftOf (v : Byte) : BitVec 3 := v.extractLsb' 4 3

/-- NR50 bits 2..0, the right master volume (R96). -/
def volumeRightOf (v : Byte) : BitVec 3 := v.extractLsb' 0 3

/-- A channel's number (R1). -/
def Ch.index : Ch → Nat
  | .square1 => 0
  | .square2 => 1
  | .wave => 2
  | .noise => 3

/-- NR51 bit 4 + i, channel i's left pan (R97). -/
def panLeftOf (v : Byte) (i : Ch) : Bool := bit v (4 + i.index)

/-- NR51 bit i, channel i's right pan (R97). -/
def panRightOf (v : Byte) (i : Ch) : Bool := bit v i.index

/-- NR52 bit 7, master power (R98). -/
def powerOf (v : Byte) : Bool := bit v 7

/-- `WaveNibble(n)` (R65): wave sample n, the high nibble of byte n/2 for an even n and the low nibble for an odd n. -/
def waveNibble (m : List Host.Cell) (n : BitVec 5) : BitVec 4 :=
  let b := memRead m (waveBase + n.toNat / 2)
  if n.toNat % 2 = 0 then b.extractLsb' 4 4 else b.extractLsb' 0 4

end Sys2Proof.Machine
end

