-- ==== Sys2Proof/Machine/Flags.lean ====
section
/-! DEFINITION. The flags (R38): the master power bit and the four status bits of NR52, and the only writers of a channel's
`enabled` (R42). -/

namespace Sys2Proof.Machine

/-- Master power: bit 7 of the stored NR52 byte (R25). -/
def powerOn (s : State) : Bool := powerOf (s.reg nr52)

/-- The four `enabled` bits as bits 3..0 of a byte (R42, R25). -/
def statusBits (s : State) : Byte :=
  (boolByte s.noise.enabled <<< 3) ||| (boolByte s.wave.enabled <<< 2) |||
    (boolByte s.square2.enabled <<< 1) ||| boolByte s.square1.enabled

/-- `UpdateMirror()` (R42). -/
def updateMirror (s : State) : State := s.setReg nr52 ((s.reg nr52 &&& 0x80) ||| statusBits s)

/-- `ChanEnable(i)` (R42). -/
def chanEnable (i : Ch) (s : State) : State :=
  updateMirror (s.modCh i fun c => { c with enabled := true })

/-- `ChanDisable(i)` (R42). -/
def chanDisable (i : Ch) (s : State) : State :=
  updateMirror (s.modCh i fun c => { c with enabled := false })

end Sys2Proof.Machine
end

