-- ==== Sys2Proof/Machine/Timers.lean ====
section
/-! DEFINITION. The three periodic timers (41_trigger_timers.md sections 2 to 4), the increments they and the phase use
(R151, R152, R155, R190 to R192). -/

namespace Sys2Proof.Machine

/-! ### Increments -/

/-- `Conv(x)` (R191): a rate in Hz as phase units per generation step. -/
def conv (p : Params) (x : Nat) : Nat := x * p.thresh / p.fs

/-- `SquareInc(f)` (R191). -/
def squareInc (p : Params) (f : Nat) : Nat := 8 * conv p (pClk / ((2048 - f) <<< 5))

/-- `WaveInc(f)` (R192). -/
def waveInc (p : Params) (f : Nat) : Nat := 32 * conv p (pClk / 64 / (2048 - f))

/-- `NoiseInc(r, s)` (R192). -/
def noiseInc (p : Params) (r : BitVec 3) (shift : Nat) : Nat := conv p (noiseHz r shift)

/-- The envelope increment of a step (R151). -/
def envInc (p : Params) (step : BitVec 3) : Nat :=
  if step = 0 then p.envInc0 else p.thresh * pEnvHz / (step.toNat * p.fs)

/-- The sweep increment of a period (R152). -/
def sweepInc (p : Params) (period : BitVec 3) : Nat :=
  if period = 0 then 0 else p.thresh * pSweepHz / (period.toNat * p.fs)

/-- The length increment of a load (R155). -/
def lengthInc (p : Params) (i : Ch) (load : Byte) : Nat :=
  p.thresh * pLenHz / ((maxLength i - load.toNat) * p.fs)

/-- How often `while counter > P_THRESH: ...; counter <- counter - P_THRESH` runs its body: the bound of the two timer
loops (`Laws/Timers.lean` proves that they end because their condition fails). -/
def firings (thresh counter : Nat) : Nat := (counter - 1) / thresh

/-! ### Envelope -/

/-- `clamp(v, 0, 15)` as a volume (R8, R160). -/
def clampVolume (v : Int) : BitVec 4 := BitVec.ofInt 4 (min 15 (max 0 v))

/-- One firing of the envelope, before the threshold is subtracted (R160). -/
def envFire (c : Channel) : Channel :=
  if c.env.step = 0 then c
  else
    let nv := clampVolume (c.volume.toNat + (if c.env.direction = .up then 1 else -1))
    { c with
      volume := nv
      env := { c.env with increment := if nv = 0 ∨ nv = 15 then 0 else c.env.increment } }

/-- The envelope's `while` loop (R160), at most as often as the first argument says. -/
def envLoop (thresh : Nat) : Nat → Channel → Channel
  | 0, c => c
  | k + 1, c =>
    if c.env.counter > thresh then
      let c := envFire c
      envLoop thresh k { c with env := { c.env with counter := c.env.counter - thresh } }
    else c

/-- `EnvTick` on a channel's record (R160). -/
def envTickChannel (thresh : Nat) (c : Channel) : Channel :=
  let c := { c with env := { c.env with counter := c.env.counter + c.env.increment } }
  envLoop thresh (firings thresh c.env.counter) c

/-- `EnvTick(i)` (R160). -/
def envTick (i : Ch) (s : State) : State := s.modCh i (envTickChannel s.params.thresh)

/-! ### Sweep -/

/-- The new frequency of a sweep tick, modulo 65536 (R161, R162, D47). -/
def sweepTarget (s : State) : BitVec 16 :=
  let delta := s.sweep.shadowFrequency >>> s.sweep.shift.toNat
  match s.sweep.direction with
  | .increase => s.square1.frequency + delta
  | .decrease => s.square1.frequency - delta

/-- One firing of the sweep, before the threshold is subtracted, and whether it disabled Square1 (R161, R163). -/
def sweepFire (s : State) : State × Bool :=
  if s.sweep.shift ≠ 0 then
    let nf := sweepTarget s
    let s := s.modCh .square1 fun c => { c with frequency := nf }
    if nf.toNat > 2047 then (chanDisable .square1 s, true)
    else (s.modCh .square1 fun c => { c with frequencyIncrement := squareInc s.params nf.toNat }, false)
  else if s.sweep.period ≠ 0 then (chanDisable .square1 s, true)
  else (s, false)

/-- The sweep's `while` loop (R161), at most as often as the first argument says; it goes on after a disable (D56). -/
def sweepLoop : Nat → State → Bool → State × Bool
  | 0, s, killed => (s, killed)
  | k + 1, s, killed =>
    if s.sweep.counter > s.params.thresh then
      let r := sweepFire s
      sweepLoop k { r.1 with sweep := { r.1.sweep with counter := r.1.sweep.counter - s.params.thresh } } (killed || r.2)
    else (s, killed)

/-- `SweepTick()` (R161): the state and `killed`. -/
def sweepTick (s : State) : State × Bool :=
  let s := { s with sweep := { s.sweep with counter := s.sweep.counter + s.sweep.increment } }
  sweepLoop (firings s.params.thresh s.sweep.counter) s false

/-! ### Length -/

/-- `LengthSpan(i, n)` (R170): the state and the number of generation steps the channel still plays. -/
def lengthSpan (i : Ch) (n : Nat) (s : State) : State × Nat :=
  let l := (s.ch i).len
  if l.enabled = false ∨ l.increment = 0 then (s, n)
  else
    let k := (s.params.thresh - l.counter) / l.increment
    if k > n then (s.modCh i fun c => { c with len := { l with counter := l.counter + n * l.increment } }, n)
    else (chanDisable i (s.modCh i fun c => { c with len := { l with counter := 0 } }), k)

end Sys2Proof.Machine
end

