-- ==== Sys2Proof/Machine/Trigger.lean ====
section
/-! DEFINITION. The trigger and its six steps (R150 to R155). -/

namespace Sys2Proof.Machine

/-- `EnvReload(i)` (R151). -/
def envReload (i : Ch) (s : State) : State :=
  s.modCh i fun c => { c with env := { c.env with increment := envInc s.params c.env.step, counter := 0 } }

/-- `SweepReload()` (R152): latch the stored NR10 byte. -/
def sweepReload (s : State) : State :=
  let b := s.reg nr10
  { s with
    sweep := {
      shadowFrequency := s.square1.frequency
      period := sweepPeriodOf b
      direction := sweepDirOf b
      shift := sweepShiftOf b
      counter := 0
      increment := sweepInc s.params (sweepPeriodOf b) } }

/-- `ChannelReset(i)` (R153). -/
def channelReset (i : Ch) (s : State) : State :=
  match i with
  | .square1 | .square2 => s
  | .wave => { s with samplePosition := 0 }
  | .noise =>
    { s with
      noise := { s.noise with currentLevel := -(s.params.lvl : Int) }
      noiseVoice := { s.noiseVoice with lfsr := 0xFFFF } }

/-- `LengthReload(i)` (R155). -/
def lengthReload (i : Ch) (s : State) : State :=
  s.modCh i fun c => { c with len := { c.len with increment := lengthInc s.params i c.len.load, counter := 0 } }

/-- `Trigger(i)` (R150). -/
def trigger (i : Ch) (s : State) : State :=
  let s := chanEnable i s
  let s := s.modCh i fun c => { c with volume := c.volumeInit }
  let s := envReload i s
  let s := match i with
    | .square1 => sweepReload s
    | .square2 | .wave | .noise => s
  let s := channelReset i s
  lengthReload i s

end Sys2Proof.Machine
end

