-- ==== Sys2Proof/Machine/Write.lean ====
section
/-! DEFINITION. `write` (R101), the shared write procedures (R102 to R108) and the meaning of every write row
(R102, R103, R110 to R132). -/

namespace Sys2Proof.Machine

/-! ### Shared procedures -/

/-- The part of `write(a, v)` after the address check and the NR52 case (R101): the power gate, the store, then the
address's own procedure. -/
def gatedWrite (a : Nat) (v : Byte) (effect : State → State) (s : State) : State :=
  if powerOn s then effect (s.setReg a v) else s

/-- `NoSideEffect` (R108). -/
def noSideEffect (s : State) : State := s

/-- The zombie-mode volume (R104), from the envelope and the volume before the write. -/
def zombieVolume (c : Channel) (v : Byte) : BitVec 4 :=
  if c.env.step = 0 ∧ c.env.increment ≠ 0 then c.volume + (if bit v 3 then 1 else 2) else -c.volume

/-- `EnvWrite(i, v)` on a channel's record (R104): the zombie test reads the new `powered` and the old `step`. -/
def envWriteChannel (v : Byte) (c : Channel) : Channel :=
  { c with
    volumeInit := volumeInitOf v
    powered := dacOf v
    volume := if dacOf v && c.enabled then zombieVolume c v else c.volume
    env := { c.env with step := envStepOf v, direction := envDirOf v } }

/-- `EnvWrite(i, v)` (R104). -/
def envWrite (i : Ch) (v : Byte) (s : State) : State := s.modCh i (envWriteChannel v)

/-- The length load of `DutyLenWrite(i, v)` (R105). -/
def lengthLoadWrite (i : Ch) (v : Byte) (s : State) : State :=
  s.modCh i fun c => { c with len := { c.len with load := lengthLoadOf v } }

/-- `DutyLenWrite(i, v)` for a square channel (R105): the load and the duty pattern. -/
def dutyLenWrite (q : Sq) (v : Byte) (s : State) : State :=
  let s := lengthLoadWrite q.ch v s
  s.setDuty q { s.duty q with dutyPattern := dutyTable (dutyCodeOf v) }

/-- `FreqLowWrite(i, v)` (R106). -/
def freqLowWrite (i : Ch) (v : Byte) (s : State) : State :=
  s.modCh i fun c => { c with frequency := mergeFreqLow c.frequency v }

/-- The end of `CtrlWrite(i, v)` (R107): length enable, then the trigger. -/
def lengthEnableTrigger (i : Ch) (v : Byte) (s : State) : State :=
  let s := s.modCh i fun c => { c with len := { c.len with enabled := lengthEnableOf v } }
  if triggerOf v then trigger i s else s

/-- `CtrlWrite(i, v)` (R107); the frequency merge is skipped for noise. -/
def ctrlWrite (i : Ch) (v : Byte) (s : State) : State :=
  match i with
  | .noise => lengthEnableTrigger .noise v s
  | .square1 | .square2 | .wave =>
    lengthEnableTrigger i v (s.modCh i fun c => { c with frequency := mergeFreqHigh c.frequency v })

/-- `NR52Write(v)` (R102): runs whatever the power state. -/
def nr52Write (v : Byte) (s : State) : State :=
  let s := s.setReg nr52 (v &&& 0x80)
  if powerOf v then s
  else
    let s := s.clearRegs nr10 22
    chanDisable .noise (chanDisable .wave (chanDisable .square2 (chanDisable .square1 s)))

/-- The NR30 procedure (R119). -/
def waveDacWrite (v : Byte) (s : State) : State := s.modCh .wave fun c => { c with powered := bit v 7 }

/-- The NR31 procedure (R120). -/
def waveLengthWrite (v : Byte) (s : State) : State :=
  s.modCh .wave fun c => { c with len := { c.len with load := v } }

/-- The NR32 procedure (R121). -/
def waveVolumeWrite (v : Byte) (s : State) : State :=
  s.modCh .wave fun c => { c with volume := waveCodeOf v, volumeInit := waveCodeOf v }

/-- The NR43 procedure (R127). -/
def noiseWrite (v : Byte) (s : State) : State :=
  { s with
    noise := { s.noise with frequency := shiftCodeOf v }
    noiseVoice := { s.noiseVoice with widthMode := widthOf v, divisorCode := divisorOf v } }

/-- The NR50 procedure (R129). -/
def masterVolumeWrite (v : Byte) (s : State) : State :=
  { s with volumeLeft := volumeLeftOf v, volumeRight := volumeRightOf v }

/-- One channel's part of the NR51 procedure (R130). -/
def panChannel (v : Byte) (i : Ch) (s : State) : State :=
  s.modCh i fun c => { c with onLeft := panLeftOf v i, onRight := panRightOf v i }

/-- The NR51 procedure (R130). -/
def panWrite (v : Byte) (s : State) : State :=
  panChannel v .noise (panChannel v .wave (panChannel v .square2 (panChannel v .square1 s)))

/-! ### The write of each address -/

/-- `write(0xFF26, v)` (R102). -/
def writeNR52 (v : Byte) (s : State) : State := nr52Write v s

/-- `write(0xFF10, v)` (R103: nothing beyond the store; the sweep fields are latched at the next Square1 trigger). -/
def writeNR10 (v : Byte) (s : State) : State := gatedWrite nr10 v noSideEffect s

/-- `write(0xFF11, v)` (R110). -/
def writeNR11 (v : Byte) (s : State) : State := gatedWrite nr11 v (dutyLenWrite .one v) s

/-- `write(0xFF12, v)` (R111). -/
def writeNR12 (v : Byte) (s : State) : State := gatedWrite nr12 v (envWrite .square1 v) s

/-- `write(0xFF13, v)` (R112). -/
def writeNR13 (v : Byte) (s : State) : State := gatedWrite nr13 v (freqLowWrite .square1 v) s

/-- `write(0xFF14, v)` (R113). -/
def writeNR14 (v : Byte) (s : State) : State := gatedWrite nr14 v (ctrlWrite .square1 v) s

/-- `write(0xFF15, v)` (R114, unlisted). -/
def writeFF15 (v : Byte) (s : State) : State := gatedWrite 0xFF15 v noSideEffect s

/-- `write(0xFF16, v)` (R115). -/
def writeNR21 (v : Byte) (s : State) : State := gatedWrite nr21 v (dutyLenWrite .two v) s

/-- `write(0xFF17, v)` (R116). -/
def writeNR22 (v : Byte) (s : State) : State := gatedWrite nr22 v (envWrite .square2 v) s

/-- `write(0xFF18, v)` (R117). -/
def writeNR23 (v : Byte) (s : State) : State := gatedWrite nr23 v (freqLowWrite .square2 v) s

/-- `write(0xFF19, v)` (R118). -/
def writeNR24 (v : Byte) (s : State) : State := gatedWrite nr24 v (ctrlWrite .square2 v) s

/-- `write(0xFF1A, v)` (R119). -/
def writeNR30 (v : Byte) (s : State) : State := gatedWrite nr30 v (waveDacWrite v) s

/-- `write(0xFF1B, v)` (R120). -/
def writeNR31 (v : Byte) (s : State) : State := gatedWrite nr31 v (waveLengthWrite v) s

/-- `write(0xFF1C, v)` (R121). -/
def writeNR32 (v : Byte) (s : State) : State := gatedWrite nr32 v (waveVolumeWrite v) s

/-- `write(0xFF1D, v)` (R122). -/
def writeNR33 (v : Byte) (s : State) : State := gatedWrite nr33 v (freqLowWrite .wave v) s

/-- `write(0xFF1E, v)` (R123). -/
def writeNR34 (v : Byte) (s : State) : State := gatedWrite nr34 v (ctrlWrite .wave v) s

/-- `write(0xFF1F, v)` (R124, unlisted). -/
def writeFF1F (v : Byte) (s : State) : State := gatedWrite 0xFF1F v noSideEffect s

/-- `write(0xFF20, v)` (R125). -/
def writeNR41 (v : Byte) (s : State) : State := gatedWrite nr41 v (lengthLoadWrite .noise v) s

/-- `write(0xFF21, v)` (R126). -/
def writeNR42 (v : Byte) (s : State) : State := gatedWrite nr42 v (envWrite .noise v) s

/-- `write(0xFF22, v)` (R127). -/
def writeNR43 (v : Byte) (s : State) : State := gatedWrite nr43 v (noiseWrite v) s

/-- `write(0xFF23, v)` (R128). -/
def writeNR44 (v : Byte) (s : State) : State := gatedWrite nr44 v (ctrlWrite .noise v) s

/-- `write(0xFF24, v)` (R129). -/
def writeNR50 (v : Byte) (s : State) : State := gatedWrite nr50 v (masterVolumeWrite v) s

/-- `write(0xFF25, v)` (R130). -/
def writeNR51 (v : Byte) (s : State) : State := gatedWrite nr51 v (panWrite v) s

/-- `write(0xFF27, v)` (R131, unlisted). -/
def writeFF27 (v : Byte) (s : State) : State := gatedWrite 0xFF27 v noSideEffect s

/-- `write(a, v)` for an address with no side effect in 0xFF28..0xFF2F (R131) or in wave RAM (R132). -/
def writePlain (a : Nat) (v : Byte) (s : State) : State := gatedWrite a v noSideEffect s

/-- `write(a, v)` (R101): the address check, then the address's own write. -/
def writeReg (a : Nat) (v : Byte) (s : State) : State :=
  if inWindow a = false then refuse .addressOutOfRange s
  else if a = nr52 then writeNR52 v s
  else if a = nr10 then writeNR10 v s
  else if a = nr11 then writeNR11 v s
  else if a = nr12 then writeNR12 v s
  else if a = nr13 then writeNR13 v s
  else if a = nr14 then writeNR14 v s
  else if a = 0xFF15 then writeFF15 v s
  else if a = nr21 then writeNR21 v s
  else if a = nr22 then writeNR22 v s
  else if a = nr23 then writeNR23 v s
  else if a = nr24 then writeNR24 v s
  else if a = nr30 then writeNR30 v s
  else if a = nr31 then writeNR31 v s
  else if a = nr32 then writeNR32 v s
  else if a = nr33 then writeNR33 v s
  else if a = nr34 then writeNR34 v s
  else if a = 0xFF1F then writeFF1F v s
  else if a = nr41 then writeNR41 v s
  else if a = nr42 then writeNR42 v s
  else if a = nr43 then writeNR43 v s
  else if a = nr44 then writeNR44 v s
  else if a = nr50 then writeNR50 v s
  else if a = nr51 then writeNR51 v s
  else if a = 0xFF27 then writeFF27 v s
  else writePlain a v s

/-! ### The meanings of the write rows -/

/-- `WR_NR52` (R102). -/
def execWrNR52 (v : Byte) (s : State) : Host.Outcome State Fault Refusal := .next (writeNR52 v s)

/-- `WR_NR10` (R103). -/
def execWrNR10 (v : Byte) (s : State) : Host.Outcome State Fault Refusal := .next (writeNR10 v s)

/-- `WR_NR11` (R110). -/
def execWrNR11 (v : Byte) (s : State) : Host.Outcome State Fault Refusal := .next (writeNR11 v s)

/-- `WR_NR12` (R111). -/
def execWrNR12 (v : Byte) (s : State) : Host.Outcome State Fault Refusal := .next (writeNR12 v s)

/-- `WR_NR13` (R112). -/
def execWrNR13 (v : Byte) (s : State) : Host.Outcome State Fault Refusal := .next (writeNR13 v s)

/-- `WR_NR14` (R113). -/
def execWrNR14 (v : Byte) (s : State) : Host.Outcome State Fault Refusal := .next (writeNR14 v s)

/-- `WR_FF15` (R114). -/
def execWrFF15 (v : Byte) (s : State) : Host.Outcome State Fault Refusal := .next (writeFF15 v s)

/-- `WR_NR21` (R115). -/
def execWrNR21 (v : Byte) (s : State) : Host.Outcome State Fault Refusal := .next (writeNR21 v s)

/-- `WR_NR22` (R116). -/
def execWrNR22 (v : Byte) (s : State) : Host.Outcome State Fault Refusal := .next (writeNR22 v s)

/-- `WR_NR23` (R117). -/
def execWrNR23 (v : Byte) (s : State) : Host.Outcome State Fault Refusal := .next (writeNR23 v s)

/-- `WR_NR24` (R118). -/
def execWrNR24 (v : Byte) (s : State) : Host.Outcome State Fault Refusal := .next (writeNR24 v s)

/-- `WR_NR30` (R119). -/
def execWrNR30 (v : Byte) (s : State) : Host.Outcome State Fault Refusal := .next (writeNR30 v s)

/-- `WR_NR31` (R120). -/
def execWrNR31 (v : Byte) (s : State) : Host.Outcome State Fault Refusal := .next (writeNR31 v s)

/-- `WR_NR32` (R121). -/
def execWrNR32 (v : Byte) (s : State) : Host.Outcome State Fault Refusal := .next (writeNR32 v s)

/-- `WR_NR33` (R122). -/
def execWrNR33 (v : Byte) (s : State) : Host.Outcome State Fault Refusal := .next (writeNR33 v s)

/-- `WR_NR34` (R123). -/
def execWrNR34 (v : Byte) (s : State) : Host.Outcome State Fault Refusal := .next (writeNR34 v s)

/-- `WR_FF1F` (R124). -/
def execWrFF1F (v : Byte) (s : State) : Host.Outcome State Fault Refusal := .next (writeFF1F v s)

/-- `WR_NR41` (R125). -/
def execWrNR41 (v : Byte) (s : State) : Host.Outcome State Fault Refusal := .next (writeNR41 v s)

/-- `WR_NR42` (R126). -/
def execWrNR42 (v : Byte) (s : State) : Host.Outcome State Fault Refusal := .next (writeNR42 v s)

/-- `WR_NR43` (R127). -/
def execWrNR43 (v : Byte) (s : State) : Host.Outcome State Fault Refusal := .next (writeNR43 v s)

/-- `WR_NR44` (R128). -/
def execWrNR44 (v : Byte) (s : State) : Host.Outcome State Fault Refusal := .next (writeNR44 v s)

/-- `WR_NR50` (R129). -/
def execWrNR50 (v : Byte) (s : State) : Host.Outcome State Fault Refusal := .next (writeNR50 v s)

/-- `WR_NR51` (R130). -/
def execWrNR51 (v : Byte) (s : State) : Host.Outcome State Fault Refusal := .next (writeNR51 v s)

/-- `WR_FF27` (R131). -/
def execWrFF27 (v : Byte) (s : State) : Host.Outcome State Fault Refusal := .next (writeFF27 v s)

/-- `WR_FF28_2F` (R131): the top-level `write` at the word's address. -/
def execWrFF28to2F (a : Addr) (v : Byte) (s : State) : Host.Outcome State Fault Refusal := .next (writeReg a.toNat v s)

/-- `WR_WAVE` (R132): the top-level `write` at the word's address. -/
def execWrWave (a : Addr) (v : Byte) (s : State) : Host.Outcome State Fault Refusal := .next (writeReg a.toNat v s)

end Sys2Proof.Machine
end

