-- ==== Sys2Proof/Machine/Init.lean ====
section
/-! DEFINITION. `init`, the unit's reset (R280). -/

namespace Sys2Proof.Machine

/-- `P_INIT_REGS[a]`, and `P_INIT_WAVE[k]` at 0xFF30 + k (R5, R280). -/
def initByte (p : Params) (a : Nat) : Byte := memRead p.initImage a

/-- `write(a, <its init byte>)` for the `n` addresses from `a` on, ascending (R280). -/
def initWrites : Nat → Nat → State → State
  | 0, _, s => s
  | n + 1, a, s => initWrites n (a + 1) (writeReg a (initByte s.params a) s)

/-- `init()` (R280): clear everything, write NR52 first, then 0xFF10..0xFF25 and 0xFF27..0xFF2F, then wave RAM. -/
def initUnit (s : State) : State :=
  let s := s.cleared
  let s := writeReg nr52 (initByte s.params nr52) s
  let s := initWrites 22 0xFF10 s
  let s := initWrites 9 0xFF27 s
  initWrites 16 0xFF30 s

/-- `CTL_INIT` (R280). -/
def execCtlInit (s : State) : Host.Outcome State Fault Refusal := .next (initUnit s)

end Sys2Proof.Machine
end

