-- ==== Sys2Proof/Machine/Synth.lean ====
section
/-! DEFINITION. Sample synthesis (42_synthesis.md): the phase accumulator with sub-sample integration, the three kinds of channel
and one generation step of each. -/

namespace Sys2Proof.Machine

/-! ### Phase accumulator -/

/-- What a phase step leaves: the mean it returns, and the channel's counter, level and own fields. -/
structure PhaseOut (α : Type) where
  mean : Int
  counter : Nat
  level : Int
  voice : α

/-- `tdiv(a, b)` (R8): division truncated toward zero. -/
def tdiv (a : Int) (b : Nat) : Int := Int.tdiv a b

/-- The loop of `PhaseStep` (R193), with at most as many crossings as the first argument says. `pos` is where the last crossing
of this step happened (0 before the first); at the head of the loop R193's `prev` and `pos` are equal, so one
variable stands for both. -/
def phaseLoop {α : Type} (thresh inc : Nat) (advance : α → Int → α × Int) :
    Nat → Int → Int → Nat → Int → α → PhaseOut α
  | 0, pos, acc, counter, level, voice =>
    { mean := tdiv (acc + (inc - pos) * level) inc
      counter := ((counter : Int) + (inc - pos)).toNat
      level := level
      voice := voice }
  | k + 1, pos, acc, counter, level, voice =>
    let counter' : Int := counter + (inc - pos)
    if counter' > thresh then
      let pos' : Int := inc - (counter' - thresh)
      let r := advance voice level
      phaseLoop thresh inc advance k pos' (acc + (pos' - pos) * level) 0 r.2 r.1
    else
      { mean := tdiv (acc + (inc - pos) * level) inc
        counter := counter'.toNat
        level := level
        voice := voice }

/-- `PhaseStep(i, Advance)` (R193), on the channel's increment, own fields, level and counter. `advance` is the channel's
`Advance`: from its own fields and the old level to its own fields and the new level. The bound of the loop is the number of
crossings of R194 (2). -/
def phaseStep {α : Type} (thresh inc : Nat) (advance : α → Int → α × Int) (counter : Nat) (level : Int) (voice : α) :
    PhaseOut α :=
  if inc = 0 then { mean := level, counter := counter, level := level, voice := voice }
  else phaseLoop thresh inc advance ((inc + counter - 1) / thresh) 0 0 counter level voice

/-- Put a phase step's counter and level into the channel's record. -/
def Channel.withPhase (c : Channel) (counter : Nat) (level : Int) : Channel :=
  { c with frequencyCounter := counter, currentLevel := level }

/-! ### Square channels -/

/-- `+P_LVL` or `-P_LVL` (D10, D41). -/
def levelOf (p : Params) (high : Bool) : Int := if high then (p.lvl : Int) else -(p.lvl : Int)

/-- `SquareAdvance(i)` (R197). -/
def squareAdvance (p : Params) (d : SquareVoice) (_level : Int) : SquareVoice × Int :=
  let step := d.dutyStep + 1
  ({ d with dutyStep := step }, levelOf p (d.dutyPattern.getLsbD step.toNat))

/-- The phase step of a square channel, scaled by its volume (R200). -/
def squarePhase (q : Sq) (s : State) : State × Int :=
  let c := s.ch q.ch
  let r := phaseStep s.params.thresh c.frequencyIncrement (squareAdvance s.params) c.frequencyCounter c.currentLevel
    (s.duty q)
  ((s.setCh q.ch (c.withPhase r.counter r.level)).setDuty q r.voice, r.mean * c.volume.toNat)

/-- `SquareStep(i)` (R200); `none` where the sweep stopped Square1 in this step. -/
def squareStep (q : Sq) (s : State) : State × Option Int :=
  let s := envTick q.ch s
  match q with
  | .one =>
    let t := sweepTick s
    if t.2 then (t.1, none)
    else
      let r := squarePhase .one t.1
      (r.1, some r.2)
  | .two =>
    let r := squarePhase .two s
    (r.1, some r.2)

/-! ### Wave channel -/

/-- `WaveLevel(nib, vc)` (R205). -/
def waveLevel (nib : BitVec 4) (vc : BitVec 4) : Int :=
  if vc = 0 then 0 else ((nib >>> (vc.toNat - 1)).toNat : Int) - 8

/-- `WaveAdvance(2)` (R203, R204): the position advances, then the nibble is fetched from wave RAM. -/
def waveAdvance (m : List Host.Cell) (vc : BitVec 4) (position : BitVec 5) (_level : Int) : BitVec 5 × Int :=
  let position := position + 1
  (position, waveLevel (waveNibble m position) vc)

/-- `WaveStep()` (R206). -/
def waveStep (s : State) : State × Option Int :=
  let c := s.wave
  let r := phaseStep s.params.thresh c.frequencyIncrement (waveAdvance s.mem c.volume) c.frequencyCounter c.currentLevel
    s.samplePosition
  ({ s with wave := c.withPhase r.counter r.level, samplePosition := r.voice }, some (r.mean * s.params.waveGain))

/-! ### Noise channel -/

/-- The XNOR of the two tap bits of the LFSR (R210). -/
def noiseTap (v : NoiseVoice) : Bool :=
  match v.widthMode with
  | .wide => v.lfsr.getLsbD 14 == v.lfsr.getLsbD 13
  | .narrow => v.lfsr.getLsbD 6 == v.lfsr.getLsbD 5

/-- `NoiseAdvance(3)` (R210): the previous output bit enters bit 0, and the taps of the shifted register give the level. -/
def noiseAdvance (p : Params) (v : NoiseVoice) (level : Int) : NoiseVoice × Int :=
  let v := { v with lfsr := (v.lfsr <<< 1) ||| (if level > 0 then 1 else 0) }
  (v, levelOf p (noiseTap v))

/-- `NoiseStep()` (R212). -/
def noiseStep (s : State) : State × Option Int :=
  let s := envTick .noise s
  let c := s.noise
  let r := phaseStep s.params.thresh c.frequencyIncrement (noiseAdvance s.params) c.frequencyCounter c.currentLevel
    s.noiseVoice
  ({ s with noise := c.withPhase r.counter r.level, noiseVoice := r.voice }, some (r.mean * c.volume.toNat))

/-- `NoiseGuards()` (R213): the state, and whether the sub-block proceeds. -/
def noiseGuards (s : State) : State × Bool :=
  if s.noise.frequency.toNat ≥ pNoiseSilentShift then (chanDisable .noise s, false)
  else if s.noise.frequencyIncrement < s.params.noiseMinInc then (s, false)
  else (s, true)

/-! ### By channel -/

/-- The increment of R190 for channel `i`. -/
def incrementOf (i : Ch) (s : State) : Nat :=
  match i with
  | .square1 => squareInc s.params s.square1.frequency.toNat
  | .square2 => squareInc s.params s.square2.frequency.toNat
  | .wave => waveInc s.params s.wave.frequency.toNat
  | .noise => noiseInc s.params s.noiseVoice.divisorCode s.noise.frequency.toNat

/-- `RecomputeIncrement(i)` (R190). -/
def recomputeIncrement (i : Ch) (s : State) : State :=
  s.modCh i fun c => { c with frequencyIncrement := incrementOf i s }

/-- One generation step of channel `i` (R233). -/
def channelStep (i : Ch) (s : State) : State × Option Int :=
  match i with
  | .square1 => squareStep .one s
  | .square2 => squareStep .two s
  | .wave => waveStep s
  | .noise => noiseStep s

end Sys2Proof.Machine
end

