-- ==== Sys2Proof/Machine/Mixer.lean ====
section
/-! DEFINITION. The mixer, the driver, the sample accumulators and the replicator (43_mixer_driver.md): `generate` and the two
host switches. -/

namespace Sys2Proof.Machine

/-- A sub-block in the making: the state and the true-sample accumulators TL and TR (R230). -/
structure Block where
  st : State
  left : List Int
  right : List Int

/-- Add a channel's values to the first slots of an accumulator; the slots it has no value for stay. -/
def addPrefix : List Int → List Int → List Int
  | a :: acc, m :: ms => (a + m) :: addPrefix acc ms
  | acc, _ => acc

/-- `Mix` (R235) for all of a channel's values of the sub-block on one side: gated by the pan bit, scaled by the master volume,
divided by `P_MIX_DIV`. -/
def mixSide (on : Bool) (volume : BitVec 3) (mixDiv : Nat) (ms acc : List Int) : List Int :=
  if on then addPrefix acc (ms.map fun m => tdiv (m * volume.toNat) mixDiv) else acc

/-- A channel's generation steps (R233): at most `k`, ending early where a step gives no value. -/
def runSteps (i : Ch) : Nat → State → State × List Int
  | 0, s => (s, [])
  | k + 1, s =>
    match channelStep i s with
    | (s, none) => (s, [])
    | (s, some m) =>
      let r := runSteps i k s
      (r.1, m :: r.2)

/-- The noise guards, for the noise channel only (R233). -/
def channelGuards (i : Ch) (s : State) : State × Bool :=
  match i with
  | .noise => noiseGuards s
  | .square1 | .square2 | .wave => (s, true)

/-- `ProcessChannel(i, n, TL, TR)` (R233). -/
def processChannel (i : Ch) (n : Nat) (b : Block) : Block :=
  let c := b.st.ch i
  if c.enabled = false ∨ c.powered = false then b
  else
    let g := channelGuards i (recomputeIncrement i b.st)
    if g.2 = false then { b with st := g.1 }
    else
      let l := lengthSpan i n g.1
      let r := runSteps i l.2 l.1
      let p := r.1.params
      { st := r.1
        left := mixSide (r.1.ch i).onLeft r.1.volumeLeft p.mixDiv r.2 b.left
        right := mixSide (r.1.ch i).onRight r.1.volumeRight p.mixDiv r.2 b.right }

/-- `Store(v)` (R237): the slot's value and the next draw's number; out of the 16-bit range the slot receives a free value. -/
def storeSlot (v : Int) (draws : Nat) : Slot × Nat :=
  if sampleMin ≤ v ∧ v ≤ sampleMax then (BitVec.ofInt 16 v, draws) else (Config.freeSlot draws, draws + 1)

/-- The slots `q`, `q + 1`, ... of a sub-block and the draws they take (R236): slot q of each side holds true sample
`fdiv(q, P_R)`. -/
def replicate (r : Nat) (left right : List Int) : Nat → Nat → Nat → List Slot × List Slot × Nat
  | 0, _, draws => ([], [], draws)
  | k + 1, q, draws =>
    let a := storeSlot (left.getD (q / r) 0) draws
    let b := storeSlot (right.getD (q / r) 0) a.2
    let rest := replicate r left right k (q + 1) b.2
    (a.1 :: rest.1, b.1 :: rest.2.1, rest.2.2)

/-- Overwrite the slots from `j` on. -/
def writeSlots (buf : List Slot) (j : Nat) (xs : List Slot) : List Slot :=
  buf.take j ++ xs ++ buf.drop (j + xs.length)

/-- The number of generation steps of a sub-block of `size` slots, `ceil(size / P_R)` (R230, R231). -/
def stepsOf (p : Params) (size : Nat) : Nat := (size + p.r - 1) / p.r

/-- The four channels over one sub-block, in the order Wave, Square1, Square2, Noise (R232). -/
def processAll (n : Nat) (b : Block) : Block :=
  processChannel .noise n (processChannel .square2 n (processChannel .square1 n (processChannel .wave n b)))

/-- One sub-block of `size` output slots from slot `j` (R230). -/
def subBlock (j size : Nat) (s : State) : State :=
  let n := stepsOf s.params size
  let b := processAll n { st := s, left := List.replicate n 0, right := List.replicate n 0 }
  let o := replicate b.st.params.r b.left b.right size 0 b.st.draws
  { b.st with
    outL := writeSlots b.st.outL j o.1
    outR := writeSlots b.st.outR j o.2.1
    draws := o.2.2 }

/-- The slots of a full sub-block, `P_SUB * P_R` (R231). -/
def blockSize (p : Params) : Nat := p.sub * p.r

/-- The driver's `while j < N` loop (R230), at most as often as the first argument says: every sub-block has at least one
slot, so N times are enough. -/
def generateLoop : Nat → Nat → Nat → State → State
  | 0, _, _, s => s
  | k + 1, j, n, s =>
    if j < n then
      let size := min (n - j) (blockSize s.params)
      generateLoop k (j + size) n (subBlock j size s)
    else s

/-- `generate(L, R, N)` (R230). -/
def generate (n : Nat) (s : State) : State :=
  if s.hostEnable = false ∨ s.hostLocked = true then { s with returned := .produced false }
  else { generateLoop n 0 n s with returned := .produced true }

/-- `GEN` (R230). -/
def execGen (n : BitVec 24) (s : State) : Host.Outcome State Fault Refusal := .next (generate n.toNat s)

/-- `CTL_ENABLE`, `set_enable(b)` (R244). -/
def execCtlEnable (b : Bool) (s : State) : Host.Outcome State Fault Refusal := .next { s with hostEnable := b }

/-- `CTL_LOCK`, `set_locked(b)` (R245). -/
def execCtlLock (b : Bool) (s : State) : Host.Outcome State Fault Refusal := .next { s with hostLocked := b }

end Sys2Proof.Machine
end

