-- ==== Sys2Proof/Machine/Read.lean ====
section
/-! DEFINITION. `read` (R100) and the meanings of the three read rows. -/

namespace Sys2Proof.Machine

/-- The byte a `read` returns: the stored byte OR the address's mask (R100). -/
def readValue (s : State) (a : Nat) : Byte :=
  if a ≤ nr52 then s.reg a ||| readMask a else s.reg a

/-- `read(a)` (R100): the address check, then the byte is returned; no state of the block changes (R67). -/
def readReg (a : Nat) (s : State) : State :=
  if inWindow a = false then refuse .addressOutOfRange s
  else { s with returned := .byte (readValue s a) }

/-- `RD_FF1x` (R100). -/
def execRdFF1x (a : Addr) (s : State) : Host.Outcome State Fault Refusal := .next (readReg a.toNat s)

/-- `RD_FF2x` (R100). -/
def execRdFF2x (a : Addr) (s : State) : Host.Outcome State Fault Refusal := .next (readReg a.toNat s)

/-- `RD_WAVE` (R100). -/
def execRdWave (a : Addr) (s : State) : Host.Outcome State Fault Refusal := .next (readReg a.toNat s)

end Sys2Proof.Machine
end

