-- ==== Sys2Proof/Machine/Dispatch.lean ====
section
/-! DEFINITION. The meaning of every operation, one arm for each constructor of `Instr`. -/

namespace Sys2Proof.Machine

def exec (i : Instr) (s : State) : Host.Outcome State Fault Refusal :=
  match i with
  | .rdFF1x a => Sys2Proof.Machine.execRdFF1x a s
  | .rdFF2x a => Sys2Proof.Machine.execRdFF2x a s
  | .rdWave a => Sys2Proof.Machine.execRdWave a s
  | .wrNR52 v => Sys2Proof.Machine.execWrNR52 v s
  | .wrNR10 v => Sys2Proof.Machine.execWrNR10 v s
  | .wrNR11 v => Sys2Proof.Machine.execWrNR11 v s
  | .wrNR12 v => Sys2Proof.Machine.execWrNR12 v s
  | .wrNR13 v => Sys2Proof.Machine.execWrNR13 v s
  | .wrNR14 v => Sys2Proof.Machine.execWrNR14 v s
  | .wrFF15 v => Sys2Proof.Machine.execWrFF15 v s
  | .wrNR21 v => Sys2Proof.Machine.execWrNR21 v s
  | .wrNR22 v => Sys2Proof.Machine.execWrNR22 v s
  | .wrNR23 v => Sys2Proof.Machine.execWrNR23 v s
  | .wrNR24 v => Sys2Proof.Machine.execWrNR24 v s
  | .wrNR30 v => Sys2Proof.Machine.execWrNR30 v s
  | .wrNR31 v => Sys2Proof.Machine.execWrNR31 v s
  | .wrNR32 v => Sys2Proof.Machine.execWrNR32 v s
  | .wrNR33 v => Sys2Proof.Machine.execWrNR33 v s
  | .wrNR34 v => Sys2Proof.Machine.execWrNR34 v s
  | .wrFF1F v => Sys2Proof.Machine.execWrFF1F v s
  | .wrNR41 v => Sys2Proof.Machine.execWrNR41 v s
  | .wrNR42 v => Sys2Proof.Machine.execWrNR42 v s
  | .wrNR43 v => Sys2Proof.Machine.execWrNR43 v s
  | .wrNR44 v => Sys2Proof.Machine.execWrNR44 v s
  | .wrNR50 v => Sys2Proof.Machine.execWrNR50 v s
  | .wrNR51 v => Sys2Proof.Machine.execWrNR51 v s
  | .wrFF27 v => Sys2Proof.Machine.execWrFF27 v s
  | .wrFF28to2F a v => Sys2Proof.Machine.execWrFF28to2F a v s
  | .wrWave a v => Sys2Proof.Machine.execWrWave a v s
  | .gen n => Sys2Proof.Machine.execGen n s
  | .ctlInit => Sys2Proof.Machine.execCtlInit s
  | .ctlEnable b => Sys2Proof.Machine.execCtlEnable b s
  | .ctlLock b => Sys2Proof.Machine.execCtlLock b s

end Sys2Proof.Machine
end

