-- ==== Sys2Proof/Machine/Step.lean ====
section
/-! DEFINITION. One step of the machine: the next operation of the host's order of calls (R12, R22, R70) is taken, decoded and run
whole; a word that is no operation, or whose address is outside the window, is refused (R83, R261). -/

namespace Sys2Proof.Machine

def step (s : State) : Host.Outcome State Fault Refusal :=
  match fetch s with
  | none => .next (idle s)
  | some (w, t) =>
    match decode w with
    | .ok i => exec i t
    | .error r => .next (refuse r t)

/-- The host issues the operation that the number `w` is (as spec/opcode_table.json numbers its bits) as the block's next one. -/
def State.withFetchWord (s : State) (nbits w : Nat) : State := issue (tableWord nbits w) s

end Sys2Proof.Machine
end

