-- ==== Sys2Proof/Safety.lean ====
section
/-! DEFINITION. The terms claims are stated in: what an operation stores, what a write leaves of a channel's record as the spec's
formulas give it, what `generate` may change, and the invariant of the machine (R39 to R41). -/

namespace Sys2Proof.Safety

open Sys2Proof.Machine

/-! ### Operations as syntax -/

/-- The address a write operation names (R80, R81); other operations name none. -/
def writeAddr : Instr → Option Nat
  | .wrNR52 _ => some 0xFF26
  | .wrNR10 _ => some 0xFF10
  | .wrNR11 _ => some 0xFF11
  | .wrNR12 _ => some 0xFF12
  | .wrNR13 _ => some 0xFF13
  | .wrNR14 _ => some 0xFF14
  | .wrFF15 _ => some 0xFF15
  | .wrNR21 _ => some 0xFF16
  | .wrNR22 _ => some 0xFF17
  | .wrNR23 _ => some 0xFF18
  | .wrNR24 _ => some 0xFF19
  | .wrNR30 _ => some 0xFF1A
  | .wrNR31 _ => some 0xFF1B
  | .wrNR32 _ => some 0xFF1C
  | .wrNR33 _ => some 0xFF1D
  | .wrNR34 _ => some 0xFF1E
  | .wrFF1F _ => some 0xFF1F
  | .wrNR41 _ => some 0xFF20
  | .wrNR42 _ => some 0xFF21
  | .wrNR43 _ => some 0xFF22
  | .wrNR44 _ => some 0xFF23
  | .wrNR50 _ => some 0xFF24
  | .wrNR51 _ => some 0xFF25
  | .wrFF27 _ => some 0xFF27
  | .wrFF28to2F a _ => some a.toNat
  | .wrWave a _ => some a.toNat
  | .rdFF1x _ | .rdFF2x _ | .rdWave _ | .gen _ | .ctlInit | .ctlEnable _ | .ctlLock _ => none

/-- The data byte of a write operation. -/
def writeData : Instr → Option Byte
  | .wrNR52 v | .wrNR10 v | .wrNR11 v | .wrNR12 v | .wrNR13 v | .wrNR14 v | .wrFF15 v | .wrNR21 v | .wrNR22 v
  | .wrNR23 v | .wrNR24 v | .wrNR30 v | .wrNR31 v | .wrNR32 v | .wrNR33 v | .wrNR34 v | .wrFF1F v | .wrNR41 v
  | .wrNR42 v | .wrNR43 v | .wrNR44 v | .wrNR50 v | .wrNR51 v | .wrFF27 v | .wrFF28to2F _ v | .wrWave _ v => some v
  | .rdFF1x _ | .rdFF2x _ | .rdWave _ | .gen _ | .ctlInit | .ctlEnable _ | .ctlLock _ => none

/-- The operations that may change a channel's `enabled` bit (R38, R42): `init`, `generate`, an NR52 write, and a write to
NRx4 or NR44 with bit 7 set. -/
def mayEnable : Instr → Bool
  | .wrNR52 _ | .gen _ | .ctlInit => true
  | .wrNR14 v | .wrNR24 v | .wrNR34 v | .wrNR44 v => v.getLsbD 7
  | .rdFF1x _ | .rdFF2x _ | .rdWave _ | .wrNR10 _ | .wrNR11 _ | .wrNR12 _ | .wrNR13 _ | .wrFF15 _ | .wrNR21 _ | .wrNR22 _
  | .wrNR23 _ | .wrNR30 _ | .wrNR31 _ | .wrNR32 _ | .wrNR33 _ | .wrFF1F _ | .wrNR41 _ | .wrNR42 _ | .wrNR43 _ | .wrNR50 _
  | .wrNR51 _ | .wrFF27 _ | .wrFF28to2F _ _ | .wrWave _ _ | .ctlEnable _ | .ctlLock _ => false

/-! ### Stores -/

/-- The byte at `a` is now `v` and every other byte of the window reads as before. -/
def storesOnly (s t : State) (a : Nat) (v : Byte) : Prop :=
  t.reg a = v ∧ ∀ b, b ≠ a → t.reg b = s.reg b

/-- NR52 keeps its power bit, shows the channels' `enabled` bits in bits 3..0 and 0 in bits 6..4 (R42). -/
def mirrors (s t : State) : Prop :=
  (t.reg 0xFF26).toNat = (s.reg 0xFF26).toNat / 128 * 128 + t.noise.enabled.toNat * 8 + t.wave.enabled.toNat * 4 +
    t.square2.enabled.toNat * 2 + t.square1.enabled.toNat

/-- NR52 mirrors the channels and every other byte of the window reads as before. -/
def mirrorsOnly (s t : State) : Prop := mirrors s t ∧ ∀ b, b ≠ 0xFF26 → t.reg b = s.reg b

/-- The byte at `a` is now `v`, NR52 mirrors the channels, and every other byte of the window reads as before. -/
def storesAndMirrors (s t : State) (a : Nat) (v : Byte) : Prop :=
  t.reg a = v ∧ mirrors s t ∧ ∀ b, b ≠ a → b ≠ 0xFF26 → t.reg b = s.reg b

/-! ### What a write leaves of a channel's record, by the spec's formulas -/

/-- `EnvWrite(i, v)` (R104): the record `c` becomes `c'`. -/
def envWritten (v : Byte) (c c' : Channel) : Prop :=
  c' = { c with
    volumeInit := BitVec.ofNat 4 (v.toNat / 16)
    powered := decide (v.toNat / 8 ≠ 0)
    volume := c'.volume
    env := { c.env with
      step := BitVec.ofNat 3 (v.toNat % 8)
      direction := if v.getLsbD 3 then .up else .down } } ∧
  c'.volume.toNat =
    if v.toNat / 8 ≠ 0 ∧ c.enabled = true then
      if c.env.step = 0 ∧ c.env.increment ≠ 0 then (c.volume.toNat + if v.getLsbD 3 then 1 else 2) % 16
      else (16 - c.volume.toNat) % 16
    else c.volume.toNat

/-- The frequency of `FreqLowWrite(i, v)` (R106): bits 10..8 kept, bits 7..0 replaced, bits above 10 dropped. -/
def freqLow (f : BitVec 16) (v : Byte) : BitVec 16 := BitVec.ofNat 16 (f.toNat / 256 % 8 * 256 + v.toNat)

/-- The frequency of `CtrlWrite(i, v)` (R107): bits 7..0 kept, bits 10..8 replaced, bits above 10 dropped. -/
def freqHigh (f : BitVec 16) (v : Byte) : BitVec 16 := BitVec.ofNat 16 (v.toNat % 8 * 256 + f.toNat % 256)

/-- A channel's record after the length-enable of `CtrlWrite(i, v)` (R107). -/
def lengthEnabled (v : Byte) (c : Channel) : Channel := { c with len := { c.len with enabled := v.getLsbD 6 } }

/-- A square or wave channel's record after the merge and the length-enable of `CtrlWrite(i, v)` (R107). -/
def ctrlMerged (v : Byte) (c : Channel) : Channel :=
  lengthEnabled v { c with frequency := freqHigh c.frequency v }

/-- A channel's record after the trigger steps 1, 2, 3 and 6 (R150, R151, R155), `maxLength` being 64 or 256; everything R154
lists is kept. -/
def triggered (p : Params) (maxLength : Nat) (c : Channel) : Channel :=
  { c with
    enabled := true
    volume := c.volumeInit
    env := { c.env with
      increment := if c.env.step = 0 then p.envInc0 else p.thresh * 64 / (c.env.step.toNat * p.fs)
      counter := 0 }
    len := { c.len with
      increment := p.thresh * 256 / ((maxLength - c.len.load.toNat) * p.fs)
      counter := 0 } }

/-- The sweep after trigger step 4 (R152), from the stored NR10 byte `b` and the channel's frequency. -/
def sweepLatched (p : Params) (b : Byte) (f : BitVec 16) : Sweep where
  shadowFrequency := f
  period := BitVec.ofNat 3 (b.toNat / 16 % 8)
  direction := if b.getLsbD 3 then .decrease else .increase
  shift := BitVec.ofNat 3 (b.toNat % 8)
  counter := 0
  increment := if b.toNat / 16 % 8 = 0 then 0 else p.thresh * 128 / (b.toNat / 16 % 8 * p.fs)

/-- A channel's record after the default writes of `init` and before its trigger (R280, R281): from the NR51, NRx2 and NRx4 bytes,
the channel's number, its frequency and its length load. -/
def defaultChannel (pan : Byte) (index : Nat) (frequency : BitVec 16) (load x2 x4 : Byte) : Channel :=
  { Channel.before with
    powered := decide (x2.toNat / 8 ≠ 0)
    onLeft := pan.getLsbD (4 + index)
    onRight := pan.getLsbD index
    volumeInit := BitVec.ofNat 4 (x2.toNat / 16)
    frequency := frequency
    len := { Length.before with load := load, enabled := x4.getLsbD 6 }
    env := { Envelope.before with
      step := BitVec.ofNat 3 (x2.toNat % 8), direction := if x2.getLsbD 3 then .up else .down } }

/-! ### What `generate` may change -/

/-- The fields of a channel's record that no generation step writes (R26, R30, R31); `enabled` can only fall. -/
def channelKept (c c' : Channel) : Prop :=
  (c'.enabled = true → c.enabled = true) ∧ c'.powered = c.powered ∧ c'.onLeft = c.onLeft ∧ c'.onRight = c.onRight ∧
  c'.volumeInit = c.volumeInit ∧ c'.len.load = c.len.load ∧ c'.len.enabled = c.len.enabled ∧
  c'.len.increment = c.len.increment ∧ c'.env.step = c.env.step ∧ c'.env.direction = c.env.direction

/-- The fields of the state that `generate` does not write, and what it may do to the others: of the register window NR52's
mirror only (R21, R42: where it changes, NR52 is its power bit and the channels' `enabled` bits), of a channel's record what
`channelKept` leaves open, the sweep's counter, Square1's frequency, the duty steps, the sample position, the LFSR, the output buffers, the draws and what is returned. -/
def generateKept (s t : State) : Prop :=
  t.params = s.params ∧
  (∀ a, a ≠ 0xFF26 → t.reg a = s.reg a) ∧
  ((t.reg 0xFF26 = s.reg 0xFF26 ∧ ∀ i, (t.ch i).enabled = (s.ch i).enabled) ∨ mirrors s t) ∧
  channelKept s.square1 t.square1 ∧ channelKept s.square2 t.square2 ∧ channelKept s.wave t.wave ∧
  channelKept s.noise t.noise ∧
  t.square2.frequency = s.square2.frequency ∧ t.wave.frequency = s.wave.frequency ∧
  t.noise.frequency = s.noise.frequency ∧ t.wave.volume = s.wave.volume ∧ t.wave.env = s.wave.env ∧
  t.duty1.dutyPattern = s.duty1.dutyPattern ∧ t.duty2.dutyPattern = s.duty2.dutyPattern ∧
  t.noiseVoice.widthMode = s.noiseVoice.widthMode ∧ t.noiseVoice.divisorCode = s.noiseVoice.divisorCode ∧
  t.sweep = { s.sweep with counter := t.sweep.counter } ∧
  t.volumeLeft = s.volumeLeft ∧ t.volumeRight = s.volumeRight ∧
  t.hostEnable = s.hostEnable ∧ t.hostLocked = s.hostLocked ∧ t.marks = s.marks ∧ t.inbox = s.inbox

/-- The state before generation step `g` of channel `i`, counted from the state `u` (R233). -/
def stateAt (i : Ch) (u : State) : Nat → State
  | 0 => u
  | g + 1 => (channelStep i (stateAt i u g)).1

/-- The value of generation step `g` of channel `i`, counted from the state `u`; `none` where the step stops the channel. -/
def valueAt (i : Ch) (u : State) (g : Nat) : Option Int := (channelStep i (stateAt i u g)).2

/-- Every generation step up to and with step `g` gives a value. -/
def playsThrough (i : Ch) (u : State) (g : Nat) : Bool := (List.range (g + 1)).all fun h => (valueAt i u h).isSome

/-- The noise channel's fields after `n` crossings (R210). -/
def noiseAfter (p : Params) (v : NoiseVoice) (level : Int) : Nat → NoiseVoice × Int
  | 0 => (v, level)
  | n + 1 => noiseAdvance p (noiseAfter p v level n).1 (noiseAfter p v level n).2

/-- The output bit after `n` crossings: 1 for a positive level (R210). -/
def noiseBit (p : Params) (v : NoiseVoice) (level : Int) (n : Nat) : Bool := decide (0 < (noiseAfter p v level n).2)

/-- A channel's own fields and level after `n` crossings of its `Advance`. -/
def advanced {α : Type} (advance : α → Int → α × Int) (voice : α) (level : Int) : Nat → α × Int
  | 0 => (voice, level)
  | n + 1 => advance (advanced advance voice level n).1 (advanced advance voice level n).2

/-! ### The invariant -/

/-- What R39 to R41 and the rules that write each field keep true of the machine. -/
structure Invariant (s : State) : Prop where
  /-- The OPEN parameters are in their ranges (R5). -/
  params : s.params.wf
  /-- The register window is in canonical form and lists no address outside 0xFF10..0xFF3F (R60). -/
  window : memWf s.mem = true
  /-- Bits 6..4 of the stored NR52 byte are 0 (R25, R41). -/
  unused : s.reg 0xFF26 &&& 0x70 = 0
  /-- Bits 3..0 of the stored NR52 byte are the channels' `enabled` bits, or 0 after an NR52 write (R41). -/
  status : s.reg 0xFF26 &&& 0x0F = statusBits s ∨ s.reg 0xFF26 &&& 0x0F = 0
  /-- While master power is 0 the bytes 0xFF10..0xFF25 are 0 (R39). -/
  offBytes : (s.reg 0xFF26).getLsbD 7 = false → ∀ a, 0xFF10 ≤ a → a ≤ 0xFF25 → s.reg a = 0
  /-- While master power is 0 every channel is disabled (R39). -/
  offChannels : (s.reg 0xFF26).getLsbD 7 = false → ∀ i, (s.ch i).enabled = false
  /-- An enabled Square1's frequency is at most 2047 (R39, C6). -/
  square1Frequency : s.square1.enabled = true → s.square1.frequency.toNat ≤ 2047
  /-- Square2's frequency is at most 2047 (R39). -/
  square2Frequency : s.square2.frequency.toNat ≤ 2047
  /-- Wave's frequency is at most 2047 (R39). -/
  waveFrequency : s.wave.frequency.toNat ≤ 2047
  /-- The noise channel's frequency is a shift code 0..15 (R29). -/
  shiftCode : s.noise.frequency.toNat ≤ 15
  /-- The wave channel's volumes are volume codes 0..3 (R28). -/
  waveCode : s.wave.volume.toNat ≤ 3 ∧ s.wave.volumeInit.toNat ≤ 3
  /-- The wave channel's envelope step is always 0 (R151). -/
  waveEnvStep : s.wave.env.step = 0
  /-- The loads of channels 0, 1 and 3 are 0..63 (R30). -/
  loads : s.square1.len.load.toNat ≤ 63 ∧ s.square2.len.load.toNat ≤ 63 ∧ s.noise.len.load.toNat ≤ 63
  /-- Every fixed-point counter is at most `P_THRESH` between operations (R170 corner case 3, R194 (4), D19). -/
  counters : ∀ i, (s.ch i).frequencyCounter ≤ s.params.thresh ∧ (s.ch i).len.counter ≤ s.params.thresh ∧
    (s.ch i).env.counter ≤ s.params.thresh
  /-- So is the sweep's. -/
  sweepCounter : s.sweep.counter ≤ s.params.thresh
  /-- The held levels of the square and noise channels are within ±`P_LVL` (R197, R210). -/
  levels : ∀ i, i ≠ .wave → -(s.params.lvl : Int) ≤ (s.ch i).currentLevel ∧ (s.ch i).currentLevel ≤ s.params.lvl
  /-- The wave channel's held level is -8..7 (R205). -/
  waveLevels : -8 ≤ s.wave.currentLevel ∧ s.wave.currentLevel ≤ 7

end Sys2Proof.Safety
end

