-- ==== Sys2Proof/Certificates/Slice0/Obligations.lean ====
section
/-! DEFINITION. The statements for the provers: what the numbered rules of spec/ say the machine does. -/

open Sys2Proof Sys2Proof.Machine Sys2Proof.Safety

/-! ### Operation words (30_encoding.md) -/

/-- R80 to R82: every operation of the table is read back from its own word, with every address and every value of its fields. -/
def Obligations.DecodeEncodeRoundTrip : Prop :=
  ∀ i : Instr, i.wf = true → decode (encode i) = .ok i

/-- R80, R81, R83: an accepted word is the one word of its operation, but for `init`, whose value bit B is not looked at: R80 and
R83 do not exclude the word 0x3000001, and reading it as `init` is the model's inference (log 9). That an operation carries its
whole address, `Instr.wf` saying which are its row's, is the model's choice (log 20). -/
def Obligations.AcceptedWordIsItsEncoding : Prop :=
  ∀ (w : OpWord) (i : Instr), decode w = .ok i →
    i.wf = true ∧ (encode i = w ∨ (i = .ctlInit ∧ w = 0x3000001))

/-- R81: the decoder is spec/opcode_table.json, but for the one word 0x3000001 that R80 and R83 accept beside the rows (log 9): an
accepted word matches its operation's row or is that word, and a word that matches a row is accepted as an operation of that
row. -/
def Obligations.DecoderFollowsOpcodeTable : Prop :=
  (∀ (w : OpWord) (i : Instr), decode w = .ok i →
    w &&& (tableRow i).2 = (tableRow i).1 ∨ (i = .ctlInit ∧ w = 0x3000001)) ∧
  ∀ (w : OpWord) (j : Instr), w &&& (tableRow j).2 = (tableRow j).1 → ∃ i, decode w = .ok i ∧ tableRow i = tableRow j

/-- R81: no word matches two different rows of the table. -/
def Obligations.TableRowsDisjoint : Prop :=
  ∀ (w : OpWord) (i j : Instr), w &&& (tableRow i).2 = (tableRow i).1 → w &&& (tableRow j).2 = (tableRow j).1 →
    tableRow i = tableRow j

/-- R83, R62: which words are refused, and why. That a word's format is looked at before its address is the model's choice
(log 8); that `init` with B = 1 is not refused follows R83's words against the table's row (log 9). -/
def Obligations.RefusedWords : Prop :=
  ∀ w : OpWord,
    let kind := w.toNat / 2 ^ 24
    let a := w.toNat / 2 ^ 8 % 2 ^ 16
    let d := w.toNat % 2 ^ 8
    (decode w = .error .badOperationWord ↔
      (kind = 0 ∧ d ≠ 0) ∨ (kind = 3 ∧ (a > 2 ∨ d / 2 ≠ 0))) ∧
    (decode w = .error .addressOutOfRange ↔
      ((kind = 0 ∧ d = 0) ∨ kind = 1) ∧ (a < 0xFF10 ∨ 0xFF3F < a))

/-- Words of the programs P1 to P4 of 95_test_vectors.md decode to the operations written beside them. -/
def Obligations.SampleWordsDecode : Prop :=
  decode 0x1FF2477 = .ok (.wrNR50 0x77) ∧ decode 0x1FF14C7 = .ok (.wrNR14 0xC7) ∧
  decode 0x0FF2600 = .ok (.rdFF2x 0xFF26) ∧ decode 0x0FF1400 = .ok (.rdFF1x 0xFF14) ∧
  decode 0x1FF3B98 = .ok (.wrWave 0xFF3B 0x98) ∧ decode 0x2000200 = .ok (.gen 512) ∧
  decode 0x3000000 = .ok .ctlInit ∧ decode 0x3000101 = .ok (.ctlEnable true) ∧ decode 0x3000200 = .ok (.ctlLock false)

/-! ### The step (R12, R22, R70, R261) -/

/-- R12, R22, R70: a step takes the host's next operation word and, when it decodes, is exactly that operation, run whole, on the
state with the word taken. The queue of pending words is the model's own (log 3). -/
def Obligations.StepRunsDecodedOperation : Prop :=
  ∀ (s : State) (w : OpWord) (rest : List OpWord) (i : Instr), s.inbox = w :: rest → decode w = .ok i →
    step s = exec i { s with inbox := rest }

/-- R261: a refused word sets its mark and changes no other state. That the mark has one flag for each reason is the model's
choice (log 7). -/
def Obligations.StepMarksRefusedWord : Prop :=
  ∀ (s : State) (w : OpWord) (rest : List OpWord), s.inbox = w :: rest →
    (decode w = .error .addressOutOfRange →
      step s = .next { s with inbox := rest, marks := { s.marks with addressOutOfRange := true } }) ∧
    (decode w = .error .badOperationWord →
      step s = .next { s with inbox := rest, marks := { s.marks with badOperationWord := true } })

/-- R12, "The block is passive": with no operation pending a step changes nothing (log 3). -/
def Obligations.StepWaitsForTheHost : Prop :=
  ∀ s : State, s.inbox = [] → step s = .next s

/-- R260: no operation raises an exception; every step of every state answers a next state. -/
def Obligations.EveryStepAnswersNext : Prop :=
  ∀ s : State, ∃ t, step s = .next t

/-- R261: the refusal mark stays set; no step, `init` included, clears it. -/
def Obligations.RefusalMarkStays : Prop :=
  ∀ s t : State, step s = .next t →
    (s.marks.addressOutOfRange = true → t.marks.addressOutOfRange = true) ∧
    (s.marks.badOperationWord = true → t.marks.badOperationWord = true)

/-- R5, R35: no step changes a parameter of the block. -/
def Obligations.ParametersNeverChange : Prop :=
  ∀ s t : State, step s = .next t → t.params = s.params

/-! ### Reset and `init` (70_reset_and_hazards.md) -/

/-- R283: the state after reset under the clean configuration S0, with the parameters of the test configuration TC of
95_test_vectors.md and the S0 init bytes. Taking S0 and TC as the reset is the model's choice (logs 2 and 4). -/
def Obligations.ResetIsCleanConfiguration : Prop :=
  State.reset.params = { State.reset.params with
    fs := 32768, thresh := 16777216, envInc0 := 1, noiseMinInc := 1, lvl := 32, waveGain := 16, mixDiv := 8, r := 2, sub := 64 } ∧
  (∀ a, memRead State.reset.params.initImage a = if a = 0xFF26 then 0x80 else 0) ∧
  (∀ a, State.reset.reg a = if a = 0xFF26 then 0x80 else 0) ∧
  (∀ i, (State.reset.ch i).enabled = false ∧ (State.reset.ch i).powered = false ∧ (State.reset.ch i).onLeft = false ∧
    (State.reset.ch i).onRight = false ∧ (State.reset.ch i).frequencyCounter = 0 ∧ (State.reset.ch i).len.counter = 0 ∧
    (State.reset.ch i).env.counter = 0) ∧
  State.reset.sweep.counter = 0 ∧ State.reset.volumeLeft = 0 ∧ State.reset.volumeRight = 0 ∧
  State.reset.hostEnable = true ∧ State.reset.hostLocked = false ∧
  State.reset.marks.addressOutOfRange = false ∧ State.reset.marks.badOperationWord = false

/-- R280, R283: with the S0 init bytes, `init` leaves the reset state whatever the state before, and keeps the host switches, the
refusal mark and what is not the block's. -/
def Obligations.InitRestoresReset : Prop :=
  ∀ s : State, s.params.initImage = [(0xFF26, 0x80)] →
    exec .ctlInit s = .next { State.reset with
      params := s.params, hostEnable := s.hostEnable, hostLocked := s.hostLocked, marks := s.marks,
      returned := s.returned, outL := s.outL, outR := s.outR, draws := s.draws, inbox := s.inbox }

/-- R280, R281: the state after `init`, for every choice of the init bytes. With the NR52 byte's bit 7 clear every later write is
ignored and the before-init state stays. With it set every byte of the window but NR52 is its init byte, NR52 mirrors the channels,
and every field is as the default writes decode it: a channel's record is its defaults' (`defaultChannel`), with the trigger's
values where bit 7 of its NRx4 default is set.
The wave channel's volume follows R280 with R121 against R281's table, which R281 derives from R280 (log 21): an NR32 default writes
the volume too, and so it is the NR32 code even where the defaults do not trigger the channel, where the table says 0. -/
def Obligations.InitWritesTheDefaults : Prop :=
  ∀ s : State, ∃ t, exec .ctlInit s = .next t ∧
    t.params = s.params ∧ t.hostEnable = s.hostEnable ∧ t.hostLocked = s.hostLocked ∧ t.marks = s.marks ∧
    t.returned = s.returned ∧ t.outL = s.outL ∧ t.outR = s.outR ∧ t.draws = s.draws ∧ t.inbox = s.inbox ∧
    let image := memRead s.params.initImage
    let frequency := fun low high : Nat => BitVec.ofNat 16 ((image high).toNat % 8 * 256 + (image low).toNat)
    let pattern := fun a : Nat => ([0x10, 0x30, 0x3C, 0xCF] : List Byte).getD ((image a).toNat / 64) 0
    let load := fun a : Nat => BitVec.ofNat 8 ((image a).toNat % 64)
    let code := BitVec.ofNat 4 ((image 0xFF1C).toNat / 32 % 4)
    let c1 := defaultChannel (image 0xFF25) 0 (frequency 0xFF13 0xFF14) (load 0xFF11) (image 0xFF12) (image 0xFF14)
    let c2 := defaultChannel (image 0xFF25) 1 (frequency 0xFF18 0xFF19) (load 0xFF16) (image 0xFF17) (image 0xFF19)
    let cw := { defaultChannel (image 0xFF25) 2 (frequency 0xFF1D 0xFF1E) (image 0xFF1B) 0 (image 0xFF1E) with
      powered := (image 0xFF1A).getLsbD 7, volume := code, volumeInit := code }
    let cn := defaultChannel (image 0xFF25) 3 (BitVec.ofNat 16 ((image 0xFF22).toNat / 16)) (load 0xFF20) (image 0xFF21)
      (image 0xFF23)
    ((image 0xFF26).getLsbD 7 = false → t = s.cleared) ∧
    ((image 0xFF26).getLsbD 7 = true →
      (∀ a, 0xFF10 ≤ a → a ≤ 0xFF3F → a ≠ 0xFF26 → t.reg a = image a) ∧
      (t.reg 0xFF26).toNat = 128 + t.noise.enabled.toNat * 8 + t.wave.enabled.toNat * 4 +
        t.square2.enabled.toNat * 2 + t.square1.enabled.toNat ∧
      t.square1 = (if (image 0xFF14).getLsbD 7 then triggered s.params 64 c1 else c1) ∧
      t.square2 = (if (image 0xFF19).getLsbD 7 then triggered s.params 64 c2 else c2) ∧
      t.wave = (if (image 0xFF1E).getLsbD 7 then triggered s.params 256 cw else cw) ∧
      t.noise = (if (image 0xFF23).getLsbD 7 then
        { triggered s.params 64 cn with currentLevel := -(s.params.lvl : Int) } else cn) ∧
      t.duty1 = { dutyPattern := pattern 0xFF11, dutyStep := 0 } ∧ t.duty2 = { dutyPattern := pattern 0xFF16, dutyStep := 0 } ∧
      t.samplePosition = 0 ∧
      t.noiseVoice = { lfsr := if (image 0xFF23).getLsbD 7 then 0xFFFF else 0
                       widthMode := if (image 0xFF22).toNat / 8 % 2 = 0 then .wide else .narrow
                       divisorCode := BitVec.ofNat 3 ((image 0xFF22).toNat % 8) } ∧
      t.sweep = (if (image 0xFF14).getLsbD 7 then
        sweepLatched s.params (image 0xFF10) (frequency 0xFF13 0xFF14) else Sweep.before) ∧
      t.volumeLeft = BitVec.ofNat 3 ((image 0xFF24).toNat / 16 % 8) ∧
      t.volumeRight = BitVec.ofNat 3 ((image 0xFF24).toNat % 8))

/-! ### `read` (R100) -/

/-- R100, R67: a read returns the stored byte OR the mask up to 0xFF26 and the stored byte above, whatever the power state, and
changes nothing else (what was returned is the model's own field, log 6). -/
def Obligations.ReadReturnsStoredOrMask : Prop :=
  ∀ (s : State) (a : Addr),
    (0xFF10 ≤ a.toNat → a.toNat ≤ 0xFF1F →
      exec (.rdFF1x a) s = .next { s with returned := .byte (s.reg a.toNat ||| readMask a.toNat) }) ∧
    (0xFF20 ≤ a.toNat → a.toNat ≤ 0xFF2F →
      exec (.rdFF2x a) s = .next { s with
        returned := .byte (if a.toNat ≤ 0xFF26 then s.reg a.toNat ||| readMask a.toNat else s.reg a.toNat) }) ∧
    (0xFF30 ≤ a.toNat → a.toNat ≤ 0xFF3F →
      exec (.rdWave a) s = .next { s with returned := .byte (s.reg a.toNat) })

/-- R84, R100, R102, C3: after a power-off the addresses 0xFF10..0xFF26 read as the 23 masks of R84. -/
def Obligations.PowerOffReadsAsMask : Prop :=
  ∀ (s : State) (v : Byte) (a : Addr), memWf s.mem = true → v.getLsbD 7 = false → 0xFF10 ≤ a.toNat → a.toNat ≤ 0xFF26 →
    ∃ t u, exec (.wrNR52 v) s = .next t ∧ exec (if a.toNat < 0xFF20 then .rdFF1x a else .rdFF2x a) t = .next u ∧
      u.returned = .byte (([0x80, 0x3F, 0x00, 0xFF, 0xBF, 0xFF, 0x3F, 0x00, 0xFF, 0xBF, 0x7F, 0xFF, 0x9F, 0xFF, 0xBF,
        0xFF, 0xFF, 0x00, 0x00, 0xBF, 0x00, 0x00, 0x70] : List Byte).getD (a.toNat - 0xFF10) 0)

/-- R62, R261: a read or write word whose address is outside the window sets the refusal mark and changes nothing else. The flag
per reason is the model's choice (log 7); so is that an operation with several addresses carries the whole address and that, on an
address of no row, which no word decodes to, `exec` runs the address check of R100 and R101 (log 20). -/
def Obligations.OutOfWindowAddressIsRefused : Prop :=
  ∀ (s : State) (a : Addr) (v : Byte), (a.toNat < 0xFF10 ∨ 0xFF3F < a.toNat) →
    let t : State := { s with marks := { s.marks with addressOutOfRange := true } }
    (∀ rest, s.inbox = packOp 0 a 0 :: rest ∨ s.inbox = packOp 1 a v :: rest → step s = .next { t with inbox := rest }) ∧
    exec (.rdFF1x a) s = .next t ∧ exec (.rdFF2x a) s = .next t ∧ exec (.rdWave a) s = .next t ∧
    exec (.wrFF28to2F a v) s = .next t ∧ exec (.wrWave a v) s = .next t

/-! ### `write` (R101 to R132) -/

/-- R69: while the stored NR52 bit 7 is 0 a write to any other address, wave RAM included, changes nothing; reads are not gated: a
read of every address of the window returns the byte it always returns (ReadReturnsStoredOrMask says which). -/
def Obligations.PoweredOffWriteIsIgnored : Prop :=
  ∀ (s : State) (i : Instr) (a : Nat), (s.reg 0xFF26).getLsbD 7 = false → i.wf = true →
    (writeAddr i = some a → a ≠ 0xFF26 → exec i s = .next s) ∧
    (∀ b, (i = .rdFF1x b ∨ i = .rdFF2x b ∨ i = .rdWave b) →
      exec i s = .next { s with returned := .byte (readValue s b.toNat) })

/-- R101, R21, R42: while power is on a write stores its byte at its own address; of the rest of the window only NR52 may change:
it stays as it is where the write does not trigger, and where it triggers it is its power bit with the channels' `enabled` bits
mirrored in bits 3..0. -/
def Obligations.WriteStoresItsByte : Prop :=
  ∀ (s : State) (i : Instr) (a : Nat) (v : Byte), memWf s.mem = true → (s.reg 0xFF26).getLsbD 7 = true → i.wf = true →
    writeAddr i = some a → writeData i = some v → a ≠ 0xFF26 →
    ∃ t, exec i s = .next t ∧ t.reg a = v ∧ (∀ b, b ≠ a → b ≠ 0xFF26 → t.reg b = s.reg b) ∧
      (mayEnable i = false → t.reg 0xFF26 = s.reg 0xFF26) ∧ (mayEnable i = true → mirrors s t)

/-- R103, R108, R114, R124, R131, R132: the writes with no side effect store the byte and do nothing else. -/
def Obligations.StoredOnlyWrites : Prop :=
  ∀ (s : State) (v : Byte), memWf s.mem = true → (s.reg 0xFF26).getLsbD 7 = true →
    (∃ t, exec (.wrNR10 v) s = .next t ∧ t = { s with mem := t.mem } ∧ storesOnly s t 0xFF10 v) ∧
    (∃ t, exec (.wrFF15 v) s = .next t ∧ t = { s with mem := t.mem } ∧ storesOnly s t 0xFF15 v) ∧
    (∃ t, exec (.wrFF1F v) s = .next t ∧ t = { s with mem := t.mem } ∧ storesOnly s t 0xFF1F v) ∧
    (∃ t, exec (.wrFF27 v) s = .next t ∧ t = { s with mem := t.mem } ∧ storesOnly s t 0xFF27 v) ∧
    (∀ a : Addr, 0xFF28 ≤ a.toNat → a.toNat ≤ 0xFF2F →
      ∃ t, exec (.wrFF28to2F a v) s = .next t ∧ t = { s with mem := t.mem } ∧ storesOnly s t a.toNat v) ∧
    (∀ a : Addr, 0xFF30 ≤ a.toNat → a.toNat ≤ 0xFF3F →
      ∃ t, exec (.wrWave a v) s = .next t ∧ t = { s with mem := t.mem } ∧ storesOnly s t a.toNat v)

/-- R105, R86, R87, R110, R115, R125: bits 5..0 are the length load; bits 7..6 choose the duty pattern of the two square channels
and nothing of the noise channel. -/
def Obligations.DutyLengthWrites : Prop :=
  ∀ (s : State) (v : Byte), memWf s.mem = true → (s.reg 0xFF26).getLsbD 7 = true →
    let load : Byte := BitVec.ofNat 8 (v.toNat % 64)
    let pattern : BitVec 8 := ([0x10, 0x30, 0x3C, 0xCF] : List Byte).getD (v.toNat / 64) 0
    (∃ t, exec (.wrNR11 v) s = .next t ∧ storesOnly s t 0xFF11 v ∧
      t = { s with
        mem := t.mem, square1 := { s.square1 with len := { s.square1.len with load := load } },
        duty1 := { s.duty1 with dutyPattern := pattern } }) ∧
    (∃ t, exec (.wrNR21 v) s = .next t ∧ storesOnly s t 0xFF16 v ∧
      t = { s with
        mem := t.mem, square2 := { s.square2 with len := { s.square2.len with load := load } },
        duty2 := { s.duty2 with dutyPattern := pattern } }) ∧
    (∃ t, exec (.wrNR41 v) s = .next t ∧ storesOnly s t 0xFF20 v ∧
      t = { s with mem := t.mem, noise := { s.noise with len := { s.noise.len with load := load } } })

/-- R104, R88: the envelope write of channels 0, 1 and 3, zombie mode included. -/
def Obligations.EnvelopeWrites : Prop :=
  ∀ (s : State) (v : Byte), memWf s.mem = true → (s.reg 0xFF26).getLsbD 7 = true →
    (∃ t, exec (.wrNR12 v) s = .next t ∧ storesOnly s t 0xFF12 v ∧ envWritten v s.square1 t.square1 ∧
      t = { s with mem := t.mem, square1 := t.square1 }) ∧
    (∃ t, exec (.wrNR22 v) s = .next t ∧ storesOnly s t 0xFF17 v ∧ envWritten v s.square2 t.square2 ∧
      t = { s with mem := t.mem, square2 := t.square2 }) ∧
    (∃ t, exec (.wrNR42 v) s = .next t ∧ storesOnly s t 0xFF21 v ∧ envWritten v s.noise t.noise ∧
      t = { s with mem := t.mem, noise := t.noise })

/-- R106, R64, R112, R117, R122: the low byte of the frequency, dropping what a sweep overflow left above bit 10. -/
def Obligations.FrequencyLowWrites : Prop :=
  ∀ (s : State) (v : Byte), memWf s.mem = true → (s.reg 0xFF26).getLsbD 7 = true →
    (∃ t, exec (.wrNR13 v) s = .next t ∧ storesOnly s t 0xFF13 v ∧
      t = { s with mem := t.mem, square1 := { s.square1 with frequency := freqLow s.square1.frequency v } }) ∧
    (∃ t, exec (.wrNR23 v) s = .next t ∧ storesOnly s t 0xFF18 v ∧
      t = { s with mem := t.mem, square2 := { s.square2 with frequency := freqLow s.square2.frequency v } }) ∧
    (∃ t, exec (.wrNR33 v) s = .next t ∧ storesOnly s t 0xFF1D v ∧
      t = { s with mem := t.mem, wave := { s.wave with frequency := freqLow s.wave.frequency v } })

/-- R107, R90, R91: NRx4 and NR44 with bit 7 clear merge the frequency's high bits (not for noise) and set the length enable. -/
def Obligations.ControlWritesWithoutTrigger : Prop :=
  ∀ (s : State) (v : Byte), memWf s.mem = true → (s.reg 0xFF26).getLsbD 7 = true → v.getLsbD 7 = false →
    (∃ t, exec (.wrNR14 v) s = .next t ∧ storesOnly s t 0xFF14 v ∧
      t = { s with mem := t.mem, square1 := ctrlMerged v s.square1 }) ∧
    (∃ t, exec (.wrNR24 v) s = .next t ∧ storesOnly s t 0xFF19 v ∧
      t = { s with mem := t.mem, square2 := ctrlMerged v s.square2 }) ∧
    (∃ t, exec (.wrNR34 v) s = .next t ∧ storesOnly s t 0xFF1E v ∧
      t = { s with mem := t.mem, wave := ctrlMerged v s.wave }) ∧
    (∃ t, exec (.wrNR44 v) s = .next t ∧ storesOnly s t 0xFF23 v ∧
      t = { s with mem := t.mem, noise := lengthEnabled v s.noise })

/-- R150 to R155, R107: a triggering NR14 write: the six steps for Square1, the sweep latched from NR10 and from the merged
frequency, NR52 mirrored, and nothing else changed (R154). -/
def Obligations.TriggerSquare1 : Prop :=
  ∀ (s : State) (v : Byte), memWf s.mem = true → (s.reg 0xFF26).getLsbD 7 = true → v.getLsbD 7 = true →
    ∃ t, exec (.wrNR14 v) s = .next t ∧ storesAndMirrors s t 0xFF14 v ∧
      t = { s with
        mem := t.mem, square1 := triggered s.params 64 (ctrlMerged v s.square1),
        sweep := sweepLatched s.params (s.reg 0xFF10) (freqHigh s.square1.frequency v) }

/-- R150 to R155, R107, R118: a triggering NR24 write; Square2 has no sweep. -/
def Obligations.TriggerSquare2 : Prop :=
  ∀ (s : State) (v : Byte), memWf s.mem = true → (s.reg 0xFF26).getLsbD 7 = true → v.getLsbD 7 = true →
    ∃ t, exec (.wrNR24 v) s = .next t ∧ storesAndMirrors s t 0xFF19 v ∧
      t = { s with mem := t.mem, square2 := triggered s.params 64 (ctrlMerged v s.square2) }

/-- R150 to R155, R107, R123: a triggering NR34 write restarts the sample position; the length unit count is 256. -/
def Obligations.TriggerWave : Prop :=
  ∀ (s : State) (v : Byte), memWf s.mem = true → (s.reg 0xFF26).getLsbD 7 = true → v.getLsbD 7 = true →
    ∃ t, exec (.wrNR34 v) s = .next t ∧ storesAndMirrors s t 0xFF1E v ∧
      t = { s with mem := t.mem, wave := triggered s.params 256 (ctrlMerged v s.wave), samplePosition := 0 }

/-- R150 to R155, R107, R128: a triggering NR44 write reseeds the LFSR and sets the level to its minimum; no frequency merge. -/
def Obligations.TriggerNoise : Prop :=
  ∀ (s : State) (v : Byte), memWf s.mem = true → (s.reg 0xFF26).getLsbD 7 = true → v.getLsbD 7 = true →
    ∃ t, exec (.wrNR44 v) s = .next t ∧ storesAndMirrors s t 0xFF23 v ∧
      t = { s with
        mem := t.mem,
        noise := { triggered s.params 64 (lengthEnabled v s.noise) with currentLevel := -(s.params.lvl : Int) },
        noiseVoice := { s.noiseVoice with lfsr := 0xFFFF } }

/-- R119 to R121, R92 to R94: NR30 bit 7 is the DAC, NR31 the 8-bit length load, NR32 bits 6..5 both volume codes. -/
def Obligations.WaveRegisterWrites : Prop :=
  ∀ (s : State) (v : Byte), memWf s.mem = true → (s.reg 0xFF26).getLsbD 7 = true →
    let code : BitVec 4 := BitVec.ofNat 4 (v.toNat / 32 % 4)
    (∃ t, exec (.wrNR30 v) s = .next t ∧ storesOnly s t 0xFF1A v ∧
      t = { s with mem := t.mem, wave := { s.wave with powered := decide (128 ≤ v.toNat) } }) ∧
    (∃ t, exec (.wrNR31 v) s = .next t ∧ storesOnly s t 0xFF1B v ∧
      t = { s with mem := t.mem, wave := { s.wave with len := { s.wave.len with load := v } } }) ∧
    (∃ t, exec (.wrNR32 v) s = .next t ∧ storesOnly s t 0xFF1C v ∧
      t = { s with mem := t.mem, wave := { s.wave with volume := code, volumeInit := code } })

/-- R127, R95: NR43 is the shift code, the width and the divisor code. -/
def Obligations.NoiseFrequencyWrite : Prop :=
  ∀ (s : State) (v : Byte), memWf s.mem = true → (s.reg 0xFF26).getLsbD 7 = true →
    ∃ t, exec (.wrNR43 v) s = .next t ∧ storesOnly s t 0xFF22 v ∧
      t = { s with
        mem := t.mem, noise := { s.noise with frequency := BitVec.ofNat 16 (v.toNat / 16) },
        noiseVoice := { s.noiseVoice with
          widthMode := if v.toNat / 8 % 2 = 0 then .wide else .narrow
          divisorCode := BitVec.ofNat 3 (v.toNat % 8) } }

/-- R129, R130, R96, R97: NR50 is the two master volumes, NR51 the four channels' pan bits. -/
def Obligations.MixerWrites : Prop :=
  ∀ (s : State) (v : Byte), memWf s.mem = true → (s.reg 0xFF26).getLsbD 7 = true →
    (∃ t, exec (.wrNR50 v) s = .next t ∧ storesOnly s t 0xFF24 v ∧
      t = { s with
        mem := t.mem, volumeLeft := BitVec.ofNat 3 (v.toNat / 16 % 8), volumeRight := BitVec.ofNat 3 (v.toNat % 8) }) ∧
    (∃ t, exec (.wrNR51 v) s = .next t ∧ storesOnly s t 0xFF25 v ∧
      t = { s with
        mem := t.mem,
        square1 := { s.square1 with onLeft := v.getLsbD 4, onRight := v.getLsbD 0 },
        square2 := { s.square2 with onLeft := v.getLsbD 5, onRight := v.getLsbD 1 },
        wave := { s.wave with onLeft := v.getLsbD 6, onRight := v.getLsbD 2 },
        noise := { s.noise with onLeft := v.getLsbD 7, onRight := v.getLsbD 3 } })

/-- R102: an NR52 write runs whatever the power state. With bit 7 set it stores 0x80, so the status bits read 0, and changes no
channel; with bit 7 clear it clears 0xFF10..0xFF26 and every `enabled`, and keeps all other bytes and every other field. -/
def Obligations.PowerWrite : Prop :=
  ∀ (s : State) (v : Byte), memWf s.mem = true →
    (v.getLsbD 7 = true → ∃ t, exec (.wrNR52 v) s = .next t ∧ t = { s with mem := t.mem } ∧ storesOnly s t 0xFF26 0x80) ∧
    (v.getLsbD 7 = false → ∃ t, exec (.wrNR52 v) s = .next t ∧
      (∀ a, t.reg a = if 0xFF10 ≤ a ∧ a ≤ 0xFF26 then 0 else s.reg a) ∧
      t = { s with
        mem := t.mem,
        square1 := { s.square1 with enabled := false }, square2 := { s.square2 with enabled := false },
        wave := { s.wave with enabled := false }, noise := { s.noise with enabled := false } })

/-- R38, R42: only `init`, `generate`, an NR52 write and a triggering write change a channel's `enabled` bit. -/
def Obligations.EnabledWriters : Prop :=
  ∀ (i : Instr) (s t : State), i.wf = true → exec i s = .next t → mayEnable i = false → ∀ j, (t.ch j).enabled = (s.ch j).enabled

/-- R21, R60: what stores into the register window: a write into its own address, `init`, the NR52 mirror, and a power-off into
0xFF10..0xFF25. -/
def Obligations.RegisterWindowWriters : Prop :=
  ∀ (i : Instr) (s t : State) (a : Nat), i.wf = true → memWf s.mem = true → exec i s = .next t → t.reg a ≠ s.reg a →
    writeAddr i = some a ∨ i = .ctlInit ∨ (a = 0xFF26 ∧ mayEnable i = true) ∨
    (0xFF10 ≤ a ∧ a ≤ 0xFF25 ∧ ∃ v, i = .wrNR52 v ∧ v.getLsbD 7 = false)

/-! ### Timers (41_trigger_timers.md) -/

/-- R160: the envelope tick, for any number `k` of firings ("loop handles coarse steps"): the counter passes the threshold `k` times
and falls by it each time. With no firing only the counter moves; `k` firings of a nonzero step move the volume by `k` within
0..15 and freeze the increment where it reaches 0 or 15; with step 0 volume and increment stay. The counter ends at most at the
threshold. -/
def Obligations.EnvelopeTick : Prop :=
  ∀ (thresh : Nat) (c : Channel) (k : Nat), 1 ≤ thresh →
    let x := c.env.counter + c.env.increment
    let nv : BitVec 4 := if c.env.direction = .up then BitVec.ofNat 4 (min 15 (c.volume.toNat + k))
      else BitVec.ofNat 4 (c.volume.toNat - k)
    (x ≤ thresh → envTickChannel thresh c = { c with env := { c.env with counter := x } }) ∧
    (1 ≤ k → k * thresh < x → x ≤ (k + 1) * thresh →
      (c.env.step ≠ 0 → envTickChannel thresh c = { c with
        volume := nv
        env := { c.env with
          counter := x - k * thresh
          increment := if nv.toNat = 0 ∨ nv.toNat = 15 then 0 else c.env.increment } }) ∧
      (c.env.step = 0 → envTickChannel thresh c = { c with env := { c.env with counter := x - k * thresh } })) ∧
    (c.env.step = 0 → (envTickChannel thresh c).volume = c.volume ∧
      (envTickChannel thresh c).env.increment = c.env.increment) ∧
    (envTickChannel thresh c).env.counter ≤ thresh

/-- R160 corner case 1: with step 0 the volume never changes, for any number of ticks. -/
def Obligations.EnvelopeStepZeroNeverMoves : Prop :=
  ∀ (i : Ch) (n : Nat) (s : State), (s.ch i).env.step = 0 →
    (((envTick i)^[n] s).ch i).volume = (s.ch i).volume ∧ (((envTick i)^[n] s).ch i).env.step = 0

/-- R161, R162, R163, D56: one sweep tick, for any number `k` of firings. With no firing only the counter moves; `k` firings lower it
by `k` thresholds, after a disable too. With period and shift 0 nothing else changes; with shift 0 and a nonzero period Square1 is
disabled. With a shift each firing adds the same signed delta to the frequency, modulo 65536: firing `j` leaves `f j`; the tick
stops Square1 exactly where some firing leaves more than 2047, and the frequency increment is that of the last firing that leaves
2047 or less. A disable mirrors NR52. -/
def Obligations.SweepTickOnce : Prop :=
  ∀ (s : State) (k : Nat), memWf s.mem = true → 1 ≤ s.params.thresh →
    let x := s.sweep.counter + s.sweep.increment
    let fired : Sweep := { s.sweep with counter := x - k * s.params.thresh }
    let delta := s.sweep.shadowFrequency.toNat / 2 ^ s.sweep.shift.toNat
    let f := fun j : Nat =>
      (s.square1.frequency.toNat + j * if s.sweep.direction = .increase then delta else 65536 - delta) % 65536
    let inc := fun nf : Nat => 8 * (4194304 / ((2048 - nf) * 32) * s.params.thresh / s.params.fs)
    (x ≤ s.params.thresh → sweepTick s = ({ s with sweep := { s.sweep with counter := x } }, false)) ∧
    (1 ≤ k → k * s.params.thresh < x → x ≤ (k + 1) * s.params.thresh →
      (s.sweep.shift = 0 → s.sweep.period = 0 → sweepTick s = ({ s with sweep := fired }, false)) ∧
      (s.sweep.shift = 0 → s.sweep.period ≠ 0 → ∃ t, sweepTick s = (t, true) ∧ mirrorsOnly s t ∧
        t = { s with mem := t.mem, square1 := { s.square1 with enabled := false }, sweep := fired }) ∧
      (s.sweep.shift ≠ 0 → ∃ t killed, sweepTick s = (t, killed) ∧
        (killed = true ↔ ∃ j, 1 ≤ j ∧ j ≤ k ∧ 2047 < f j) ∧
        (killed = true → mirrorsOnly s t) ∧ (killed = false → t.mem = s.mem) ∧
        t = { s with
          mem := t.mem
          square1 := { s.square1 with
            enabled := s.square1.enabled && !killed
            frequency := BitVec.ofNat 16 (f k)
            frequencyIncrement := t.square1.frequencyIncrement }
          sweep := fired } ∧
        (∀ j, 1 ≤ j → j ≤ k → f j ≤ 2047 → (∀ h, j < h → h ≤ k → 2047 < f h) →
          t.square1.frequencyIncrement = inc (f j)) ∧
        ((∀ j, 1 ≤ j → j ≤ k → 2047 < f j) → t.square1.frequencyIncrement = s.square1.frequencyIncrement)))

/-- R170: the length span: the full block without length, the counter advanced while the length lasts, and the channel disabled
with the remaining steps where it ends in this span. -/
def Obligations.LengthSpanCases : Prop :=
  ∀ (i : Ch) (n : Nat) (s : State), memWf s.mem = true → (s.ch i).len.counter ≤ s.params.thresh →
    let c := s.ch i
    let k := (s.params.thresh - c.len.counter) / c.len.increment
    (c.len.enabled = false ∨ c.len.increment = 0 → lengthSpan i n s = (s, n)) ∧
    (c.len.enabled = true → c.len.increment ≠ 0 →
      (n < k → lengthSpan i n s =
        (s.setCh i { c with len := { c.len with counter := c.len.counter + n * c.len.increment } }, n)) ∧
      (k ≤ n → ∃ t, lengthSpan i n s = (t, k) ∧ mirrorsOnly s t ∧
        t.ch i = { c with enabled := false, len := { c.len with counter := 0 } } ∧ (∀ j, j ≠ i → t.ch j = s.ch j) ∧
        t = { s with mem := t.mem, square1 := t.square1, square2 := t.square2, wave := t.wave, noise := t.noise }))

/-- R171: how the steps are divided into sub-blocks does not move the end of a length: a span of m steps that does not end it,
then one of n, is one span of m + n. -/
def Obligations.LengthSpanSplits : Prop :=
  ∀ (i : Ch) (m n : Nat) (s : State), (s.ch i).len.enabled = true → (s.ch i).len.increment ≠ 0 →
    m < (s.params.thresh - (s.ch i).len.counter) / (s.ch i).len.increment →
    (lengthSpan i n (lengthSpan i m s).1).1 = (lengthSpan i (m + n) s).1 ∧
    m + (lengthSpan i n (lengthSpan i m s).1).2 = (lengthSpan i (m + n) s).2

/-! ### Synthesis (42_synthesis.md) -/

/-- R190, R191, R192: the increment each processed channel computes at the start of a sub-block; nothing else of the state changes. -/
def Obligations.ChannelIncrements : Prop :=
  ∀ s : State,
    let conv := fun x : Nat => x * s.params.thresh / s.params.fs
    let square := fun f : Nat => 8 * conv (4194304 / ((2048 - f) * 32))
    let r := s.noiseVoice.divisorCode.toNat
    recomputeIncrement .square1 s =
      { s with square1 := { s.square1 with frequencyIncrement := square s.square1.frequency.toNat } } ∧
    recomputeIncrement .square2 s =
      { s with square2 := { s.square2 with frequencyIncrement := square s.square2.frequency.toNat } } ∧
    recomputeIncrement .wave s =
      { s with wave := { s.wave with frequencyIncrement := 32 * conv (65536 / (2048 - s.wave.frequency.toNat)) } } ∧
    recomputeIncrement .noise s =
      { s with noise := { s.noise with
        frequencyIncrement := conv (4194304 / ((if r = 0 then 8 else 16 * r) * 2 ^ s.noise.frequency.toNat)) } }

/-- R194 (5): a step without a crossing returns the held level and only moves the accumulator. -/
def Obligations.PhaseStepWithoutCrossing : Prop :=
  ∀ (α : Type) (thresh inc : Nat) (advance : α → Int → α × Int) (counter : Nat) (level : Int) (voice : α),
    counter + inc ≤ thresh →
    let r := phaseStep thresh inc advance counter level voice
    r.mean = level ∧ r.counter = counter + inc ∧ r.level = level ∧ r.voice = voice

/-- R193, R194 (2) and (4): a step has one crossing for every j >= 1 with j * `P_THRESH` - c0 below the increment, at that position;
the accumulator ends at most at the threshold. Its mean weights each level with the length it is held, the old one up to its
crossing and the last one to the end of the step, and divides by the increment with truncation. -/
def Obligations.PhaseStepCrossings : Prop :=
  ∀ (α : Type) (thresh inc : Nat) (advance : α → Int → α × Int) (counter : Nat) (level : Int) (voice : α) (k : Nat),
    1 ≤ thresh → 1 ≤ inc → counter ≤ thresh → k * thresh < counter + inc → counter + inc ≤ (k + 1) * thresh →
    let r := phaseStep thresh inc advance counter level voice
    let edge := fun j : Nat => if j = 0 then 0 else if j ≤ k then (j : Int) * thresh - counter else (inc : Int)
    (r.voice, r.level) = advanced advance voice level k ∧ r.counter = counter + inc - k * thresh ∧ r.counter ≤ thresh ∧
    r.mean = Int.tdiv (∑ j ∈ Finset.range (k + 1), (edge (j + 1) - edge j) * (advanced advance voice level j).2) inc

/-- R194 (3): the mean lies between the least and the greatest level held during the step. Held are the level before the step,
unless a crossing stands at position 0 (a counter at the threshold), and the level of each crossing of the step (R194 (2)); with
increment 0 the level is held throughout (R193). -/
def Obligations.PhaseMeanWithinLevels : Prop :=
  ∀ (α : Type) (thresh inc : Nat) (advance : α → Int → α × Int) (counter : Nat) (level : Int) (voice : α) (lo hi : Int),
    1 ≤ thresh → counter ≤ thresh →
    (counter < thresh ∨ inc = 0 → lo ≤ level ∧ level ≤ hi) →
    (∀ j, 1 ≤ j → j * thresh < counter + inc →
      lo ≤ (advanced advance voice level j).2 ∧ (advanced advance voice level j).2 ≤ hi) →
    lo ≤ (phaseStep thresh inc advance counter level voice).mean ∧
    (phaseStep thresh inc advance counter level voice).mean ≤ hi

/-- R197, R86: the duty step advances modulo 8 and the level is +`P_LVL` exactly where that bit of the pattern is 1. -/
def Obligations.SquareAdvanceFollowsDuty : Prop :=
  ∀ (p : Params) (d : SquareVoice) (level : Int),
    let r := squareAdvance p d level
    r.1.dutyPattern = d.dutyPattern ∧ r.1.dutyStep.toNat = (d.dutyStep.toNat + 1) % 8 ∧
    r.2 = if d.dutyPattern.toNat / 2 ^ ((d.dutyStep.toNat + 1) % 8) % 2 = 1 then (p.lvl : Int) else -(p.lvl : Int)

/-- R203, R65, R205: the wave position advances modulo 32 before the fetch; an even position is its byte's high nibble, an odd one
the low nibble; code 0 is silence, codes 1, 2, 3 shift right by 0, 1, 2 and centre by 8. -/
def Obligations.WaveAdvanceFetchesNibble : Prop :=
  ∀ (m : List Host.Cell) (code : BitVec 4) (position : BitVec 5) (level : Int), code.toNat ≤ 3 →
    let n := (position.toNat + 1) % 32
    let byte := (memRead m (0xFF30 + n / 2)).toNat
    let nib := if n % 2 = 0 then byte / 16 else byte % 16
    let r := waveAdvance m code position level
    r.1.toNat = n ∧
    r.2 = if code = 0 then 0 else ((nib / 2 ^ (code.toNat - 1) : Nat) : Int) - 8

/-- R210, R211: one noise crossing shifts the LFSR left, the bit of the previous level entering at bit 0, and its level is +`P_LVL`
exactly where the two taps of the shifted register are equal, else -`P_LVL`. So the output bits satisfy the delayed-feedback
recurrence of each width, from every state. -/
def Obligations.NoiseRecurrence : Prop :=
  (∀ (p : Params) (v : NoiseVoice) (level : Int),
    let r := noiseAdvance p v level
    let n := r.1.lfsr.toNat
    n = (2 * v.lfsr.toNat + if 0 < level then 1 else 0) % 65536 ∧
    r.1.widthMode = v.widthMode ∧ r.1.divisorCode = v.divisorCode ∧
    (v.widthMode = .wide → r.2 = if n / 2 ^ 14 % 2 = n / 2 ^ 13 % 2 then (p.lvl : Int) else -(p.lvl : Int)) ∧
    (v.widthMode = .narrow → r.2 = if n / 2 ^ 6 % 2 = n / 2 ^ 5 % 2 then (p.lvl : Int) else -(p.lvl : Int))) ∧
  (∀ (p : Params) (v : NoiseVoice) (level : Int) (n : Nat), 1 ≤ p.lvl →
    (v.widthMode = .wide → noiseBit p v level (n + 15) = (noiseBit p v level (n + 1) == noiseBit p v level n)) ∧
    (v.widthMode = .narrow → noiseBit p v level (n + 7) = (noiseBit p v level (n + 1) == noiseBit p v level n)))

/-- R211: from the trigger seed (R153) the narrow sequence has the least period 127 and the wide one the least period 32767. -/
def Obligations.NoisePeriods : Prop :=
  ∀ (p : Params) (r : BitVec 3), 1 ≤ p.lvl →
    let narrow := noiseBit p { lfsr := 0xFFFF, widthMode := .narrow, divisorCode := r } (-(p.lvl : Int))
    let wide := noiseBit p { lfsr := 0xFFFF, widthMode := .wide, divisorCode := r } (-(p.lvl : Int))
    (∀ n, narrow (n + 127) = narrow n) ∧ (∀ d, 0 < d → d < 127 → ∃ n, narrow (n + d) ≠ narrow n) ∧
    (∀ n, wide (n + 32767) = wide n) ∧ (∀ d, 0 < d → d < 32767 → ∃ n, wide (n + d) ≠ wide n)

/-! ### The driver (43_mixer_driver.md) -/

/-- R230 corner case 1: with the host disabled or locked, `generate` returns false and changes nothing. -/
def Obligations.GenerateBlocked : Prop :=
  ∀ (s : State) (n : BitVec 24), (s.hostEnable = false ∨ s.hostLocked = true) →
    exec (.gen n) s = .next { s with returned := .produced false }

/-- R230 corner cases 2 and 3, D46: with every channel disabled (as with master power off) `generate` writes N zero slots to each
buffer, returns true and changes nothing else; N = 0 writes none. -/
def Obligations.GenerateSilence : Prop :=
  ∀ (s : State) (n : BitVec 24), s.params.wf → s.hostEnable = true → s.hostLocked = false →
    (∀ i, (s.ch i).enabled = false) →
    exec (.gen n) s = .next { s with
      outL := List.replicate n.toNat 0 ++ s.outL.drop n.toNat
      outR := List.replicate n.toNat 0 ++ s.outR.drop n.toNat
      returned := .produced true }

/-- R230, R236, R21: enabled and not locked, `generate` completes and returns true; it overwrites every slot 0..N-1 of both buffers
and reads none: whatever the buffers held before, the same N slots result, every slot from N on is kept, and the rest of the state
is the same. It changes no other state but what `generateKept` leaves open. -/
def Obligations.GenerateFrame : Prop :=
  ∀ (s : State) (n : BitVec 24), s.params.wf → memWf s.mem = true → s.hostEnable = true → s.hostLocked = false →
    ∃ t, exec (.gen n) s = .next t ∧ t.returned = .produced true ∧ generateKept s t ∧ s.draws ≤ t.draws ∧
      n.toNat ≤ t.outL.length ∧ n.toNat ≤ t.outR.length ∧
      ∀ l r : List Slot, exec (.gen n) { s with outL := l, outR := r } = .next { t with
        outL := t.outL.take n.toNat ++ l.drop n.toNat
        outR := t.outR.take n.toNat ++ r.drop n.toNat }

/-- R233 corner case 1, R274: a channel that is not enabled or not powered keeps its whole record and its own fields over
`generate`: no timer and no phase of it moves. -/
def Obligations.UnprocessedChannelIsFrozen : Prop :=
  ∀ (s : State) (n : BitVec 24) (i : Ch), ((s.ch i).enabled = false ∨ (s.ch i).powered = false) →
    ∃ t, exec (.gen n) s = .next t ∧ t.ch i = s.ch i ∧
      (i = .square1 → t.sweep = s.sweep ∧ t.duty1 = s.duty1) ∧ (i = .square2 → t.duty2 = s.duty2) ∧
      (i = .wave → t.samplePosition = s.samplePosition) ∧ (i = .noise → t.noiseVoice = s.noiseVoice)

/-- R213, R265: the two guards of the noise channel. With a shift code of 14 or 15 `generate` disables it and NR52 mirrors that, so
its bit 3 is 0; with a lower shift code and an increment below `P_NOISE_MIN_INC` the channel stays enabled. Either way no length,
envelope or phase of it runs: of its record only the recomputed increment is new. -/
def Obligations.NoiseSilenceRegion : Prop :=
  ∀ (s : State) (n : BitVec 24), s.params.wf → memWf s.mem = true → s.hostEnable = true → s.hostLocked = false → n ≠ 0 →
    s.noise.enabled = true → s.noise.powered = true →
    let r := s.noiseVoice.divisorCode.toNat
    let inc := 4194304 / ((if r = 0 then 8 else 16 * r) * 2 ^ s.noise.frequency.toNat) * s.params.thresh / s.params.fs
    (14 ≤ s.noise.frequency.toNat → ∃ t, exec (.gen n) s = .next t ∧ t.noiseVoice = s.noiseVoice ∧
      t.noise = { s.noise with enabled := false, frequencyIncrement := inc } ∧ mirrors s t ∧
      (t.reg 0xFF26).getLsbD 3 = false) ∧
    (s.noise.frequency.toNat < 14 → inc < s.params.noiseMinInc → ∃ t, exec (.gen n) s = .next t ∧
      t.noiseVoice = s.noiseVoice ∧ t.noise = { s.noise with frequencyIncrement := inc })

/-- R233, R235, R200, R206, R212: what a channel adds to a sub-block.
On one side, each of a channel's values is scaled by the master volume, divided with truncation and added to its own true sample
when the pan bit is set; the other true samples stay.
A generation step of a square channel is the envelope tick, for Square1 then the sweep tick (no value where it stops the channel),
then the phase step, whose mean is scaled by the volume after the tick; of noise the envelope tick and the phase step; of wave the
phase step alone, its mean scaled by `P_WAVE_GAIN`.
The guards pass for every square and wave channel; for noise they disable it from shift code 14 on, refuse an increment below
`P_NOISE_MIN_INC`, and pass otherwise.
A channel that is not enabled or not powered leaves the block, its state and true samples, as it is.
An enabled and powered channel recomputes its increment, passes the guards (R213) or adds nothing, and plays the first steps of
its length span, as long as they give a value: left with `on_left` and the left master volume, right with `on_right` and the right
one. -/
def Obligations.MixAddsScaledValues : Prop :=
  (∀ (on : Bool) (volume : BitVec 3) (d : Nat) (ms acc : List Int), ms.length ≤ acc.length →
    (mixSide on volume d ms acc).length = acc.length ∧
    ∀ g, g < acc.length → (mixSide on volume d ms acc).getD g 0 = acc.getD g 0 +
      if on = true ∧ g < ms.length then Int.tdiv (ms.getD g 0 * volume.toNat) d else 0) ∧
  (∀ s : State,
    let sw := sweepTick { s with square1 := envTickChannel s.params.thresh s.square1 }
    let c1 := sw.1.square1
    let p1 := phaseStep s.params.thresh c1.frequencyIncrement (squareAdvance s.params) c1.frequencyCounter c1.currentLevel
      s.duty1
    let c2 := envTickChannel s.params.thresh s.square2
    let p2 := phaseStep s.params.thresh c2.frequencyIncrement (squareAdvance s.params) c2.frequencyCounter c2.currentLevel
      s.duty2
    let pw := phaseStep s.params.thresh s.wave.frequencyIncrement (waveAdvance s.mem s.wave.volume) s.wave.frequencyCounter
      s.wave.currentLevel s.samplePosition
    let cn := envTickChannel s.params.thresh s.noise
    let pn := phaseStep s.params.thresh cn.frequencyIncrement (noiseAdvance s.params) cn.frequencyCounter cn.currentLevel
      s.noiseVoice
    (sw.2 = true → channelStep .square1 s = (sw.1, none)) ∧
    (sw.2 = false → channelStep .square1 s =
      ({ sw.1 with square1 := { c1 with frequencyCounter := p1.counter, currentLevel := p1.level }, duty1 := p1.voice },
        some (p1.mean * c1.volume.toNat))) ∧
    channelStep .square2 s =
      ({ s with square2 := { c2 with frequencyCounter := p2.counter, currentLevel := p2.level }, duty2 := p2.voice },
        some (p2.mean * c2.volume.toNat)) ∧
    channelStep .wave s =
      ({ s with wave := { s.wave with frequencyCounter := pw.counter, currentLevel := pw.level }, samplePosition := pw.voice },
        some (pw.mean * s.params.waveGain)) ∧
    channelStep .noise s =
      ({ s with noise := { cn with frequencyCounter := pn.counter, currentLevel := pn.level }, noiseVoice := pn.voice },
        some (pn.mean * cn.volume.toNat))) ∧
  (∀ u : State,
    channelGuards .square1 u = (u, true) ∧ channelGuards .square2 u = (u, true) ∧ channelGuards .wave u = (u, true) ∧
    (14 ≤ u.noise.frequency.toNat → channelGuards .noise u = (chanDisable .noise u, false)) ∧
    (u.noise.frequency.toNat < 14 → u.noise.frequencyIncrement < u.params.noiseMinInc →
      channelGuards .noise u = (u, false)) ∧
    (u.noise.frequency.toNat < 14 → u.params.noiseMinInc ≤ u.noise.frequencyIncrement →
      channelGuards .noise u = (u, true))) ∧
  (∀ (i : Ch) (n : Nat) (b : Block), (b.st.ch i).enabled = false ∨ (b.st.ch i).powered = false →
    processChannel i n b = b) ∧
  (∀ (i : Ch) (n : Nat) (b : Block), (b.st.ch i).enabled = true → (b.st.ch i).powered = true →
    b.left.length = n → b.right.length = n →
    let s := b.st
    let guard := channelGuards i (recomputeIncrement i s)
    let span := lengthSpan i n guard.1
    let c := processChannel i n b
    (guard.2 = false → c = { b with st := guard.1 }) ∧
    (guard.2 = true →
      (∃ m, m ≤ span.2 ∧ c.st = stateAt i span.1 m ∧ (∀ h, h + 1 < m → (valueAt i span.1 h).isSome = true) ∧
        (m < span.2 → ∃ h, m = h + 1 ∧ valueAt i span.1 h = none)) ∧
      c.left.length = n ∧ c.right.length = n ∧
      ∀ g, g < n →
        c.left.getD g 0 = b.left.getD g 0 +
          (if (s.ch i).onLeft = true ∧ g < span.2 ∧ playsThrough i span.1 g = true then
            Int.tdiv ((valueAt i span.1 g).getD 0 * s.volumeLeft.toNat) s.params.mixDiv else 0) ∧
        c.right.getD g 0 = b.right.getD g 0 +
          (if (s.ch i).onRight = true ∧ g < span.2 ∧ playsThrough i span.1 g = true then
            Int.tdiv ((valueAt i span.1 g).getD 0 * s.volumeRight.toNat) s.params.mixDiv else 0)))

/-- R237: a true sample inside the 16-bit range is the slot's value and takes no draw; one outside it takes one draw, and the slot
holds that draw's free value (log 5). -/
def Obligations.SlotHoldsSampleOrDraw : Prop :=
  ∀ (v : Int) (draws : Nat),
    (-32768 ≤ v → v ≤ 32767 → (storeSlot v draws).1.toInt = v ∧ (storeSlot v draws).2 = draws) ∧
    (v < -32768 ∨ 32767 < v → storeSlot v draws = (Config.freeSlot draws, draws + 1))

/-- R230 to R232, R236, R237: enabled and not locked, `generate` is its sub-blocks: of `P_SUB * P_R` slots each, the last of what
remains, run in order from slot 0. A sub-block of `size` slots from slot `j` runs Wave, Square1, Square2 and Noise in this order,
each for the same ceil(size / `P_R`) steps from true samples 0, and changes nothing but that and the slots `j` to `j + size - 1`:
they hold the true samples, `P_R` slots to each, and a free value where a true sample is outside the 16-bit range (log 5). -/
def Obligations.SubBlockStoresTrueSamples : Prop :=
  (∀ (s : State) (n : BitVec 24), s.params.wf → s.hostEnable = true → s.hostLocked = false →
    let full := s.params.sub * s.params.r
    exec (.gen n) s = .next { (List.range ((n.toNat + full - 1) / full)).foldl
      (fun t i => subBlock (i * full) (min (n.toNat - i * full) full) t) s with returned := .produced true }) ∧
  (∀ (s : State) (j size : Nat), s.params.wf → j ≤ s.outL.length → j ≤ s.outR.length →
    let n := (size + s.params.r - 1) / s.params.r
    let b := processChannel .noise n (processChannel .square2 n (processChannel .square1 n (processChannel .wave n
      { st := s, left := List.replicate n 0, right := List.replicate n 0 })))
    let t := subBlock j size s
    t = { b.st with outL := t.outL, outR := t.outR, draws := t.draws } ∧
    (∀ q, q < j ∨ j + size ≤ q → t.outL[q]? = s.outL[q]? ∧ t.outR[q]? = s.outR[q]?) ∧
    ∀ q, q < size →
      let l := b.left.getD (q / s.params.r) 0
      let r := b.right.getD (q / s.params.r) 0
      (-32768 ≤ l → l ≤ 32767 → ∃ x, t.outL[j + q]? = some x ∧ x.toInt = l) ∧
      (-32768 ≤ r → r ≤ 32767 → ∃ x, t.outR[j + q]? = some x ∧ x.toInt = r) ∧
      (l < -32768 ∨ 32767 < l → ∃ d, s.draws ≤ d ∧ d < t.draws ∧ t.outL[j + q]? = some (Config.freeSlot d)) ∧
      (r < -32768 ∨ 32767 < r → ∃ d, s.draws ≤ d ∧ d < t.draws ∧ t.outR[j + q]? = some (Config.freeSlot d)))

/-- R236: where no slot took a free value, the `P_R` slots of every group hold one true sample, across the sub-blocks. -/
def Obligations.ReplicationGroups : Prop :=
  ∀ (s t : State) (n : BitVec 24) (q : Nat), s.params.wf → s.hostEnable = true → s.hostLocked = false →
    exec (.gen n) s = .next t → t.draws = s.draws → q < n.toNat →
    t.outL[q]? = t.outL[q / s.params.r * s.params.r]? ∧ t.outR[q]? = t.outR[q / s.params.r * s.params.r]?

/-- R244, R245: the two switches take the value given and change nothing else, and a disabled or locked block produces nothing and
does not move. -/
def Obligations.SwitchesGateGenerate : Prop :=
  ∀ (s : State) (b : Bool) (n : BitVec 24),
    (∃ t, exec (.ctlEnable b) s = .next t ∧ t = { s with hostEnable := b } ∧
      (b = false → exec (.gen n) t = .next { t with returned := .produced false })) ∧
    (∃ t, exec (.ctlLock b) s = .next t ∧ t = { s with hostLocked := b } ∧
      (b = true → exec (.gen n) t = .next { t with returned := .produced false }))

/-! ### The invariant (R39 to R41) -/

/-- The invariant holds at reset. The parameters it holds of are the model's choice (log 2). -/
def Obligations.InvariantAtReset : Prop :=
  Invariant State.reset

/-- R39, R40, R41, R170, R194 (4): every step from every state that meets the invariant leads to a state that meets it. -/
def Obligations.StepKeepsInvariant : Prop :=
  ∀ s t : State, Invariant s → step s = .next t → Invariant t
end

