-- ==== Sys2Proof/Laws/State.lean ====
section
/-! SUPPORT. What each update of the state leaves: one lemma for each field and update, for the simplifier. -/

namespace Sys2Proof.Machine

/-! ### `setReg` and `clearRegs` change the register window only -/

@[simp] theorem State.setReg_params (s : State) (a : Nat) (v : Byte) : (s.setReg a v).params = s.params := rfl
@[simp] theorem State.setReg_square1 (s : State) (a : Nat) (v : Byte) : (s.setReg a v).square1 = s.square1 := rfl
@[simp] theorem State.setReg_square2 (s : State) (a : Nat) (v : Byte) : (s.setReg a v).square2 = s.square2 := rfl
@[simp] theorem State.setReg_wave (s : State) (a : Nat) (v : Byte) : (s.setReg a v).wave = s.wave := rfl
@[simp] theorem State.setReg_noise (s : State) (a : Nat) (v : Byte) : (s.setReg a v).noise = s.noise := rfl
@[simp] theorem State.setReg_duty1 (s : State) (a : Nat) (v : Byte) : (s.setReg a v).duty1 = s.duty1 := rfl
@[simp] theorem State.setReg_duty2 (s : State) (a : Nat) (v : Byte) : (s.setReg a v).duty2 = s.duty2 := rfl
@[simp] theorem State.setReg_samplePosition (s : State) (a : Nat) (v : Byte) : (s.setReg a v).samplePosition = s.samplePosition := rfl
@[simp] theorem State.setReg_noiseVoice (s : State) (a : Nat) (v : Byte) : (s.setReg a v).noiseVoice = s.noiseVoice := rfl
@[simp] theorem State.setReg_sweep (s : State) (a : Nat) (v : Byte) : (s.setReg a v).sweep = s.sweep := rfl
@[simp] theorem State.setReg_volumeLeft (s : State) (a : Nat) (v : Byte) : (s.setReg a v).volumeLeft = s.volumeLeft := rfl
@[simp] theorem State.setReg_volumeRight (s : State) (a : Nat) (v : Byte) : (s.setReg a v).volumeRight = s.volumeRight := rfl
@[simp] theorem State.setReg_hostEnable (s : State) (a : Nat) (v : Byte) : (s.setReg a v).hostEnable = s.hostEnable := rfl
@[simp] theorem State.setReg_hostLocked (s : State) (a : Nat) (v : Byte) : (s.setReg a v).hostLocked = s.hostLocked := rfl
@[simp] theorem State.setReg_marks (s : State) (a : Nat) (v : Byte) : (s.setReg a v).marks = s.marks := rfl
@[simp] theorem State.setReg_returned (s : State) (a : Nat) (v : Byte) : (s.setReg a v).returned = s.returned := rfl
@[simp] theorem State.setReg_outL (s : State) (a : Nat) (v : Byte) : (s.setReg a v).outL = s.outL := rfl
@[simp] theorem State.setReg_outR (s : State) (a : Nat) (v : Byte) : (s.setReg a v).outR = s.outR := rfl
@[simp] theorem State.setReg_draws (s : State) (a : Nat) (v : Byte) : (s.setReg a v).draws = s.draws := rfl
@[simp] theorem State.setReg_inbox (s : State) (a : Nat) (v : Byte) : (s.setReg a v).inbox = s.inbox := rfl
@[simp] theorem State.setReg_ch (s : State) (a : Nat) (v : Byte) (i : Ch) : (s.setReg a v).ch i = s.ch i := by
  cases i <;> rfl

theorem State.clearRegs_eq (n : Nat) (s : State) (a : Nat) : s.clearRegs a n = { s with mem := (s.clearRegs a n).mem } := by
  induction n generalizing s a with
  | zero => rfl
  | succ n ih => exact ih (s.setReg a 0) (a + 1)

@[simp] theorem State.clearRegs_params (s : State) (a n : Nat) : (s.clearRegs a n).params = s.params := by
  rw [State.clearRegs_eq]
@[simp] theorem State.clearRegs_square1 (s : State) (a n : Nat) : (s.clearRegs a n).square1 = s.square1 := by
  rw [State.clearRegs_eq]
@[simp] theorem State.clearRegs_square2 (s : State) (a n : Nat) : (s.clearRegs a n).square2 = s.square2 := by
  rw [State.clearRegs_eq]
@[simp] theorem State.clearRegs_wave (s : State) (a n : Nat) : (s.clearRegs a n).wave = s.wave := by
  rw [State.clearRegs_eq]
@[simp] theorem State.clearRegs_noise (s : State) (a n : Nat) : (s.clearRegs a n).noise = s.noise := by
  rw [State.clearRegs_eq]
@[simp] theorem State.clearRegs_duty1 (s : State) (a n : Nat) : (s.clearRegs a n).duty1 = s.duty1 := by
  rw [State.clearRegs_eq]
@[simp] theorem State.clearRegs_duty2 (s : State) (a n : Nat) : (s.clearRegs a n).duty2 = s.duty2 := by
  rw [State.clearRegs_eq]
@[simp] theorem State.clearRegs_samplePosition (s : State) (a n : Nat) : (s.clearRegs a n).samplePosition = s.samplePosition := by
  rw [State.clearRegs_eq]
@[simp] theorem State.clearRegs_noiseVoice (s : State) (a n : Nat) : (s.clearRegs a n).noiseVoice = s.noiseVoice := by
  rw [State.clearRegs_eq]
@[simp] theorem State.clearRegs_sweep (s : State) (a n : Nat) : (s.clearRegs a n).sweep = s.sweep := by
  rw [State.clearRegs_eq]
@[simp] theorem State.clearRegs_volumeLeft (s : State) (a n : Nat) : (s.clearRegs a n).volumeLeft = s.volumeLeft := by
  rw [State.clearRegs_eq]
@[simp] theorem State.clearRegs_volumeRight (s : State) (a n : Nat) : (s.clearRegs a n).volumeRight = s.volumeRight := by
  rw [State.clearRegs_eq]
@[simp] theorem State.clearRegs_hostEnable (s : State) (a n : Nat) : (s.clearRegs a n).hostEnable = s.hostEnable := by
  rw [State.clearRegs_eq]
@[simp] theorem State.clearRegs_hostLocked (s : State) (a n : Nat) : (s.clearRegs a n).hostLocked = s.hostLocked := by
  rw [State.clearRegs_eq]
@[simp] theorem State.clearRegs_marks (s : State) (a n : Nat) : (s.clearRegs a n).marks = s.marks := by
  rw [State.clearRegs_eq]
@[simp] theorem State.clearRegs_returned (s : State) (a n : Nat) : (s.clearRegs a n).returned = s.returned := by
  rw [State.clearRegs_eq]
@[simp] theorem State.clearRegs_outL (s : State) (a n : Nat) : (s.clearRegs a n).outL = s.outL := by
  rw [State.clearRegs_eq]
@[simp] theorem State.clearRegs_outR (s : State) (a n : Nat) : (s.clearRegs a n).outR = s.outR := by
  rw [State.clearRegs_eq]
@[simp] theorem State.clearRegs_draws (s : State) (a n : Nat) : (s.clearRegs a n).draws = s.draws := by
  rw [State.clearRegs_eq]
@[simp] theorem State.clearRegs_inbox (s : State) (a n : Nat) : (s.clearRegs a n).inbox = s.inbox := by
  rw [State.clearRegs_eq]

/-! ### `setCh` and `modCh` change one channel's record only -/

@[simp] theorem State.ch_square1 (s : State) : s.ch .square1 = s.square1 := rfl
@[simp] theorem State.ch_square2 (s : State) : s.ch .square2 = s.square2 := rfl
@[simp] theorem State.ch_wave (s : State) : s.ch .wave = s.wave := rfl
@[simp] theorem State.ch_noise (s : State) : s.ch .noise = s.noise := rfl

theorem State.ch_setCh_same (s : State) (i : Ch) (c : Channel) : (s.setCh i c).ch i = c := by
  cases i <;> rfl

theorem State.ch_setCh_ne (s : State) {i j : Ch} (c : Channel) (h : j ≠ i) : (s.setCh i c).ch j = s.ch j := by
  cases i <;> cases j <;> first | rfl | exact absurd rfl h

theorem State.ch_modCh_same (s : State) (i : Ch) (f : Channel → Channel) : (s.modCh i f).ch i = f (s.ch i) :=
  State.ch_setCh_same s i _

theorem State.ch_modCh_ne (s : State) {i j : Ch} (f : Channel → Channel) (h : j ≠ i) : (s.modCh i f).ch j = s.ch j :=
  State.ch_setCh_ne s _ h

@[simp] theorem State.setCh_params (s : State) (i : Ch) (c : Channel) : (s.setCh i c).params = s.params := by
  cases i <;> rfl
@[simp] theorem State.setCh_mem (s : State) (i : Ch) (c : Channel) : (s.setCh i c).mem = s.mem := by
  cases i <;> rfl
@[simp] theorem State.setCh_duty1 (s : State) (i : Ch) (c : Channel) : (s.setCh i c).duty1 = s.duty1 := by
  cases i <;> rfl
@[simp] theorem State.setCh_duty2 (s : State) (i : Ch) (c : Channel) : (s.setCh i c).duty2 = s.duty2 := by
  cases i <;> rfl
@[simp] theorem State.setCh_samplePosition (s : State) (i : Ch) (c : Channel) : (s.setCh i c).samplePosition = s.samplePosition := by
  cases i <;> rfl
@[simp] theorem State.setCh_noiseVoice (s : State) (i : Ch) (c : Channel) : (s.setCh i c).noiseVoice = s.noiseVoice := by
  cases i <;> rfl
@[simp] theorem State.setCh_sweep (s : State) (i : Ch) (c : Channel) : (s.setCh i c).sweep = s.sweep := by
  cases i <;> rfl
@[simp] theorem State.setCh_volumeLeft (s : State) (i : Ch) (c : Channel) : (s.setCh i c).volumeLeft = s.volumeLeft := by
  cases i <;> rfl
@[simp] theorem State.setCh_volumeRight (s : State) (i : Ch) (c : Channel) : (s.setCh i c).volumeRight = s.volumeRight := by
  cases i <;> rfl
@[simp] theorem State.setCh_hostEnable (s : State) (i : Ch) (c : Channel) : (s.setCh i c).hostEnable = s.hostEnable := by
  cases i <;> rfl
@[simp] theorem State.setCh_hostLocked (s : State) (i : Ch) (c : Channel) : (s.setCh i c).hostLocked = s.hostLocked := by
  cases i <;> rfl
@[simp] theorem State.setCh_marks (s : State) (i : Ch) (c : Channel) : (s.setCh i c).marks = s.marks := by
  cases i <;> rfl
@[simp] theorem State.setCh_returned (s : State) (i : Ch) (c : Channel) : (s.setCh i c).returned = s.returned := by
  cases i <;> rfl
@[simp] theorem State.setCh_outL (s : State) (i : Ch) (c : Channel) : (s.setCh i c).outL = s.outL := by
  cases i <;> rfl
@[simp] theorem State.setCh_outR (s : State) (i : Ch) (c : Channel) : (s.setCh i c).outR = s.outR := by
  cases i <;> rfl
@[simp] theorem State.setCh_draws (s : State) (i : Ch) (c : Channel) : (s.setCh i c).draws = s.draws := by
  cases i <;> rfl
@[simp] theorem State.setCh_inbox (s : State) (i : Ch) (c : Channel) : (s.setCh i c).inbox = s.inbox := by
  cases i <;> rfl
@[simp] theorem State.setCh_square1_square1 (s : State) (c : Channel) : (s.setCh .square1 c).square1 = c := rfl
@[simp] theorem State.setCh_square1_square2 (s : State) (c : Channel) : (s.setCh .square1 c).square2 = s.square2 := rfl
@[simp] theorem State.setCh_square1_wave (s : State) (c : Channel) : (s.setCh .square1 c).wave = s.wave := rfl
@[simp] theorem State.setCh_square1_noise (s : State) (c : Channel) : (s.setCh .square1 c).noise = s.noise := rfl
@[simp] theorem State.setCh_square2_square1 (s : State) (c : Channel) : (s.setCh .square2 c).square1 = s.square1 := rfl
@[simp] theorem State.setCh_square2_square2 (s : State) (c : Channel) : (s.setCh .square2 c).square2 = c := rfl
@[simp] theorem State.setCh_square2_wave (s : State) (c : Channel) : (s.setCh .square2 c).wave = s.wave := rfl
@[simp] theorem State.setCh_square2_noise (s : State) (c : Channel) : (s.setCh .square2 c).noise = s.noise := rfl
@[simp] theorem State.setCh_wave_square1 (s : State) (c : Channel) : (s.setCh .wave c).square1 = s.square1 := rfl
@[simp] theorem State.setCh_wave_square2 (s : State) (c : Channel) : (s.setCh .wave c).square2 = s.square2 := rfl
@[simp] theorem State.setCh_wave_wave (s : State) (c : Channel) : (s.setCh .wave c).wave = c := rfl
@[simp] theorem State.setCh_wave_noise (s : State) (c : Channel) : (s.setCh .wave c).noise = s.noise := rfl
@[simp] theorem State.setCh_noise_square1 (s : State) (c : Channel) : (s.setCh .noise c).square1 = s.square1 := rfl
@[simp] theorem State.setCh_noise_square2 (s : State) (c : Channel) : (s.setCh .noise c).square2 = s.square2 := rfl
@[simp] theorem State.setCh_noise_wave (s : State) (c : Channel) : (s.setCh .noise c).wave = s.wave := rfl
@[simp] theorem State.setCh_noise_noise (s : State) (c : Channel) : (s.setCh .noise c).noise = c := rfl

@[simp] theorem State.modCh_params (s : State) (i : Ch) (f : Channel → Channel) : (s.modCh i f).params = s.params := by
  cases i <;> rfl
@[simp] theorem State.modCh_mem (s : State) (i : Ch) (f : Channel → Channel) : (s.modCh i f).mem = s.mem := by
  cases i <;> rfl
@[simp] theorem State.modCh_duty1 (s : State) (i : Ch) (f : Channel → Channel) : (s.modCh i f).duty1 = s.duty1 := by
  cases i <;> rfl
@[simp] theorem State.modCh_duty2 (s : State) (i : Ch) (f : Channel → Channel) : (s.modCh i f).duty2 = s.duty2 := by
  cases i <;> rfl
@[simp] theorem State.modCh_samplePosition (s : State) (i : Ch) (f : Channel → Channel) : (s.modCh i f).samplePosition = s.samplePosition := by
  cases i <;> rfl
@[simp] theorem State.modCh_noiseVoice (s : State) (i : Ch) (f : Channel → Channel) : (s.modCh i f).noiseVoice = s.noiseVoice := by
  cases i <;> rfl
@[simp] theorem State.modCh_sweep (s : State) (i : Ch) (f : Channel → Channel) : (s.modCh i f).sweep = s.sweep := by
  cases i <;> rfl
@[simp] theorem State.modCh_volumeLeft (s : State) (i : Ch) (f : Channel → Channel) : (s.modCh i f).volumeLeft = s.volumeLeft := by
  cases i <;> rfl
@[simp] theorem State.modCh_volumeRight (s : State) (i : Ch) (f : Channel → Channel) : (s.modCh i f).volumeRight = s.volumeRight := by
  cases i <;> rfl
@[simp] theorem State.modCh_hostEnable (s : State) (i : Ch) (f : Channel → Channel) : (s.modCh i f).hostEnable = s.hostEnable := by
  cases i <;> rfl
@[simp] theorem State.modCh_hostLocked (s : State) (i : Ch) (f : Channel → Channel) : (s.modCh i f).hostLocked = s.hostLocked := by
  cases i <;> rfl
@[simp] theorem State.modCh_marks (s : State) (i : Ch) (f : Channel → Channel) : (s.modCh i f).marks = s.marks := by
  cases i <;> rfl
@[simp] theorem State.modCh_returned (s : State) (i : Ch) (f : Channel → Channel) : (s.modCh i f).returned = s.returned := by
  cases i <;> rfl
@[simp] theorem State.modCh_outL (s : State) (i : Ch) (f : Channel → Channel) : (s.modCh i f).outL = s.outL := by
  cases i <;> rfl
@[simp] theorem State.modCh_outR (s : State) (i : Ch) (f : Channel → Channel) : (s.modCh i f).outR = s.outR := by
  cases i <;> rfl
@[simp] theorem State.modCh_draws (s : State) (i : Ch) (f : Channel → Channel) : (s.modCh i f).draws = s.draws := by
  cases i <;> rfl
@[simp] theorem State.modCh_inbox (s : State) (i : Ch) (f : Channel → Channel) : (s.modCh i f).inbox = s.inbox := by
  cases i <;> rfl
@[simp] theorem State.modCh_square1_square1 (s : State) (f : Channel → Channel) : (s.modCh .square1 f).square1 = f s.square1 := rfl
@[simp] theorem State.modCh_square1_square2 (s : State) (f : Channel → Channel) : (s.modCh .square1 f).square2 = s.square2 := rfl
@[simp] theorem State.modCh_square1_wave (s : State) (f : Channel → Channel) : (s.modCh .square1 f).wave = s.wave := rfl
@[simp] theorem State.modCh_square1_noise (s : State) (f : Channel → Channel) : (s.modCh .square1 f).noise = s.noise := rfl
@[simp] theorem State.modCh_square2_square1 (s : State) (f : Channel → Channel) : (s.modCh .square2 f).square1 = s.square1 := rfl
@[simp] theorem State.modCh_square2_square2 (s : State) (f : Channel → Channel) : (s.modCh .square2 f).square2 = f s.square2 := rfl
@[simp] theorem State.modCh_square2_wave (s : State) (f : Channel → Channel) : (s.modCh .square2 f).wave = s.wave := rfl
@[simp] theorem State.modCh_square2_noise (s : State) (f : Channel → Channel) : (s.modCh .square2 f).noise = s.noise := rfl
@[simp] theorem State.modCh_wave_square1 (s : State) (f : Channel → Channel) : (s.modCh .wave f).square1 = s.square1 := rfl
@[simp] theorem State.modCh_wave_square2 (s : State) (f : Channel → Channel) : (s.modCh .wave f).square2 = s.square2 := rfl
@[simp] theorem State.modCh_wave_wave (s : State) (f : Channel → Channel) : (s.modCh .wave f).wave = f s.wave := rfl
@[simp] theorem State.modCh_wave_noise (s : State) (f : Channel → Channel) : (s.modCh .wave f).noise = s.noise := rfl
@[simp] theorem State.modCh_noise_square1 (s : State) (f : Channel → Channel) : (s.modCh .noise f).square1 = s.square1 := rfl
@[simp] theorem State.modCh_noise_square2 (s : State) (f : Channel → Channel) : (s.modCh .noise f).square2 = s.square2 := rfl
@[simp] theorem State.modCh_noise_wave (s : State) (f : Channel → Channel) : (s.modCh .noise f).wave = s.wave := rfl
@[simp] theorem State.modCh_noise_noise (s : State) (f : Channel → Channel) : (s.modCh .noise f).noise = f s.noise := rfl

/-! ### `setDuty` changes one duty generator only -/

@[simp] theorem State.duty_one (s : State) : s.duty .one = s.duty1 := rfl
@[simp] theorem State.duty_two (s : State) : s.duty .two = s.duty2 := rfl
@[simp] theorem State.setDuty_params (s : State) (q : Sq) (d : SquareVoice) : (s.setDuty q d).params = s.params := by
  cases q <;> rfl
@[simp] theorem State.setDuty_mem (s : State) (q : Sq) (d : SquareVoice) : (s.setDuty q d).mem = s.mem := by
  cases q <;> rfl
@[simp] theorem State.setDuty_square1 (s : State) (q : Sq) (d : SquareVoice) : (s.setDuty q d).square1 = s.square1 := by
  cases q <;> rfl
@[simp] theorem State.setDuty_square2 (s : State) (q : Sq) (d : SquareVoice) : (s.setDuty q d).square2 = s.square2 := by
  cases q <;> rfl
@[simp] theorem State.setDuty_wave (s : State) (q : Sq) (d : SquareVoice) : (s.setDuty q d).wave = s.wave := by
  cases q <;> rfl
@[simp] theorem State.setDuty_noise (s : State) (q : Sq) (d : SquareVoice) : (s.setDuty q d).noise = s.noise := by
  cases q <;> rfl
@[simp] theorem State.setDuty_samplePosition (s : State) (q : Sq) (d : SquareVoice) : (s.setDuty q d).samplePosition = s.samplePosition := by
  cases q <;> rfl
@[simp] theorem State.setDuty_noiseVoice (s : State) (q : Sq) (d : SquareVoice) : (s.setDuty q d).noiseVoice = s.noiseVoice := by
  cases q <;> rfl
@[simp] theorem State.setDuty_sweep (s : State) (q : Sq) (d : SquareVoice) : (s.setDuty q d).sweep = s.sweep := by
  cases q <;> rfl
@[simp] theorem State.setDuty_volumeLeft (s : State) (q : Sq) (d : SquareVoice) : (s.setDuty q d).volumeLeft = s.volumeLeft := by
  cases q <;> rfl
@[simp] theorem State.setDuty_volumeRight (s : State) (q : Sq) (d : SquareVoice) : (s.setDuty q d).volumeRight = s.volumeRight := by
  cases q <;> rfl
@[simp] theorem State.setDuty_hostEnable (s : State) (q : Sq) (d : SquareVoice) : (s.setDuty q d).hostEnable = s.hostEnable := by
  cases q <;> rfl
@[simp] theorem State.setDuty_hostLocked (s : State) (q : Sq) (d : SquareVoice) : (s.setDuty q d).hostLocked = s.hostLocked := by
  cases q <;> rfl
@[simp] theorem State.setDuty_marks (s : State) (q : Sq) (d : SquareVoice) : (s.setDuty q d).marks = s.marks := by
  cases q <;> rfl
@[simp] theorem State.setDuty_returned (s : State) (q : Sq) (d : SquareVoice) : (s.setDuty q d).returned = s.returned := by
  cases q <;> rfl
@[simp] theorem State.setDuty_outL (s : State) (q : Sq) (d : SquareVoice) : (s.setDuty q d).outL = s.outL := by
  cases q <;> rfl
@[simp] theorem State.setDuty_outR (s : State) (q : Sq) (d : SquareVoice) : (s.setDuty q d).outR = s.outR := by
  cases q <;> rfl
@[simp] theorem State.setDuty_draws (s : State) (q : Sq) (d : SquareVoice) : (s.setDuty q d).draws = s.draws := by
  cases q <;> rfl
@[simp] theorem State.setDuty_inbox (s : State) (q : Sq) (d : SquareVoice) : (s.setDuty q d).inbox = s.inbox := by
  cases q <;> rfl
@[simp] theorem State.setDuty_one_duty1 (s : State) (d : SquareVoice) : (s.setDuty .one d).duty1 = d := rfl
@[simp] theorem State.setDuty_one_duty2 (s : State) (d : SquareVoice) : (s.setDuty .one d).duty2 = s.duty2 := rfl
@[simp] theorem State.setDuty_two_duty1 (s : State) (d : SquareVoice) : (s.setDuty .two d).duty1 = s.duty1 := rfl
@[simp] theorem State.setDuty_two_duty2 (s : State) (d : SquareVoice) : (s.setDuty .two d).duty2 = d := rfl
@[simp] theorem State.setDuty_ch (s : State) (q : Sq) (d : SquareVoice) (i : Ch) : (s.setDuty q d).ch i = s.ch i := by
  cases q <;> cases i <;> rfl
@[simp] theorem Sq.ch_one : Sq.one.ch = .square1 := rfl
@[simp] theorem Sq.ch_two : Sq.two.ch = .square2 := rfl

end Sys2Proof.Machine
end

