-- ==== Sys2Proof/Laws/Memory.lean ====
section
/-! SUPPORT. The laws of the register window: a read after a write, and that every memory operation keeps the canonical form. -/

namespace Sys2Proof.Machine

theorem memSortedAbove_mono {lo lo' : Nat} {m : List Host.Cell} (h : memSortedAbove lo m = true) (hle : lo' ≤ lo) :
    memSortedAbove lo' m = true := by
  cases m with
  | nil => rfl
  | cons c rest =>
    simp only [memSortedAbove, Bool.and_eq_true, decide_eq_true_eq] at h ⊢
    exact ⟨⟨by omega, h.1.2⟩, h.2⟩

/-- Below the first listed address nothing is listed. -/
theorem memRead_below {lo a : Nat} {m : List Host.Cell} (h : memSortedAbove lo m = true) (ha : a ≤ lo) :
    memRead m a = 0 := by
  induction m generalizing lo with
  | nil => rfl
  | cons c rest ih =>
    simp only [memSortedAbove, Bool.and_eq_true, decide_eq_true_eq] at h
    simp only [memRead]
    rw [if_neg (by omega), ih h.2 (by omega)]

theorem memRead_memCons {lo a : Nat} (v : Byte) {rest : List Host.Cell} (h : memSortedAbove lo rest = true) (ha : a ≤ lo)
    (b : Nat) : memRead (memCons a v rest) b = if a = b then v else memRead rest b := by
  unfold memCons
  split
  case isTrue hv =>
    split
    case isTrue hab => rw [← hab, memRead_below h ha, hv]
    case isFalse => rfl
  case isFalse => rfl

/-- A read after a write, on a window in canonical form. -/
theorem memRead_memWrite {lo : Nat} {m : List Host.Cell} (h : memSortedAbove lo m = true) (a : Nat) (v : Byte) (b : Nat) :
    memRead (memWrite m a v) b = if a = b then v else memRead m b := by
  induction m generalizing lo with
  | nil => exact memRead_memCons (lo := a) v rfl (Nat.le_refl a) b
  | cons c rest ih =>
    have h' := h
    simp only [memSortedAbove, Bool.and_eq_true, decide_eq_true_eq] at h
    simp only [memWrite]
    split
    case isTrue hlt =>
      refine memRead_memCons (lo := a) v ?_ (Nat.le_refl a) b
      simp only [memSortedAbove, Bool.and_eq_true, decide_eq_true_eq]
      exact ⟨⟨hlt, h.1.2⟩, h.2⟩
    case isFalse hlt =>
      split
      case isTrue hk =>
        rw [memRead_memCons v h.2 (by omega)]
        simp only [memRead]
        split
        case isTrue => rfl
        case isFalse => rw [if_neg (by omega)]
      case isFalse hk =>
        simp only [memRead]
        rw [ih h.2]
        by_cases hkb : c.1 = b
        · rw [if_pos hkb, if_neg (by omega), if_pos hkb]
        · rw [if_neg hkb, if_neg hkb]

theorem memSortedAbove_memCons {lo a : Nat} (v : Byte) {rest : List Host.Cell} (h : memSortedAbove a rest = true)
    (ha : lo < a) : memSortedAbove lo (memCons a v rest) = true := by
  unfold memCons
  split
  case isTrue => exact memSortedAbove_mono h (by omega)
  case isFalse hv =>
    simp only [memSortedAbove, Bool.and_eq_true, decide_eq_true_eq]
    exact ⟨⟨ha, hv⟩, h⟩

theorem memSortedAbove_memWrite {lo : Nat} {m : List Host.Cell} (h : memSortedAbove lo m = true) {a : Nat} (ha : lo < a)
    (v : Byte) : memSortedAbove lo (memWrite m a v) = true := by
  induction m generalizing lo with
  | nil => exact memSortedAbove_memCons v rfl ha
  | cons c rest ih =>
    simp only [memSortedAbove, Bool.and_eq_true, decide_eq_true_eq] at h
    simp only [memWrite]
    split
    case isTrue hlt =>
      refine memSortedAbove_memCons v ?_ ha
      simp only [memSortedAbove, Bool.and_eq_true, decide_eq_true_eq]
      exact ⟨⟨hlt, h.1.2⟩, h.2⟩
    case isFalse hlt =>
      split
      case isTrue hk =>
        subst hk
        exact memSortedAbove_memCons v h.2 ha
      case isFalse hk =>
        simp only [memSortedAbove, Bool.and_eq_true, decide_eq_true_eq]
        exact ⟨h.1, ih h.2 (by omega)⟩

theorem memCons_inWindow {a : Nat} (v : Byte) {rest : List Host.Cell} (h : rest.all (fun c => inWindow c.1) = true)
    (ha : inWindow a = true) : (memCons a v rest).all (fun c => inWindow c.1) = true := by
  unfold memCons
  split
  case isTrue => exact h
  case isFalse => simp only [List.all_cons, Bool.and_eq_true]; exact ⟨ha, h⟩

theorem memWrite_inWindow {m : List Host.Cell} (h : m.all (fun c => inWindow c.1) = true) {a : Nat}
    (ha : inWindow a = true) (v : Byte) : (memWrite m a v).all (fun c => inWindow c.1) = true := by
  induction m with
  | nil => exact memCons_inWindow v h ha
  | cons c rest ih =>
    have h' := h
    simp only [List.all_cons, Bool.and_eq_true] at h
    simp only [memWrite]
    split
    · exact memCons_inWindow v h' ha
    · split
      · exact memCons_inWindow v h.2 ha
      · simp only [List.all_cons, Bool.and_eq_true]
        exact ⟨h.1, ih h.2⟩

/-- A store inside the window keeps the canonical form. -/
theorem memWf_memWrite {m : List Host.Cell} (h : memWf m = true) {a : Nat} (ha : inWindow a = true) (v : Byte) :
    memWf (memWrite m a v) = true := by
  simp only [memWf, Bool.and_eq_true] at h ⊢
  refine ⟨memSortedAbove_memWrite h.1 ?_ v, memWrite_inWindow h.2 ha v⟩
  simp only [inWindow, decide_eq_true_eq] at ha
  omega

theorem memWf_sorted {m : List Host.Cell} (h : memWf m = true) : memSortedAbove 0xFF0F m = true := by
  simp only [memWf, Bool.and_eq_true] at h
  exact h.1

/-- `Reg[b]` after `Reg[a] <- v`. -/
theorem State.reg_setReg {s : State} (h : memWf s.mem = true) (a : Nat) (v : Byte) (b : Nat) :
    (s.setReg a v).reg b = if a = b then v else s.reg b :=
  memRead_memWrite (memWf_sorted h) a v b

theorem State.setReg_memWf {s : State} (h : memWf s.mem = true) {a : Nat} (ha : inWindow a = true) (v : Byte) :
    memWf (s.setReg a v).mem = true :=
  memWf_memWrite h ha v

/-- `Reg[b]` after the `n` bytes from `a` on are cleared, and the canonical form after it. -/
theorem State.clearRegs_spec (n : Nat) {s : State} (h : memWf s.mem = true) {a : Nat} (ha : 0xFF10 ≤ a)
    (hn : a + n ≤ 0xFF40) :
    memWf (s.clearRegs a n).mem = true ∧
      ∀ b, (s.clearRegs a n).reg b = if a ≤ b ∧ b < a + n then 0 else s.reg b := by
  induction n generalizing s a with
  | zero =>
    refine ⟨h, fun b => ?_⟩
    rw [if_neg (by omega)]
    rfl
  | succ n ih =>
    have hw : inWindow a = true := by simp only [inWindow, decide_eq_true_eq]; omega
    obtain ⟨hwf, hr⟩ := ih (State.setReg_memWf h hw 0) (a := a + 1) (by omega) (by omega)
    refine ⟨hwf, fun b => ?_⟩
    simp only [State.clearRegs]
    rw [hr b, State.reg_setReg h]
    by_cases h1 : a + 1 ≤ b ∧ b < a + 1 + n
    · rw [if_pos h1, if_pos (by omega)]
    · rw [if_neg h1]
      by_cases h2 : a = b
      · rw [if_pos h2, if_pos (by omega)]
      · rw [if_neg h2, if_neg (by omega)]

@[simp] theorem State.reg_setCh (s : State) (i : Ch) (c : Channel) (a : Nat) : (s.setCh i c).reg a = s.reg a := by
  cases i <;> rfl

@[simp] theorem State.reg_modCh (s : State) (i : Ch) (f : Channel → Channel) (a : Nat) :
    (s.modCh i f).reg a = s.reg a := by
  cases i <;> rfl

@[simp] theorem State.reg_setDuty (s : State) (q : Sq) (d : SquareVoice) (a : Nat) :
    (s.setDuty q d).reg a = s.reg a := by
  cases q <;> rfl

theorem reset_memWf : memWf State.reset.mem = true := by decide

end Sys2Proof.Machine
end

