-- ==== Sys2Proof/Laws/Flags.lean ====
section
/-! SUPPORT. What the NR52 mirror and the two writers of `enabled` leave (R42). -/

namespace Sys2Proof.Machine

open Sys2Proof.Safety

theorem inWindow_nr52 : inWindow nr52 = true := by decide

theorem powerOn_eq (s : State) : powerOn s = (s.reg 0xFF26).getLsbD 7 := rfl

theorem statusBits_toNat (s : State) : (statusBits s).toNat =
    s.noise.enabled.toNat * 8 + s.wave.enabled.toNat * 4 + s.square2.enabled.toNat * 2 + s.square1.enabled.toNat := by
  unfold statusBits
  cases s.noise.enabled <;> cases s.wave.enabled <;> cases s.square2.enabled <;> cases s.square1.enabled <;> rfl

theorem statusBits_le (s : State) : (statusBits s).toNat ≤ 15 := by
  rw [statusBits_toNat]
  have h := fun b : Bool => Bool.toNat_le b
  have := h s.noise.enabled; have := h s.wave.enabled; have := h s.square2.enabled; have := h s.square1.enabled
  omega

/-- The mirror of a stored NR52 byte, as numbers. -/
theorem mirror_toNat (x y : Byte) (hy : y.toNat ≤ 15) : ((x &&& 0x80) ||| y).toNat = x.toNat / 128 * 128 + y.toNat := by
  have key : ∀ x : Byte, ∀ y : BitVec 4, ((x &&& 0x80) ||| y.setWidth 8).toNat = x.toNat / 128 * 128 + y.toNat := by
    decide +revert
  have h := key x (y.setWidth 4)
  have e : (y.setWidth 4).setWidth 8 = y := by
    apply BitVec.eq_of_toNat_eq
    simp only [BitVec.toNat_setWidth]
    omega
  rw [e] at h
  rw [h, BitVec.toNat_setWidth]
  omega

/-- The window stays canonical over the mirror. -/
theorem updateMirror_memWf {s : State} (h : memWf s.mem = true) : memWf (updateMirror s).mem = true :=
  State.setReg_memWf h inWindow_nr52 _

theorem updateMirror_eq (s : State) : updateMirror s = { s with mem := (updateMirror s).mem } := rfl

theorem updateMirror_reg {s : State} (h : memWf s.mem = true) (b : Nat) :
    (updateMirror s).reg b = if nr52 = b then (s.reg nr52 &&& 0x80) ||| statusBits s else s.reg b :=
  State.reg_setReg h nr52 _ b

/-- Everything the mirror does. -/
theorem updateMirror_mirrors {s : State} (h : memWf s.mem = true) : mirrorsOnly s (updateMirror s) := by
  constructor
  · unfold mirrors
    rw [updateMirror_reg h, if_pos (show nr52 = 0xFF26 from rfl), mirror_toNat _ _ (statusBits_le s), statusBits_toNat]
    simp only [← Nat.add_assoc]
    rfl
  · intro b hb
    rw [updateMirror_reg h, if_neg (fun e => hb e.symm)]

/-- Everything `ChanEnable(i)` does. -/
theorem chanEnable_spec {s : State} (h : memWf s.mem = true) (i : Ch) :
    memWf (chanEnable i s).mem = true ∧ mirrorsOnly s (chanEnable i s) ∧
    chanEnable i s = { s.modCh i (fun c => { c with enabled := true }) with mem := (chanEnable i s).mem } := by
  have hm : memWf (s.modCh i fun c => { c with enabled := true }).mem = true := by simpa using h
  refine ⟨updateMirror_memWf hm, ?_, rfl⟩
  have := updateMirror_mirrors hm
  simpa [mirrorsOnly, mirrors, chanEnable] using this

/-- Everything `ChanDisable(i)` does. -/
theorem chanDisable_spec {s : State} (h : memWf s.mem = true) (i : Ch) :
    memWf (chanDisable i s).mem = true ∧ mirrorsOnly s (chanDisable i s) ∧
    chanDisable i s = { s.modCh i (fun c => { c with enabled := false }) with mem := (chanDisable i s).mem } := by
  have hm : memWf (s.modCh i fun c => { c with enabled := false }).mem = true := by simpa using h
  refine ⟨updateMirror_memWf hm, ?_, rfl⟩
  have := updateMirror_mirrors hm
  simpa [mirrorsOnly, mirrors, chanDisable] using this

/-- A mirrored NR52 keeps the power bit. -/
theorem mirrors_power {s t : State} (h : mirrors s t) : (t.reg 0xFF26).getLsbD 7 = (s.reg 0xFF26).getLsbD 7 := by
  have e : ∀ x : Byte, x.getLsbD 7 = decide (128 ≤ x.toNat) := by decide
  unfold mirrors at h
  have hb := fun b : Bool => Bool.toNat_le b
  have := hb t.noise.enabled; have := hb t.wave.enabled; have := hb t.square2.enabled; have := hb t.square1.enabled
  have := (s.reg 0xFF26).isLt
  rw [e, e]
  congr 1
  apply propext
  omega

theorem mirrors_trans {s u t : State} (h : mirrors s u) (k : mirrors u t) : mirrors s t := by
  unfold mirrors at h k ⊢
  have hb := fun b : Bool => Bool.toNat_le b
  have := hb u.noise.enabled; have := hb u.wave.enabled; have := hb u.square2.enabled; have := hb u.square1.enabled
  omega

theorem mirrorsOnly_trans {s u t : State} (h : mirrorsOnly s u) (k : mirrorsOnly u t) : mirrorsOnly s t :=
  ⟨mirrors_trans h.1 k.1, fun b hb => (k.2 b hb).trans (h.2 b hb)⟩

/-- The mirror over a first part that leaves the window. -/
theorem mirrorsOnly_of_mem {s u t : State} (e : u.mem = s.mem) (h : mirrorsOnly u t) : mirrorsOnly s t := by
  unfold mirrorsOnly mirrors State.reg at *
  rwa [← e]

/-- The mirror over a last part that leaves the window and the `enabled` bits. -/
theorem mirrorsOnly_congr {s u t : State} (e : t.mem = u.mem) (he : ∀ i, (t.ch i).enabled = (u.ch i).enabled)
    (h : mirrorsOnly s u) : mirrorsOnly s t := by
  have e1 := he .square1; have e2 := he .square2; have e3 := he .wave; have e4 := he .noise
  simp only [State.ch_square1, State.ch_square2, State.ch_wave, State.ch_noise] at e1 e2 e3 e4
  unfold mirrorsOnly mirrors State.reg at *
  rwa [e, e1, e2, e3, e4]

end Sys2Proof.Machine
end

