-- ==== Sys2Proof/Laws/Write.lean ====
section
/-! SUPPORT. What the shared write procedures leave: the power gate, the plain store, the data byte's fields as numbers, and the
trigger (R101 to R108, R150 to R155). -/

namespace Sys2Proof.Machine

open Sys2Proof.Safety

/-! ### The gate and the store -/

theorem gatedWrite_on {a : Nat} {v : Byte} {effect : State → State} {s : State}
    (hp : (s.reg 0xFF26).getLsbD 7 = true) : gatedWrite a v effect s = effect (s.setReg a v) := by
  unfold gatedWrite
  rw [powerOn_eq, hp]
  rfl

theorem gatedWrite_off {a : Nat} {v : Byte} {effect : State → State} {s : State}
    (hp : (s.reg 0xFF26).getLsbD 7 = false) : gatedWrite a v effect s = s := by
  unfold gatedWrite
  rw [powerOn_eq, hp]
  rfl

/-- A state whose window is `s`'s window with one byte stored. -/
theorem storesOnly_of_mem {s t : State} (h : memWf s.mem = true) {a : Nat} {v : Byte}
    (ht : t.mem = (s.setReg a v).mem) : storesOnly s t a v := by
  have e : ∀ b, t.reg b = (s.setReg a v).reg b := fun b => by unfold State.reg; rw [ht]
  refine ⟨?_, fun b hb => ?_⟩
  · rw [e, State.reg_setReg h, if_pos rfl]
  · rw [e, State.reg_setReg h, if_neg (Ne.symm hb)]

/-- The top-level write at an address of 0xFF28..0xFF3F only stores (R131, R132). -/
theorem writeReg_plain {a : Nat} (v : Byte) (s : State) (h : 0xFF28 ≤ a) (h' : a ≤ 0xFF3F) :
    writeReg a v s = gatedWrite a v noSideEffect s := by
  have ne : ∀ k, k ≤ 0xFF27 → ¬ a = k := fun k hk => by omega
  unfold writeReg
  rw [if_neg (by simp only [inWindow, decide_eq_false_iff_not]; omega)]
  rw [if_neg (ne _ (by decide)), if_neg (ne _ (by decide)), if_neg (ne _ (by decide)), if_neg (ne _ (by decide)),
    if_neg (ne _ (by decide)), if_neg (ne _ (by decide)), if_neg (ne _ (by decide)), if_neg (ne _ (by decide)),
    if_neg (ne _ (by decide)), if_neg (ne _ (by decide)), if_neg (ne _ (by decide)), if_neg (ne _ (by decide)),
    if_neg (ne _ (by decide)), if_neg (ne _ (by decide)), if_neg (ne _ (by decide)), if_neg (ne _ (by decide)),
    if_neg (ne _ (by decide)), if_neg (ne _ (by decide)), if_neg (ne _ (by decide)), if_neg (ne _ (by decide)),
    if_neg (ne _ (by decide)), if_neg (ne _ (by decide)), if_neg (ne _ (by decide)), if_neg (ne _ (by decide))]
  rfl

/-- An address outside the window is refused (R101). -/
theorem writeReg_outside {a : Nat} (v : Byte) (s : State) (h : a < 0xFF10 ∨ 0xFF3F < a) :
    writeReg a v s = refuse .addressOutOfRange s := by
  unfold writeReg
  rw [if_pos (by simp only [inWindow, decide_eq_false_iff_not]; omega)]

/-! ### The two halves of the frequency, as numbers -/

theorem mergeFreqLow_eq (f : BitVec 16) (v : Byte) : mergeFreqLow f v = freqLow f v := by
  unfold mergeFreqLow freqLow
  apply BitVec.eq_of_getLsbD_eq
  intro i hi
  rw [BitVec.getLsbD_ofNat, show f.toNat / 256 % 8 * 256 + v.toNat = 2 ^ 8 * (f.toNat / 2 ^ 8 % 2 ^ 3) + v.toNat by omega,
    Nat.testBit_two_pow_mul_add _ v.isLt]
  simp only [BitVec.getLsbD_or, BitVec.getLsbD_and, Nat.testBit_mod_two_pow, Nat.testBit_div_two_pow,
    BitVec.getLsbD_setWidth, hi, BitVec.testBit_toNat, decide_true, Bool.true_and]
  interval_cases i <;> simp

theorem mergeFreqHigh_eq (f : BitVec 16) (v : Byte) : mergeFreqHigh f v = freqHigh f v := by
  unfold mergeFreqHigh freqHigh
  apply BitVec.eq_of_getLsbD_eq
  intro i hi
  rw [BitVec.getLsbD_ofNat, show v.toNat % 8 * 256 + f.toNat % 256 = 2 ^ 8 * (v.toNat % 2 ^ 3) + f.toNat % 2 ^ 8 by omega,
    Nat.testBit_two_pow_mul_add _ (by omega)]
  simp only [BitVec.getLsbD_or, BitVec.getLsbD_and, Nat.testBit_mod_two_pow, BitVec.getLsbD_shiftLeft,
    BitVec.getLsbD_extractLsb', BitVec.getLsbD_setWidth, hi, BitVec.testBit_toNat, decide_true, Bool.true_and]
  interval_cases i <;> simp

theorem freqLow_le (f : BitVec 16) (v : Byte) : (freqLow f v).toNat ≤ 2047 := by
  unfold freqLow
  rw [BitVec.toNat_ofNat]
  have := v.isLt
  omega

theorem freqHigh_le (f : BitVec 16) (v : Byte) : (freqHigh f v).toNat ≤ 2047 := by
  unfold freqHigh
  rw [BitVec.toNat_ofNat]
  omega

/-! ### The trigger -/

/-- The trigger changes the window by the NR52 mirror only. -/
theorem trigger_mem (i : Ch) (s : State) : (trigger i s).mem = (chanEnable i s).mem := by
  cases i <;> rfl

end Sys2Proof.Machine
end

