-- ==== Sys2Proof/Laws/Init.lean ====
section
/-! SUPPORT. What a run of `write`s with master power on leaves, for `init` (R101, R280): the register window, and the decoded
fields. -/

namespace Sys2Proof.Machine

open Sys2Proof.Safety

/-- The register window after a write of `v` to `a` with master power on: the byte, NR52's power bit, and the other bytes
(R101). -/
structure Written (a : Nat) (v : Byte) (s t : State) : Prop where
  wf : memWf t.mem = true
  power : (t.reg 0xFF26).getLsbD 7 = (s.reg 0xFF26).getLsbD 7
  params : t.params = s.params
  byte : t.reg a = v
  kept : ∀ b, b ≠ a → b ≠ 0xFF26 → t.reg b = s.reg b

theorem Written.of_mem {a : Nat} {v : Byte} {s t : State} (h : memWf s.mem = true) (ha : inWindow a = true) (hn : a ≠ 0xFF26)
    (hp : t.params = s.params) (ht : t.mem = (s.setReg a v).mem) : Written a v s t := by
  obtain ⟨k1, k2⟩ := storesOnly_of_mem h ht
  exact ⟨by rw [ht]; exact State.setReg_memWf h ha v, by rw [k2 _ hn.symm], hp, k1, fun b hb _ => k2 b hb⟩

theorem Written.of_trigger {a : Nat} {v : Byte} {s u t : State} (i : Ch) (h : memWf s.mem = true) (ha : inWindow a = true)
    (hn : a ≠ 0xFF26) (hp : t.params = s.params) (hu : u.mem = (s.setReg a v).mem) (ht : t.mem = (chanEnable i u).mem) :
    Written a v s t := by
  obtain ⟨w1, w2, w3, w4, w5⟩ := Written.of_mem (t := { u with params := s.params }) h ha hn rfl hu
  obtain ⟨m1, m2, _⟩ := chanEnable_spec (s := u) w1 i
  have e : ∀ b, t.reg b = (chanEnable i u).reg b := fun b => by unfold State.reg; rw [ht]
  refine ⟨by rw [ht]; exact m1, ?_, hp, ?_, fun b hb hb' => ?_⟩
  · rw [e, mirrors_power m2.1]; exact w2
  · rw [e, m2.2 _ hn]; exact w4
  · rw [e, m2.2 _ hb']; exact w5 b hb hb'

theorem ctrlWrite_written {a : Nat} {v : Byte} {s : State} (i : Ch) (h : memWf s.mem = true) (ha : inWindow a = true)
    (hn : a ≠ 0xFF26) : Written a v s (ctrlWrite i v (s.setReg a v)) := by
  have key : ∀ u : State, u.mem = (s.setReg a v).mem → u.params = s.params → Written a v s (lengthEnableTrigger i v u) := by
    intro u hu hp
    unfold lengthEnableTrigger
    simp only
    split
    · refine Written.of_trigger i h ha hn ?_ (by simpa using hu) (trigger_mem i _)
      cases i <;> exact hp
    · exact Written.of_mem h ha hn (by simpa using hp) (by simpa using hu)
  unfold ctrlWrite
  cases i <;> exact key _ rfl rfl

/-- Every write but NR52's, with master power on. -/
theorem writeReg_written {a : Nat} {v : Byte} {s : State} (h : memWf s.mem = true) (hp : (s.reg 0xFF26).getLsbD 7 = true)
    (ha : inWindow a = true) (hn : a ≠ 0xFF26) : Written a v s (writeReg a v s) := by
  have plain : ∀ e : State → State, (e (s.setReg a v)).mem = (s.setReg a v).mem → (e (s.setReg a v)).params = s.params →
      Written a v s (gatedWrite a v e s) := fun e he hq => by
    rw [gatedWrite_on hp]
    exact Written.of_mem h ha hn hq he
  have ctrl : ∀ i, Written a v s (gatedWrite a v (ctrlWrite i v) s) := fun i => by
    rw [gatedWrite_on hp]
    exact ctrlWrite_written i h ha hn
  have next : ∀ (k : Nat) {x y : State}, (a = k → Written a v s x) → Written a v s y →
      Written a v s (if a = k then x else y) := fun k x y hx hy => by
      by_cases e : a = k
      · rw [if_pos e]; exact hx e
      · rw [if_neg e]; exact hy
  unfold writeReg
  rw [if_neg (by simp [ha]), if_neg hn]
  refine next _ (fun e => by subst e; exact plain noSideEffect rfl rfl) ?_
  refine next _ (fun e => by subst e; exact plain (dutyLenWrite .one v) rfl rfl) ?_
  refine next _ (fun e => by subst e; exact plain (envWrite .square1 v) rfl rfl) ?_
  refine next _ (fun e => by subst e; exact plain (freqLowWrite .square1 v) rfl rfl) ?_
  refine next _ (fun e => by subst e; exact ctrl .square1) ?_
  refine next _ (fun e => by subst e; exact plain noSideEffect rfl rfl) ?_
  refine next _ (fun e => by subst e; exact plain (dutyLenWrite .two v) rfl rfl) ?_
  refine next _ (fun e => by subst e; exact plain (envWrite .square2 v) rfl rfl) ?_
  refine next _ (fun e => by subst e; exact plain (freqLowWrite .square2 v) rfl rfl) ?_
  refine next _ (fun e => by subst e; exact ctrl .square2) ?_
  refine next _ (fun e => by subst e; exact plain (waveDacWrite v) rfl rfl) ?_
  refine next _ (fun e => by subst e; exact plain (waveLengthWrite v) rfl rfl) ?_
  refine next _ (fun e => by subst e; exact plain (waveVolumeWrite v) rfl rfl) ?_
  refine next _ (fun e => by subst e; exact plain (freqLowWrite .wave v) rfl rfl) ?_
  refine next _ (fun e => by subst e; exact ctrl .wave) ?_
  refine next _ (fun e => by subst e; exact plain noSideEffect rfl rfl) ?_
  refine next _ (fun e => by subst e; exact plain (lengthLoadWrite .noise v) rfl rfl) ?_
  refine next _ (fun e => by subst e; exact plain (envWrite .noise v) rfl rfl) ?_
  refine next _ (fun e => by subst e; exact plain (noiseWrite v) rfl rfl) ?_
  refine next _ (fun e => by subst e; exact ctrl .noise) ?_
  refine next _ (fun e => by subst e; exact plain (masterVolumeWrite v) rfl rfl) ?_
  refine next _ (fun e => by subst e; exact plain (panWrite v) rfl rfl) ?_
  refine next _ (fun e => by subst e; exact plain noSideEffect rfl rfl) ?_
  exact plain noSideEffect rfl rfl

/-- A run of the default writes stores each init byte at its address and keeps power on (R280). -/
theorem initWrites_written (n : Nat) {a : Nat} {s : State} (h : memWf s.mem = true) (hp : (s.reg 0xFF26).getLsbD 7 = true)
    (ha : 0xFF10 ≤ a) (hb : a + n ≤ 0xFF40) (hn : 0xFF26 < a ∨ a + n ≤ 0xFF26) :
    let t := initWrites n a s
    memWf t.mem = true ∧ (t.reg 0xFF26).getLsbD 7 = true ∧ t.params = s.params ∧
    (∀ b, a ≤ b → b < a + n → t.reg b = initByte s.params b) ∧
    ∀ b, (b < a ∨ a + n ≤ b) → b ≠ 0xFF26 → t.reg b = s.reg b := by
  induction n generalizing a s with
  | zero => exact ⟨h, hp, rfl, fun b _ _ => by omega, fun b _ _ => rfl⟩
  | succ n ih =>
    obtain ⟨w1, w2, w3, w4, w5⟩ := writeReg_written (a := a) (v := initByte s.params a) h hp
      (by simp only [inWindow, decide_eq_true_eq]; omega) (by omega)
    obtain ⟨i1, i2, i3, i4, i5⟩ := ih (a := a + 1) (s := writeReg a (initByte s.params a) s) w1 (w2.trans hp) (by omega)
      (by omega) (by omega)
    refine ⟨i1, i2, i3.trans w3, fun b hb hb' => ?_, fun b hb hb' => ?_⟩
    · by_cases e : b = a
      · subst e; exact (i5 b (by omega) (by omega)).trans w4
      · exact (i4 b (by omega) (by omega)).trans (by rw [w3])
    · exact (i5 b (by omega) hb').trans (w5 b (by omega) hb')

/-! ### The decoded fields -/

/-- The state without its register window. -/
def State.fields (s : State) : State := { s with mem := [] }

/-- What `CtrlWrite(i, v)` does to the fields (R107, R150 to R155), from the stored NR10 byte `x`. -/
def ctrlFields (i : Ch) (v x : Byte) (s : State) : State :=
  let s := match i with
    | .noise => s
    | .square1 | .square2 | .wave => s.modCh i fun c => { c with frequency := mergeFreqHigh c.frequency v }
  let s := s.modCh i fun c => { c with len := { c.len with enabled := lengthEnableOf v } }
  if triggerOf v then
    let s := s.modCh i fun c => { c with enabled := true, volume := c.volumeInit }
    let s := envReload i s
    let s := match i with
      | .square1 => { s with
          sweep := {
            shadowFrequency := s.square1.frequency
            period := sweepPeriodOf x
            direction := sweepDirOf x
            shift := sweepShiftOf x
            counter := 0
            increment := sweepInc s.params (sweepPeriodOf x) } }
      | .square2 | .wave | .noise => s
    lengthReload i (channelReset i s)
  else s

theorem ctrlWrite_fields {a : Nat} {s : State} (i : Ch) (v : Byte) (h : memWf s.mem = true) (ha : inWindow a = true)
    (hn : a ≠ nr10) : (ctrlWrite i v (s.setReg a v)).fields = ctrlFields i v (s.reg nr10) s.fields := by
  have key : ∀ u : State, u.mem = (s.setReg a v).mem → (chanEnable .square1 u).reg nr10 = s.reg nr10 := by
    intro u hu
    have w : memWf u.mem = true := by rw [hu]; exact State.setReg_memWf h ha v
    have e : u.reg nr10 = (s.setReg a v).reg nr10 := by unfold State.reg; rw [hu]
    rw [(chanEnable_spec w .square1).2.1.2 nr10 (by decide), e, State.reg_setReg h, if_neg hn]
  unfold ctrlWrite lengthEnableTrigger ctrlFields
  cases i
  · simp only
    split
    · rw [← key (((s.setReg a v).modCh .square1 fun c => { c with frequency := mergeFreqHigh c.frequency v }).modCh .square1
        fun c => { c with len := { c.len with enabled := lengthEnableOf v } }) rfl]
      rfl
    · rfl
  all_goals
    simp only
    split <;> rfl

/-- The state in the middle of the default writes: the window is in order, power is on, and of the bytes NR10 is `x`. -/
structure Booting (p : Params) (x : Byte) (f s : State) : Prop where
  wf : memWf s.mem = true
  power : (s.reg 0xFF26).getLsbD 7 = true
  params : s.params = p
  sweep : s.reg nr10 = x
  fields : s.fields = f

/-- The default write of NR10. -/
theorem Booting.nr10 {p : Params} {x : Byte} {f s : State} (h : Booting p x f s) (n : Nat) :
    ∃ t, initWrites (n + 1) 0xFF10 s = initWrites n 0xFF11 t ∧ Booting p (initByte p 0xFF10) f t := by
  have k := writeReg_written (a := 0xFF10) (v := initByte p 0xFF10) h.wf h.power (by decide) (by decide)
  refine ⟨writeReg 0xFF10 (initByte p 0xFF10) s, by rw [initWrites, h.params], k.wf, k.power.trans h.power,
    k.params.trans h.params, k.byte, ?_⟩
  show (gatedWrite 0xFF10 (initByte p 0xFF10) noSideEffect s).fields = f
  rw [gatedWrite_on h.power, ← h.fields]
  rfl

/-- The default write of an address whose procedure `e` does not look at the window. -/
theorem Booting.plain {p : Params} {x : Byte} {f s : State} (h : Booting p x f s) (n : Nat) {a : Nat} (e : State → State)
    (ha : inWindow a = true) (hn : a ≠ 0xFF26) (hs : a ≠ Machine.nr10)
    (w : ∀ s, writeReg a (initByte p a) s = gatedWrite a (initByte p a) e s) (he : ∀ u : State, (e u).fields = e u.fields) :
    ∃ t, initWrites (n + 1) a s = initWrites n (a + 1) t ∧ Booting p x (e f) t := by
  have k := writeReg_written (v := initByte p a) h.wf h.power ha hn
  refine ⟨writeReg a (initByte p a) s, by rw [initWrites, h.params], k.wf, k.power.trans h.power, k.params.trans h.params,
    (k.kept _ (Ne.symm hs) (by decide)).trans h.sweep, ?_⟩
  rw [w, gatedWrite_on h.power, he, ← h.fields]
  rfl

/-- The default write of NRx4 or NR44. -/
theorem Booting.ctrl {p : Params} {x : Byte} {f s : State} (h : Booting p x f s) (n : Nat) {a : Nat} (i : Ch)
    (ha : inWindow a = true) (hn : a ≠ 0xFF26) (hs : a ≠ Machine.nr10)
    (w : ∀ s, writeReg a (initByte p a) s = gatedWrite a (initByte p a) (ctrlWrite i (initByte p a)) s) :
    ∃ t, initWrites (n + 1) a s = initWrites n (a + 1) t ∧ Booting p x (ctrlFields i (initByte p a) x f) t := by
  have k := writeReg_written (v := initByte p a) h.wf h.power ha hn
  refine ⟨writeReg a (initByte p a) s, by rw [initWrites, h.params], k.wf, k.power.trans h.power, k.params.trans h.params,
    (k.kept _ (Ne.symm hs) (by decide)).trans h.sweep, ?_⟩
  rw [w, gatedWrite_on h.power, ctrlWrite_fields i _ h.wf ha hs, h.fields, h.sweep]

end Sys2Proof.Machine
end

