-- ==== Sys2Proof/Laws/Timers.lean ====
section
/-! SUPPORT. The three timers: their loops end because their condition fails, not because their bound runs out, and what a tick and a
length span leave (R160 to R171). -/

namespace Sys2Proof.Machine

open Sys2Proof.Safety

/-! ### The bound of the loops -/

theorem firings_of_le {thresh x : Nat} (h : x ≤ thresh) : firings thresh x = 0 := by
  unfold firings
  rcases Nat.eq_zero_or_pos thresh with h0 | h0
  · rw [h0, Nat.div_zero]
  · exact Nat.div_eq_of_lt (by omega)

theorem firings_of_lt {thresh x : Nat} (ht : 1 ≤ thresh) (h : thresh < x) :
    firings thresh x = firings thresh (x - thresh) + 1 := by
  unfold firings
  rw [show x - 1 = (x - thresh - 1) + thresh by omega, Nat.add_div_right _ ht]

theorem firings_eq {thresh k x : Nat} (ht : 1 ≤ thresh) (h1 : k * thresh < x) (h2 : x ≤ (k + 1) * thresh) :
    firings thresh x = k := by
  unfold firings
  rw [Nat.div_eq_iff (by omega)]
  rw [Nat.add_mul] at h2
  omega

/-! ### Envelope -/

/-- What the envelope's loop keeps of the channel's record. -/
theorem envFire_frame (c : Channel) :
    envFire c = { c with
      volume := (envFire c).volume, env := { c.env with increment := (envFire c).env.increment } } := by
  unfold envFire
  split <;> rfl

theorem envLoop_frame (thresh k : Nat) (c : Channel) :
    envLoop thresh k c = { c with
      volume := (envLoop thresh k c).volume
      env := { c.env with
        counter := (envLoop thresh k c).env.counter, increment := (envLoop thresh k c).env.increment } } := by
  induction k generalizing c with
  | zero => rfl
  | succ k ih =>
    simp only [envLoop]
    split
    · rw [ih, envFire_frame]
    · rfl

/-- The loop ends with its condition false. -/
theorem envLoop_counter {thresh : Nat} (ht : 1 ≤ thresh) {k : Nat} {c : Channel} (hk : firings thresh c.env.counter ≤ k) :
    (envLoop thresh k c).env.counter ≤ thresh := by
  induction k generalizing c with
  | zero =>
    simp only [envLoop]
    by_contra h
    rw [firings_of_lt ht (by omega)] at hk
    omega
  | succ k ih =>
    simp only [envLoop]
    split
    · rename_i h
      rw [firings_of_lt ht h] at hk
      refine ih ?_
      rw [envFire_frame]
      simp only
      omega
    · rename_i h
      exact Nat.le_of_not_lt h

/-- A bound beyond the number of firings adds nothing. -/
theorem envLoop_of_le {thresh : Nat} (k : Nat) {c : Channel} (h : c.env.counter ≤ thresh) : envLoop thresh k c = c := by
  cases k with
  | zero => rfl
  | succ k => simp only [envLoop]; rw [if_neg (by omega)]

/-- One firing moves the volume by one within 0..15 (R160). -/
theorem clampVolume_step (v : BitVec 4) :
    clampVolume ((v.toNat : Int) + 1) = BitVec.ofNat 4 (min 15 (v.toNat + 1)) ∧
    clampVolume ((v.toNat : Int) + -1) = BitVec.ofNat 4 (v.toNat - 1) := by
  revert v
  decide

/-- Everything `k` firings of a nonzero step do, from any volume, counter and increment (R160). -/
theorem envLoop_moves {thresh : Nat} {c : Channel} (hs : c.env.step ≠ 0) (k : Nat) (v : BitVec 4) (counter increment : Nat)
    (h : k * thresh < counter) :
    envLoop thresh k { c with volume := v, env := { c.env with counter := counter, increment := increment } } =
      let w := if c.env.direction = .up then BitVec.ofNat 4 (min 15 (v.toNat + k)) else BitVec.ofNat 4 (v.toNat - k)
      { c with
        volume := w
        env := { c.env with
          counter := counter - k * thresh
          increment := if k ≠ 0 ∧ (w.toNat = 0 ∨ w.toNat = 15) then 0 else increment } } := by
  induction k generalizing v counter increment with
  | zero => simp [envLoop, show min 15 v.toNat = v.toNat by omega]
  | succ k ih =>
    have hv := v.isLt
    have ends : ∀ v : BitVec 4, (v = 0 ↔ v.toNat = 0) ∧ (v = 15 ↔ v.toNat = 15) := by decide
    have e : counter - thresh - k * thresh = counter - (k + 1) * thresh := by rw [Nat.add_mul]; omega
    rw [Nat.add_mul] at h
    simp only [envLoop]
    rw [if_pos (show counter > thresh by omega)]
    simp only [envFire]
    rw [if_neg hs]
    simp only
    rw [ih _ _ _ (by omega)]
    by_cases hd : c.env.direction = .up
    · simp only [hd, if_true, (clampVolume_step v).1, e, ends, BitVec.toNat_ofNat]
      rw [show min 15 (min 15 (v.toNat + 1) % 2 ^ 4 + k) = min 15 (v.toNat + (k + 1)) by omega]
      congr 2
      split_ifs <;> omega
    · simp only [hd, if_false, (clampVolume_step v).2, e, ends, BitVec.toNat_ofNat]
      rw [show (v.toNat - 1) % 2 ^ 4 - k = v.toNat - (k + 1) by omega]
      congr 2
      split_ifs <;> omega

/-- Everything `k` firings of step 0 do (R160 corner case 1). -/
theorem envLoop_rests {thresh : Nat} {c : Channel} (hs : c.env.step = 0) (k : Nat) (counter : Nat) (h : k * thresh < counter) :
    envLoop thresh k { c with env := { c.env with counter := counter } } =
      { c with env := { c.env with counter := counter - k * thresh } } := by
  induction k generalizing counter with
  | zero => simp [envLoop]
  | succ k ih =>
    rw [Nat.add_mul] at h
    simp only [envLoop]
    rw [if_pos (show counter > thresh by omega)]
    simp only [envFire]
    rw [if_pos hs]
    simp only
    rw [ih _ (by omega), show counter - thresh - k * thresh = counter - (k + 1) * thresh by rw [Nat.add_mul]; omega]

theorem envTickChannel_frame (thresh : Nat) (c : Channel) :
    envTickChannel thresh c = { c with
      volume := (envTickChannel thresh c).volume
      env := { c.env with
        counter := (envTickChannel thresh c).env.counter
        increment := (envTickChannel thresh c).env.increment } } := by
  unfold envTickChannel
  rw [envLoop_frame]

theorem envTickChannel_counter {thresh : Nat} (ht : 1 ≤ thresh) (c : Channel) :
    (envTickChannel thresh c).env.counter ≤ thresh :=
  envLoop_counter ht (Nat.le_refl _)

/-! ### Sweep -/

/-- Everything one firing of the sweep does. -/
theorem sweepFire_spec {s : State} (h : memWf s.mem = true) :
    memWf (sweepFire s).1.mem = true ∧
    (((sweepFire s).2 = true ∧ mirrorsOnly s (sweepFire s).1 ∧ (sweepFire s).1.square1.enabled = false) ∨
      ((sweepFire s).2 = false ∧ (sweepFire s).1.mem = s.mem ∧ (sweepFire s).1.square1.enabled = s.square1.enabled ∧
        (s.sweep.shift ≠ 0 → (sweepFire s).1.square1.frequency.toNat ≤ 2047) ∧
        (s.sweep.shift = 0 → (sweepFire s).1.square1.frequency = s.square1.frequency))) ∧
    (sweepFire s).1 = { s with
      mem := (sweepFire s).1.mem
      square1 := { s.square1 with
        enabled := (sweepFire s).1.square1.enabled
        frequency := (sweepFire s).1.square1.frequency
        frequencyIncrement := (sweepFire s).1.square1.frequencyIncrement } } := by
  unfold sweepFire
  split
  · rename_i hs
    simp only
    split
    · have hm : memWf (s.modCh .square1 fun c => { c with frequency := sweepTarget s }).mem = true := by simpa using h
      obtain ⟨h1, h2, h3⟩ := chanDisable_spec hm .square1
      refine ⟨h1, .inl ⟨rfl, ?_, ?_⟩, ?_⟩
      · simpa [mirrorsOnly, mirrors] using h2
      · rw [h3]; rfl
      · rfl
    · rename_i hn
      refine ⟨h, .inr ⟨rfl, rfl, rfl, fun _ => ?_, fun e => absurd e hs⟩, rfl⟩
      simp
      omega
  · rename_i hs
    split
    · obtain ⟨h1, h2, h3⟩ := chanDisable_spec h .square1
      exact ⟨h1, .inl ⟨rfl, h2, by rw [h3]; rfl⟩, rfl⟩
    · exact ⟨h, .inr ⟨rfl, rfl, rfl, fun e => absurd e hs, fun _ => rfl⟩, rfl⟩

theorem sweepLoop_of_le {s : State} (k : Nat) (killed : Bool) (h : s.sweep.counter ≤ s.params.thresh) :
    sweepLoop k s killed = (s, killed) := by
  cases k with
  | zero => rfl
  | succ k => simp only [sweepLoop]; rw [if_neg (by omega)]

theorem sweepFire_fixed (s : State) :
    (sweepFire s).1 = { s with mem := (sweepFire s).1.mem, square1 := (sweepFire s).1.square1 } := by
  unfold sweepFire
  split
  · simp only; split <;> rfl
  · split <;> rfl

theorem sweepFire_sweep (s : State) : (sweepFire s).1.sweep = s.sweep := by
  rw [sweepFire_fixed]

theorem sweepFire_params (s : State) : (sweepFire s).1.params = s.params := by
  rw [sweepFire_fixed]

/-- The sweep's loop ends with its condition false. -/
theorem sweepLoop_counter {s : State} (ht : 1 ≤ s.params.thresh) {k : Nat} (killed : Bool)
    (hk : firings s.params.thresh s.sweep.counter ≤ k) :
    (sweepLoop k s killed).1.sweep.counter ≤ (sweepLoop k s killed).1.params.thresh := by
  induction k generalizing s killed with
  | zero =>
    simp only [sweepLoop]
    by_contra h
    rw [firings_of_lt ht (by omega)] at hk
    omega
  | succ k ih =>
    simp only [sweepLoop]
    split
    · rename_i h
      rw [firings_of_lt ht h] at hk
      refine ih (by simpa [sweepFire_params] using ht) _ ?_
      simp only [sweepFire_params, sweepFire_sweep]
      omega
    · rename_i h
      exact Nat.le_of_not_lt h

/-- A property that a firing keeps whatever the sweep's counter holds, the sweep's tick keeps. -/
theorem sweepTick_induct {P : State → Prop} (hc : ∀ s n, P s → P { s with sweep := { s.sweep with counter := n } })
    (hf : ∀ s, P s → P (sweepFire s).1) {s : State} (h : P s) : P (sweepTick s).1 := by
  have key : ∀ k s killed, P s → P (sweepLoop k s killed).1 := by
    intro k
    induction k with
    | zero => intro s _ h; exact h
    | succ k ih =>
      intro s killed h
      simp only [sweepLoop]
      split
      · exact ih _ _ (hc _ _ (hf _ h))
      · exact h
  exact key _ _ _ (hc _ _ h)

/-- A sweep tick writes the NR52 mirror, Square1's record and the sweep, nothing else. -/
theorem sweepTick_fixed (s : State) :
    (sweepTick s).1 = { s with
      mem := (sweepTick s).1.mem, square1 := (sweepTick s).1.square1, sweep := (sweepTick s).1.sweep } := by
  refine sweepTick_induct (P := fun t => t = { s with mem := t.mem, square1 := t.square1, sweep := t.sweep })
    (fun t n h => ?_) (fun t h => ?_) rfl
  · rw [h]
  · rw [sweepFire_fixed, h]

theorem sweepTick_counter {s : State} (ht : 1 ≤ s.params.thresh) :
    (sweepTick s).1.sweep.counter ≤ (sweepTick s).1.params.thresh :=
  sweepLoop_counter (s := { s with sweep := { s.sweep with counter := s.sweep.counter + s.sweep.increment } }) ht _
    (Nat.le_refl _)

/-- A tick whose counter passes the threshold once is one firing. -/
theorem sweepTick_once {s : State} (ht : 1 ≤ s.params.thresh)
    (h1 : s.params.thresh < s.sweep.counter + s.sweep.increment)
    (h2 : s.sweep.counter + s.sweep.increment ≤ 2 * s.params.thresh) :
    let u : State := { s with sweep := { s.sweep with counter := s.sweep.counter + s.sweep.increment } }
    sweepTick s = ({ (sweepFire u).1 with sweep := { s.sweep with counter := u.sweep.counter - s.params.thresh } },
      (sweepFire u).2) := by
  unfold sweepTick
  simp only
  rw [firings_of_lt ht h1]
  simp only [sweepLoop]
  rw [if_pos h1, sweepLoop_of_le]
  · simp [sweepFire_sweep]
  · simp only [sweepFire_sweep, sweepFire_params]
    omega

/-! ### The sweep's firings in a row -/

/-- One firing with period and shift 0. -/
theorem sweepFire_idle {s : State} (hs : s.sweep.shift = 0) (hp : s.sweep.period = 0) : sweepFire s = (s, false) := by
  unfold sweepFire
  rw [if_neg (by simpa using hs), if_neg (by simpa using hp)]

/-- One firing with shift 0 and a nonzero period (R163). -/
theorem sweepFire_stops {s : State} (hs : s.sweep.shift = 0) (hp : s.sweep.period ≠ 0) :
    sweepFire s = (chanDisable .square1 s, true) := by
  unfold sweepFire
  rw [if_neg (by simpa using hs), if_pos hp]

/-- The frequency that firing `k` of a tick leaves (R161, R162, D47). -/
def sweptFrequency (s : State) (k : Nat) : Nat :=
  let delta := s.sweep.shadowFrequency.toNat / 2 ^ s.sweep.shift.toNat
  (s.square1.frequency.toNat + k * if s.sweep.direction = .increase then delta else 65536 - delta) % 65536

theorem sweepTarget_toNat (s : State) : (sweepTarget s).toNat = sweptFrequency s 1 := by
  unfold sweepTarget sweptFrequency
  simp only
  have hx := s.sweep.shadowFrequency.isLt
  cases s.sweep.direction <;> simp [BitVec.toNat_add, BitVec.toNat_sub, Nat.shiftRight_eq_div_pow]
  congr 1
  omega

/-- Everything one firing with a nonzero shift does (R161, R162). -/
theorem sweepFire_shifts {s : State} (w : memWf s.mem = true) (hs : s.sweep.shift ≠ 0) :
    ∃ u stopped, sweepFire s = (u, stopped) ∧ stopped = decide (2047 < sweptFrequency s 1) ∧ memWf u.mem = true ∧
      (stopped = true → mirrorsOnly s u) ∧ (stopped = false → u.mem = s.mem) ∧
      u = { s with
        mem := u.mem
        square1 := { s.square1 with
          enabled := s.square1.enabled && !stopped
          frequency := sweepTarget s
          frequencyIncrement :=
            if stopped = true then s.square1.frequencyIncrement else squareInc s.params (sweptFrequency s 1) } } := by
  unfold sweepFire
  rw [if_pos hs]
  simp only [← sweepTarget_toNat]
  split
  · rename_i h
    obtain ⟨w1, m1, e1⟩ := chanDisable_spec (s := s.modCh .square1 fun c => { c with frequency := sweepTarget s }) w .square1
    refine ⟨_, _, rfl, by simpa using h, w1, fun _ => m1, fun e => absurd e (by decide), ?_⟩
    rw [e1]
    simp [State.setCh, State.ch, State.modCh]
  · rename_i h
    refine ⟨_, _, rfl, by simpa using h, w, fun e => absurd e (by decide), fun _ => rfl, ?_⟩
    simp [State.setCh, State.ch, State.modCh]

theorem counter_minus {thresh : Nat} (x k : Nat) : x - thresh - k * thresh = x - (k + 1) * thresh := by
  rw [Nat.add_mul]
  omega

/-- Everything `k` firings with period and shift 0 do. -/
theorem sweepLoop_idle (k : Nat) {s : State} (hs : s.sweep.shift = 0) (hp : s.sweep.period = 0) (killed : Bool)
    (h : k * s.params.thresh < s.sweep.counter) :
    sweepLoop k s killed =
      ({ s with sweep := { s.sweep with counter := s.sweep.counter - k * s.params.thresh } }, killed) := by
  induction k generalizing s killed with
  | zero => simp [sweepLoop]
  | succ k ih =>
    rw [Nat.add_mul] at h
    simp only [sweepLoop]
    rw [if_pos (show s.sweep.counter > s.params.thresh by omega), sweepFire_idle hs hp]
    rw [ih (s := { s with sweep := { s.sweep with counter := s.sweep.counter - s.params.thresh } }) hs hp _
      (by simp only; omega)]
    simp only [Bool.or_false, counter_minus]

/-- Everything `k` firings with shift 0 and a nonzero period do (R163, D56). -/
theorem sweepLoop_stops (k : Nat) {s : State} (w : memWf s.mem = true) (hs : s.sweep.shift = 0) (hp : s.sweep.period ≠ 0)
    (killed : Bool) (h : k * s.params.thresh < s.sweep.counter) :
    let r := sweepLoop k s killed
    r.2 = (killed || decide (k ≠ 0)) ∧ (k ≠ 0 → mirrorsOnly s r.1) ∧
    r.1 = { s with
      mem := r.1.mem
      square1 := { s.square1 with enabled := s.square1.enabled && decide (k = 0) }
      sweep := { s.sweep with counter := s.sweep.counter - k * s.params.thresh } } := by
  induction k generalizing s killed with
  | zero => simp [sweepLoop]
  | succ k ih =>
    rw [Nat.add_mul] at h
    simp only [sweepLoop]
    rw [if_pos (show s.sweep.counter > s.params.thresh by omega), sweepFire_stops hs hp]
    obtain ⟨w1, m1, e1⟩ := chanDisable_spec w .square1
    have hsw : (chanDisable .square1 s).sweep = s.sweep := by rw [e1]; rfl
    have hpr : (chanDisable .square1 s).params = s.params := by rw [e1]; rfl
    obtain ⟨a, b, d⟩ := ih (s := { chanDisable .square1 s with
        sweep := { (chanDisable .square1 s).sweep with counter := (chanDisable .square1 s).sweep.counter - s.params.thresh } })
      w1 (by rw [← hs, ← hsw]) (by rw [← hsw] at hp; exact hp) (killed || true) (by simp only [hsw, hpr]; omega)
    refine ⟨by rw [a]; simp, fun _ => ?_, ?_⟩
    · by_cases hk : k = 0
      · subst hk; exact m1
      · exact mirrorsOnly_trans m1 (b hk)
    · rw [d]
      simp only [hsw, hpr, counter_minus]
      rw [e1]
      simp [State.setCh, State.ch, State.modCh]

/-- Everything `k` firings with a nonzero shift do (R161, R162, D56): the loop goes on after a disable. -/
theorem sweepLoop_shifts (k : Nat) {s : State} (w : memWf s.mem = true) (hs : s.sweep.shift ≠ 0) (killed : Bool)
    (h : k * s.params.thresh < s.sweep.counter) :
    let r := sweepLoop k s killed
    ∃ stopped : Bool, (stopped = true ↔ ∃ j, 1 ≤ j ∧ j ≤ k ∧ 2047 < sweptFrequency s j) ∧ r.2 = (killed || stopped) ∧
    (stopped = true → mirrorsOnly s r.1) ∧ (stopped = false → r.1.mem = s.mem) ∧
    r.1 = { s with
      mem := r.1.mem
      square1 := { s.square1 with
        enabled := s.square1.enabled && !stopped
        frequency := BitVec.ofNat 16 (sweptFrequency s k)
        frequencyIncrement := r.1.square1.frequencyIncrement }
      sweep := { s.sweep with counter := s.sweep.counter - k * s.params.thresh } } ∧
    (∀ j, 1 ≤ j → j ≤ k → sweptFrequency s j ≤ 2047 → (∀ h, j < h → h ≤ k → 2047 < sweptFrequency s h) →
      r.1.square1.frequencyIncrement = squareInc s.params (sweptFrequency s j)) ∧
    ((∀ j, 1 ≤ j → j ≤ k → 2047 < sweptFrequency s j) →
      r.1.square1.frequencyIncrement = s.square1.frequencyIncrement) := by
  induction k generalizing s killed with
  | zero =>
    have e : BitVec.ofNat 16 (sweptFrequency s 0) = s.square1.frequency := by
      apply BitVec.eq_of_toNat_eq
      simp only [sweptFrequency, BitVec.toNat_ofNat, Nat.zero_mul, Nat.add_zero]
      have := s.square1.frequency.isLt
      omega
    refine ⟨false, ⟨fun e => absurd e (by decide), fun ⟨j, h1, h2, _⟩ => absurd h1 (by omega)⟩, ?_⟩
    simp only [sweepLoop, Bool.or_false, e]
    exact ⟨trivial, fun e => absurd e (by decide), fun _ => trivial, by simp, fun j h1 h2 => absurd h1 (by omega),
      fun _ => trivial⟩
  | succ k ih =>
    rw [Nat.add_mul] at h
    simp only [sweepLoop]
    obtain ⟨u, kd, hu, iu, wu, mu, du, eu⟩ := sweepFire_shifts w hs
    rw [if_pos (show s.sweep.counter > s.params.thresh by omega), hu]
    have hsw : u.sweep = s.sweep := by rw [eu]
    have hpr : u.params = s.params := by rw [eu]
    have hfr : u.square1.frequency = sweepTarget s := by rw [eu]
    have hen : u.square1.enabled = (s.square1.enabled && !kd) := by rw [eu]
    have hin : u.square1.frequencyIncrement =
        if kd = true then s.square1.frequencyIncrement else squareInc s.params (sweptFrequency s 1) := by rw [eu]
    have ht : ∀ j, sweptFrequency
        { u with sweep := { u.sweep with counter := u.sweep.counter - s.params.thresh } } j = sweptFrequency s (j + 1) := by
      intro j
      simp only [sweptFrequency, hfr, sweepTarget_toNat, hsw, Nat.add_mul]
      omega
    have key := ih (s := { u with sweep := { u.sweep with counter := u.sweep.counter - s.params.thresh } }) wu
      (by rw [← hsw] at hs; exact hs) (killed || kd) (by simp only [hsw, hpr]; omega)
    simp only [ht] at key
    obtain ⟨dd, hd, a, b, c, d, e, f⟩ := key
    refine ⟨kd || dd, ?_, ?_, ?_, ?_, ?_, ?_, ?_⟩
    · rw [Bool.or_eq_true, hd, iu, decide_eq_true_eq]
      constructor
      · rintro (h3 | ⟨j, h1, h2, h3⟩)
        · exact ⟨1, by omega, by omega, h3⟩
        · exact ⟨j + 1, by omega, by omega, h3⟩
      · rintro ⟨j, h1, h2, h3⟩
        by_cases hj : j = 1
        · subst hj; exact .inl h3
        · exact .inr ⟨j - 1, by omega, by omega, by rwa [show j - 1 + 1 = j by omega]⟩
    · rw [a, Bool.or_assoc]
    · intro hk
      cases dd
      · refine mirrorsOnly_congr (c rfl) (fun i => ?_) (mu (by simpa using hk))
        rw [d]
        cases i <;> simp
      · cases kd
        · exact mirrorsOnly_of_mem (du rfl) (b rfl)
        · exact mirrorsOnly_trans (mu rfl) (b rfl)
    · intro hk
      have h2 : kd = false ∧ dd = false := by simpa using hk
      rw [c h2.2]
      exact du h2.1
    · rw [d]
      simp only [hsw, hpr, hen, counter_minus]
      rw [eu]
      simp [Bool.and_assoc]
    · intro j h1 h2 h3 h4
      by_cases hj : j = 1
      · subst hj
        rw [f (fun j a b => h4 (j + 1) (by omega) (by omega))]
        simp only [hin, iu]
        rw [if_neg (by simp; omega)]
      · rw [e (j - 1) (by omega) (by omega) (by rwa [show j - 1 + 1 = j by omega])
            (fun h a b => h4 (h + 1) (by omega) (by omega)),
          show j - 1 + 1 = j by omega, hpr]
    · intro h1
      rw [f (fun j a b => h1 (j + 1) (by omega) (by omega))]
      simp only [hin, iu]
      rw [if_pos (by simp; exact h1 1 (by omega) (by omega))]

/-! ### Length -/

/-- Everything a length span does, in its three cases (R170). -/
theorem lengthSpan_spec {s : State} (h : memWf s.mem = true) (i : Ch) (n : Nat) :
    (lengthSpan i n s = (s, n)) ∨
    (∃ x, x ≤ s.params.thresh ∧
      lengthSpan i n s = (s.modCh i fun c => { c with len := { c.len with counter := x } }, n)) ∨
    (∃ k, k ≤ n ∧ ∃ t, lengthSpan i n s = (t, k) ∧ memWf t.mem = true ∧ mirrorsOnly s t ∧
      t = { s.modCh i (fun c => { c with enabled := false, len := { c.len with counter := 0 } }) with mem := t.mem }) := by
  unfold lengthSpan
  simp only
  split
  · exact .inl rfl
  · rename_i hl
    rw [not_or] at hl
    split
    · rename_i hk
      refine .inr (.inl ⟨(s.ch i).len.counter + n * (s.ch i).len.increment, ?_, ?_⟩)
      · have h1 : (n + 1) * (s.ch i).len.increment ≤ s.params.thresh - (s.ch i).len.counter :=
          (Nat.le_div_iff_mul_le (Nat.pos_of_ne_zero hl.2)).1 hk
        have h2 : 0 < (s.ch i).len.increment := Nat.pos_of_ne_zero hl.2
        rw [Nat.add_mul] at h1
        omega
      · cases i <;> rfl
    · rename_i hk
      refine .inr (.inr ⟨_, by omega, _, rfl, ?_⟩)
      have hm : memWf (s.modCh i fun c => { c with len := { (s.ch i).len with counter := 0 } }).mem = true := by
        simpa using h
      obtain ⟨h1, h2, h3⟩ := chanDisable_spec hm i
      refine ⟨h1, ?_, ?_⟩
      · obtain ⟨ha, hb⟩ := h2
        refine ⟨?_, fun b hne => by rw [hb b hne]; simp⟩
        unfold mirrors at ha ⊢
        rw [ha]
        simp
      · cases i <;> rfl

end Sys2Proof.Machine
end

