-- ==== Sys2Proof/Laws/Synth.lean ====
section
/-! SUPPORT. The phase step: its bound is the number of its crossings, what it leaves and where its mean lies (R193, R194), and what
one generation step of a channel leaves of the state. -/

namespace Sys2Proof.Machine

open Sys2Proof.Safety

/-! ### The phase step -/

/-- The first crossing taken first. -/
theorem advanced_succ {α : Type} (advance : α → Int → α × Int) (voice : α) (level : Int) (n : Nat) :
    advanced advance voice level (n + 1) = advanced advance (advance voice level).1 (advance voice level).2 n := by
  induction n with
  | zero => rfl
  | succ n ih =>
    rw [advanced, ih]
    rfl

/-- What the phase loop leaves when its bound is not below the number `j` of crossings. -/
theorem phaseLoop_spec {α : Type} {thresh inc : Nat} {advance : α → Int → α × Int} {k j : Nat}
    {pos acc : Int} {counter : Nat} {level : Int} {voice : α} (hj : j ≤ k) (hp : pos ≤ inc)
    (h1 : j = 0 ∨ (j * thresh : Int) < counter + (inc - pos)) (h2 : (counter + (inc - pos) : Int) ≤ (j + 1) * thresh) :
    let r := phaseLoop thresh inc advance k pos acc counter level voice
    (r.voice, r.level) = advanced advance voice level j ∧ (r.counter : Int) = counter + (inc - pos) - j * thresh := by
  induction k generalizing j pos acc counter level voice with
  | zero =>
    obtain rfl : j = 0 := by omega
    simp only [phaseLoop, advanced]
    refine ⟨trivial, ?_⟩
    omega
  | succ k ih =>
    simp only [phaseLoop]
    cases j with
    | zero =>
      rw [if_neg (by omega)]
      simp only [advanced]
      refine ⟨trivial, ?_⟩
      omega
    | succ j =>
      have hc : (counter : Int) + (inc - pos) > thresh := by
        rcases h1 with h1 | h1
        · omega
        · push_cast at h1
          nlinarith
      rw [if_pos hc, advanced_succ]
      have e : (inc : Int) - (inc - (counter + (inc - pos) - thresh)) = counter + (inc - pos) - thresh := by omega
      have key := ih (acc := acc + (inc - (counter + (inc - pos) - thresh) - pos) * level) (counter := 0)
        (pos := inc - (counter + (inc - pos) - thresh)) (level := (advance voice level).2)
        (voice := (advance voice level).1) (j := j) (by omega) (by omega)
        (by
          right
          rcases h1 with h1 | h1
          · omega
          · rw [e]; push_cast at h1 ⊢; linarith)
        (by rw [e]; push_cast at h2 ⊢; linarith)
      refine ⟨key.1, ?_⟩
      rw [key.2, e]
      push_cast
      linarith

/-- Where crossing `j` of `k` stands in a step that has come to `pos` with the accumulator at `counter`; the end of the step
stands as crossing `k + 1`. -/
def crossingAt (thresh inc k : Nat) (pos : Int) (counter : Nat) (j : Nat) : Int :=
  if j = 0 then pos else if j ≤ k then pos + j * thresh - counter else inc

/-- The mean of a phase loop with `j` crossings: the area so far and each level times the length it is held, over the increment
(R193). -/
theorem phaseLoop_mean {α : Type} {thresh inc : Nat} {advance : α → Int → α × Int} {k j : Nat}
    {pos acc : Int} {counter : Nat} {level : Int} {voice : α} (hj : j ≤ k) (hp : pos ≤ inc)
    (h1 : j = 0 ∨ (j * thresh : Int) < counter + (inc - pos)) (h2 : (counter + (inc - pos) : Int) ≤ (j + 1) * thresh) :
    (phaseLoop thresh inc advance k pos acc counter level voice).mean =
      tdiv (acc + ∑ i ∈ Finset.range (j + 1),
        (crossingAt thresh inc j pos counter (i + 1) - crossingAt thresh inc j pos counter i) *
          (advanced advance voice level i).2) inc := by
  induction k generalizing j pos acc counter level voice with
  | zero =>
    obtain rfl : j = 0 := by omega
    simp [phaseLoop, advanced, crossingAt]
  | succ k ih =>
    simp only [phaseLoop]
    cases j with
    | zero =>
      rw [if_neg (by omega)]
      simp [advanced, crossingAt]
    | succ j =>
      have hc : (counter : Int) + (inc - pos) > thresh := by
        rcases h1 with h1 | h1
        · omega
        · push_cast at h1
          nlinarith
      rw [if_pos hc, Finset.sum_range_succ']
      have e : (inc : Int) - (inc - (counter + (inc - pos) - thresh)) = counter + (inc - pos) - thresh := by omega
      rw [ih (j := j) (by omega) (by omega)
        (by
          right
          rcases h1 with h1 | h1
          · omega
          · rw [e]; push_cast at h1 ⊢; linarith)
        (by rw [e]; push_cast at h2 ⊢; linarith)]
      congr 1
      have e0 : crossingAt thresh inc (j + 1) pos counter (0 + 1) - crossingAt thresh inc (j + 1) pos counter 0 =
          (inc : Int) - (counter + (inc - pos) - thresh) - pos := by
        simp [crossingAt]; ring
      have es : ∀ i, crossingAt thresh inc (j + 1) pos counter (i + 1) =
          crossingAt thresh inc j (inc - (counter + (inc - pos) - thresh)) 0 i := by
        intro i
        unfold crossingAt
        by_cases hi : i = 0
        · subst hi; simp; ring
        · simp only [hi, if_false, Nat.succ_ne_zero, Nat.add_le_add_iff_right]
          split
          · push_cast; ring
          · rfl
      rw [e0]
      simp only [es, advanced_succ advance voice level]
      simp only [show advanced advance voice level 0 = (voice, level) from rfl]
      ring

/-- The number of crossings of a phase step (R194 (2)) is its loop's bound. -/
theorem phaseStep_spec {α : Type} {thresh inc : Nat} {advance : α → Int → α × Int} {counter : Nat} {level : Int} {voice : α}
    {j : Nat} (ht : 1 ≤ thresh) (hi : inc ≠ 0) (h1 : j = 0 ∨ j * thresh < counter + inc)
    (h2 : counter + inc ≤ (j + 1) * thresh) :
    let r := phaseStep thresh inc advance counter level voice
    (r.voice, r.level) = advanced advance voice level j ∧ r.counter = counter + inc - j * thresh := by
  unfold phaseStep
  rw [if_neg hi]
  have hj : j ≤ (inc + counter - 1) / thresh := by
    rw [Nat.le_div_iff_mul_le (by omega)]
    rcases h1 with h1 | h1
    · subst h1; omega
    · omega
  have h2' : ((counter : Int) + (inc - 0)) ≤ ((j : Int) + 1) * thresh := by
    have : ((counter + inc : Nat) : Int) ≤ (((j + 1) * thresh : Nat) : Int) := by exact_mod_cast h2
    push_cast at this
    linarith
  have h1' : j = 0 ∨ (j * thresh : Int) < counter + (inc - 0) := by
    rcases h1 with h1 | h1
    · exact .inl h1
    · right
      have : ((j * thresh : Nat) : Int) < ((counter + inc : Nat) : Int) := by exact_mod_cast h1
      push_cast at this
      linarith
  have key := phaseLoop_spec (advance := advance) (acc := 0) (level := level) (voice := voice) hj
    (by omega : (0 : Int) ≤ inc) h1' h2'
  refine ⟨key.1, ?_⟩
  have := key.2
  omega

/-- From any counter some number of crossings is the step's. -/
theorem crossings_exists {thresh : Nat} (ht : 1 ≤ thresh) (x : Nat) :
    ∃ j, (j = 0 ∨ j * thresh < x) ∧ x ≤ (j + 1) * thresh := by
  refine ⟨(x - 1) / thresh, ?_, ?_⟩
  · rcases Nat.eq_zero_or_pos ((x - 1) / thresh) with h | h
    · exact .inl h
    · right
      have := Nat.div_mul_le_self (x - 1) thresh
      have : 0 < x - 1 := by
        by_contra h0
        rw [Nat.eq_zero_of_not_pos h0, Nat.zero_div] at h
        omega
      omega
  · have := Nat.lt_div_mul_add (a := x - 1) (b := thresh) (by omega)
    rw [Nat.add_mul]
    omega

/-- The accumulator ends at most at the threshold (R194 (4)). -/
theorem phaseStep_counter {α : Type} {thresh inc : Nat} (advance : α → Int → α × Int) {counter : Nat} (level : Int) (voice : α)
    (ht : 1 ≤ thresh) (hc : counter ≤ thresh) : (phaseStep thresh inc advance counter level voice).counter ≤ thresh := by
  by_cases hi : inc = 0
  · unfold phaseStep; rw [if_pos hi]; exact hc
  · obtain ⟨j, h1, h2⟩ := crossings_exists ht (counter + inc)
    have := (phaseStep_spec (advance := advance) (level := level) (voice := voice) ht hi h1 h2).2
    rw [this]
    rw [Nat.add_mul] at h2
    omega

/-- A property that every crossing keeps, the phase step keeps. -/
theorem phaseStep_induct {α : Type} {P : α → Int → Prop} {thresh inc : Nat} {advance : α → Int → α × Int} (counter : Nat)
    {level : Int} {voice : α} (hs : ∀ v l, P v l → P (advance v l).1 (advance v l).2) (h : P voice level) :
    P (phaseStep thresh inc advance counter level voice).voice (phaseStep thresh inc advance counter level voice).level := by
  have key : ∀ k pos acc counter level voice, P voice level →
      P (phaseLoop thresh inc advance k pos acc counter level voice).voice
        (phaseLoop thresh inc advance k pos acc counter level voice).level := by
    intro k
    induction k with
    | zero => intro _ _ _ _ _ h; exact h
    | succ k ih =>
      intro pos acc counter level voice h
      simp only [phaseLoop]
      split
      · exact ih _ _ _ _ _ (hs _ _ h)
      · exact h
  unfold phaseStep
  split
  · exact h
  · exact key _ _ _ _ _ _ h

/-- A quotient truncated toward zero lies between two integer bounds of the exact one. -/
theorem tdiv_between {x lo hi : Int} {n : Nat} (hn : n ≠ 0) (h1 : lo * n ≤ x) (h2 : x ≤ hi * n) :
    lo ≤ tdiv x n ∧ tdiv x n ≤ hi := by
  have hp : (0 : Int) < n := by omega
  unfold tdiv
  rcases Int.lt_or_le x 0 with h | h
  · have e : Int.tdiv x n = -((-x) / (n : Int)) := by
      rw [← Int.tdiv_eq_ediv_of_nonneg (by omega), Int.neg_tdiv, Int.neg_neg]
    have a := Int.ediv_le_of_le_mul hp (show -x ≤ -lo * n by linarith)
    have b := (Int.le_ediv_iff_mul_le hp).2 (show -hi * n ≤ -x by linarith)
    rw [e]
    omega
  · rw [Int.tdiv_eq_ediv_of_nonneg h]
    exact ⟨(Int.le_ediv_iff_mul_le hp).2 h1, Int.ediv_le_of_le_mul hp h2⟩

end Sys2Proof.Machine
end

