-- ==== Sys2Proof/Laws/Mixer.lean ====
section
/-! SUPPORT. What the parts of `generate` may change: one relation that every operation on a channel meets, and the driver's loop
(R230 to R237). -/

namespace Sys2Proof.Machine

open Sys2Proof.Safety

/-! ### What the processing of one channel may change -/

/-- The processing of channel `i` led from `s` to `t`: the other channels, the parameters, the host's switches and port and the
mixer's fields are as before, of channel `i` only what no rule fixes has moved, and of the register window NR52's mirror. -/
structure Moved (i : Ch) (s t : State) : Prop where
  fixed : t = { s with
    mem := t.mem, square1 := t.square1, square2 := t.square2, wave := t.wave, noise := t.noise, duty1 := t.duty1,
    duty2 := t.duty2, samplePosition := t.samplePosition, noiseVoice := t.noiseVoice, sweep := t.sweep }
  others : ∀ j, j ≠ i → t.ch j = s.ch j
  kept : channelKept (s.ch i) (t.ch i)
  waveKept : i = .wave → t.wave.volume = s.wave.volume ∧ t.wave.env = s.wave.env
  frequency : i ≠ .square1 → (t.ch i).frequency = (s.ch i).frequency
  sweep : t.sweep = { s.sweep with counter := t.sweep.counter }
  pattern1 : t.duty1.dutyPattern = s.duty1.dutyPattern
  pattern2 : t.duty2.dutyPattern = s.duty2.dutyPattern
  noiseForm : t.noiseVoice.widthMode = s.noiseVoice.widthMode ∧ t.noiseVoice.divisorCode = s.noiseVoice.divisorCode
  square1Only : i ≠ .square1 → t.duty1 = s.duty1 ∧ t.sweep = s.sweep
  square2Only : i ≠ .square2 → t.duty2 = s.duty2
  waveOnly : i ≠ .wave → t.samplePosition = s.samplePosition
  noiseOnly : i ≠ .noise → t.noiseVoice = s.noiseVoice
  window : memWf s.mem = true → memWf t.mem = true ∧ (∀ a, a ≠ 0xFF26 → t.reg a = s.reg a) ∧
    ((t.reg 0xFF26 = s.reg 0xFF26 ∧ (t.ch i).enabled = (s.ch i).enabled) ∨ mirrors s t)

theorem channelKept_refl (c : Channel) : channelKept c c := by
  simp [channelKept]

theorem channelKept_trans {a b c : Channel} (h : channelKept a b) (k : channelKept b c) : channelKept a c := by
  simp only [channelKept] at h k ⊢
  obtain ⟨h1, h2, h3, h4, h5, h6, h7, h8, h9, h10⟩ := h
  obtain ⟨k1, k2, k3, k4, k5, k6, k7, k8, k9, k10⟩ := k
  exact ⟨fun e => h1 (k1 e), k2.trans h2, k3.trans h3, k4.trans h4, k5.trans h5, k6.trans h6, k7.trans h7, k8.trans h8,
    k9.trans h9, k10.trans h10⟩

/-- The NR52 byte over two parts of `generate`. -/
theorem mirrorKept_trans {s u t : State}
    (h : (u.reg 0xFF26 = s.reg 0xFF26 ∧ ∀ i, (u.ch i).enabled = (s.ch i).enabled) ∨ mirrors s u)
    (k : (t.reg 0xFF26 = u.reg 0xFF26 ∧ ∀ i, (t.ch i).enabled = (u.ch i).enabled) ∨ mirrors u t) :
    (t.reg 0xFF26 = s.reg 0xFF26 ∧ ∀ i, (t.ch i).enabled = (s.ch i).enabled) ∨ mirrors s t := by
  rcases h with ⟨hr, he⟩ | h <;> rcases k with ⟨kr, ke⟩ | k
  · exact .inl ⟨kr.trans hr, fun i => (ke i).trans (he i)⟩
  · right
    unfold mirrors at k ⊢
    rw [k, hr]
  · right
    have e1 := ke .square1; have e2 := ke .square2; have e3 := ke .wave; have e4 := ke .noise
    simp only [State.ch_square1, State.ch_square2, State.ch_wave, State.ch_noise] at e1 e2 e3 e4
    unfold mirrors at h ⊢
    rw [kr, h, e1, e2, e3, e4]
  · exact .inr (mirrors_trans h k)

theorem Moved.refl (i : Ch) (s : State) : Moved i s s where
  fixed := rfl
  others _ _ := rfl
  kept := channelKept_refl _
  waveKept _ := ⟨rfl, rfl⟩
  frequency _ := rfl
  sweep := rfl
  pattern1 := rfl
  pattern2 := rfl
  noiseForm := ⟨rfl, rfl⟩
  square1Only _ := ⟨rfl, rfl⟩
  square2Only _ := rfl
  waveOnly _ := rfl
  noiseOnly _ := rfl
  window h := ⟨h, fun _ _ => rfl, .inl ⟨rfl, rfl⟩⟩

theorem Moved.enabled_eq {i : Ch} {s t : State} (h : Moved i s t) (e : (t.ch i).enabled = (s.ch i).enabled) :
    ∀ j, (t.ch j).enabled = (s.ch j).enabled := fun j => by
  by_cases hj : j = i
  · rw [hj, e]
  · rw [h.others j hj]

theorem Moved.trans {i : Ch} {s u t : State} (h : Moved i s u) (k : Moved i u t) : Moved i s t where
  fixed := by
    have e := k.fixed
    rw [h.fixed] at e
    exact e
  others j hj := (k.others j hj).trans (h.others j hj)
  kept := channelKept_trans h.kept k.kept
  waveKept e := ⟨(k.waveKept e).1.trans (h.waveKept e).1, (k.waveKept e).2.trans (h.waveKept e).2⟩
  frequency e := (k.frequency e).trans (h.frequency e)
  sweep := by
    have e := k.sweep
    rw [h.sweep] at e
    exact e
  pattern1 := k.pattern1.trans h.pattern1
  pattern2 := k.pattern2.trans h.pattern2
  noiseForm := ⟨k.noiseForm.1.trans h.noiseForm.1, k.noiseForm.2.trans h.noiseForm.2⟩
  square1Only e := ⟨(k.square1Only e).1.trans (h.square1Only e).1, (k.square1Only e).2.trans (h.square1Only e).2⟩
  square2Only e := (k.square2Only e).trans (h.square2Only e)
  waveOnly e := (k.waveOnly e).trans (h.waveOnly e)
  noiseOnly e := (k.noiseOnly e).trans (h.noiseOnly e)
  window w := by
    obtain ⟨hw, hr, hn⟩ := h.window w
    obtain ⟨kw, kr, kn⟩ := k.window hw
    exact ⟨kw, fun a ha => (kr a ha).trans (hr a ha),
      (mirrorKept_trans (hn.imp (fun e => ⟨e.1, h.enabled_eq e.2⟩) id) (kn.imp (fun e => ⟨e.1, k.enabled_eq e.2⟩) id)).imp
        (fun e => ⟨e.1, e.2 i⟩) id⟩

/-- A change of channel `i`'s record that keeps what `channelKept` keeps and the `enabled` bit. -/
theorem Moved.modCh {i : Ch} {s : State} {f : Channel → Channel} (hk : channelKept (s.ch i) (f (s.ch i)))
    (he : (f (s.ch i)).enabled = (s.ch i).enabled) (hf : (f (s.ch i)).frequency = (s.ch i).frequency)
    (hw : i = .wave → (f s.wave).volume = s.wave.volume ∧ (f s.wave).env = s.wave.env) : Moved i s (s.modCh i f) where
  fixed := by cases i <;> rfl
  others j hj := State.ch_modCh_ne s f hj
  kept := by rw [State.ch_modCh_same]; exact hk
  waveKept e := by subst e; exact hw rfl
  frequency _ := by rw [State.ch_modCh_same]; exact hf
  sweep := by cases i <;> rfl
  pattern1 := by cases i <;> rfl
  pattern2 := by cases i <;> rfl
  noiseForm := by cases i <;> exact ⟨rfl, rfl⟩
  square1Only _ := by cases i <;> exact ⟨rfl, rfl⟩
  square2Only _ := by cases i <;> rfl
  waveOnly _ := by cases i <;> rfl
  noiseOnly _ := by cases i <;> rfl
  window h := ⟨by simpa using h, fun _ _ => by simp, .inl ⟨by simp, by rw [State.ch_modCh_same]; exact he⟩⟩

/-- A disabled channel. -/
theorem Moved.chanDisable (i : Ch) (s : State) : Moved i s (chanDisable i s) where
  fixed := by cases i <;> rfl
  others j hj := by cases i <;> cases j <;> first | rfl | exact absurd rfl hj
  kept := by cases i <;> simp [channelKept, Machine.chanDisable, updateMirror, State.modCh, State.setCh, State.setReg]
  waveKept e := by subst e; exact ⟨rfl, rfl⟩
  frequency _ := by cases i <;> rfl
  sweep := by cases i <;> rfl
  pattern1 := by cases i <;> rfl
  pattern2 := by cases i <;> rfl
  noiseForm := by cases i <;> exact ⟨rfl, rfl⟩
  square1Only _ := by cases i <;> exact ⟨rfl, rfl⟩
  square2Only _ := by cases i <;> rfl
  waveOnly _ := by cases i <;> rfl
  noiseOnly _ := by cases i <;> rfl
  window h := by
    obtain ⟨h1, h2, _⟩ := chanDisable_spec h i
    exact ⟨h1, h2.2, .inr h2.1⟩

theorem Moved.recomputeIncrement (i : Ch) (s : State) : Moved i s (recomputeIncrement i s) :=
  Moved.modCh (by simp [channelKept]) rfl rfl (fun _ => ⟨rfl, rfl⟩)

theorem Moved.lengthSpan (i : Ch) (n : Nat) (s : State) : Moved i s (lengthSpan i n s).1 := by
  have h0 : ∀ x, Moved i s (s.modCh i fun c => { c with len := { (s.ch i).len with counter := x } }) := fun x =>
    Moved.modCh (by simp [channelKept]) rfl rfl (fun _ => ⟨rfl, rfl⟩)
  unfold Machine.lengthSpan
  simp only
  split
  · exact Moved.refl i s
  · split
    · exact h0 _
    · exact (h0 0).trans (Moved.chanDisable i _)

theorem Moved.envTick {i : Ch} (hi : i ≠ .wave) (s : State) : Moved i s (envTick i s) := by
  refine Moved.modCh ?_ ?_ ?_ (fun e => absurd e hi)
  · rw [envTickChannel_frame]; simp [channelKept]
  · rw [envTickChannel_frame]
  · rw [envTickChannel_frame]

theorem Moved.sweepCounter (s : State) (n : Nat) :
    Moved .square1 s { s with sweep := { s.sweep with counter := n } } where
  fixed := rfl
  others j _ := by cases j <;> rfl
  kept := channelKept_refl _
  waveKept e := by cases e
  frequency e := absurd rfl e
  sweep := rfl
  pattern1 := rfl
  pattern2 := rfl
  noiseForm := ⟨rfl, rfl⟩
  square1Only e := absurd rfl e
  square2Only _ := rfl
  waveOnly _ := rfl
  noiseOnly _ := rfl
  window h := ⟨h, fun _ _ => rfl, .inl ⟨rfl, rfl⟩⟩

/-- A change of Square1's frequency and increment. -/
theorem Moved.square1Frequency (s : State) (f : BitVec 16) (n : Nat) :
    Moved .square1 s { s with square1 := { s.square1 with frequency := f, frequencyIncrement := n } } where
  fixed := rfl
  others j hj := by cases j <;> first | rfl | exact absurd rfl hj
  kept := by simp [channelKept]
  waveKept e := by cases e
  frequency e := absurd rfl e
  sweep := rfl
  pattern1 := rfl
  pattern2 := rfl
  noiseForm := ⟨rfl, rfl⟩
  square1Only e := absurd rfl e
  square2Only _ := rfl
  waveOnly _ := rfl
  noiseOnly _ := rfl
  window h := ⟨h, fun _ _ => rfl, .inl ⟨rfl, rfl⟩⟩

theorem Moved.sweepFire (s : State) : Moved .square1 s (sweepFire s).1 := by
  unfold Machine.sweepFire
  split
  · simp only
    split
    · exact (Moved.square1Frequency s (sweepTarget s) s.square1.frequencyIncrement).trans (Moved.chanDisable .square1 _)
    · exact Moved.square1Frequency s (sweepTarget s) _
  · split
    · exact Moved.chanDisable .square1 s
    · exact Moved.refl .square1 s

theorem Moved.sweepTick (s : State) : Moved .square1 s (sweepTick s).1 :=
  sweepTick_induct (P := fun t => Moved .square1 s t) (fun _ n h => h.trans (Moved.sweepCounter _ n))
    (fun _ h => h.trans (Moved.sweepFire _)) (Moved.refl .square1 s)

theorem Moved.squarePhase (q : Sq) (s : State) : Moved q.ch s (squarePhase q s).1 := by
  have h1 : ∀ n l, Moved q.ch s (s.setCh q.ch ((s.ch q.ch).withPhase n l)) := fun n l =>
    Moved.modCh (f := fun c => c.withPhase n l) (by simp [channelKept, Channel.withPhase]) rfl rfl
      (by cases q <;> intro e <;> cases e)
  have h2 : ∀ (s : State) (d : SquareVoice), d.dutyPattern = (s.duty q).dutyPattern → Moved q.ch s (s.setDuty q d) := by
    intro s d hd
    cases q
    all_goals exact
      { fixed := rfl
        others := fun j _ => by cases j <;> rfl
        kept := channelKept_refl _
        waveKept := fun e => by cases e
        frequency := fun _ => rfl
        sweep := rfl
        pattern1 := by first | exact hd | rfl
        pattern2 := by first | exact hd | rfl
        noiseForm := ⟨rfl, rfl⟩
        square1Only := fun e => by first | exact ⟨rfl, rfl⟩ | exact absurd rfl e
        square2Only := fun e => by first | rfl | exact absurd rfl e
        waveOnly := fun _ => rfl
        noiseOnly := fun _ => rfl
        window := fun h => ⟨h, fun _ _ => rfl, .inl ⟨rfl, rfl⟩⟩ }
  unfold Machine.squarePhase
  refine (h1 _ _).trans (h2 _ _ ?_)
  have : ∀ (u : State) (c : Channel), ((u.setCh q.ch c).duty q).dutyPattern = (u.duty q).dutyPattern := by
    intro u c; cases q <;> rfl
  rw [this]
  exact phaseStep_induct (P := fun (d : SquareVoice) _ => d.dutyPattern = (s.duty q).dutyPattern) _ (fun _ _ h => h) rfl

theorem Moved.squareStep (q : Sq) (s : State) : Moved q.ch s (squareStep q s).1 := by
  unfold Machine.squareStep
  cases q
  · simp only
    split
    · exact (Moved.envTick (by decide) s).trans (Moved.sweepTick _)
    · exact ((Moved.envTick (by decide) s).trans (Moved.sweepTick _)).trans (Moved.squarePhase .one _)
  · exact (Moved.envTick (by decide) s).trans (Moved.squarePhase .two _)

theorem Moved.waveStep (s : State) : Moved .wave s (waveStep s).1 where
  fixed := rfl
  others j hj := by cases j <;> first | rfl | exact absurd rfl hj
  kept := by simp [channelKept, Machine.waveStep, Channel.withPhase]
  waveKept _ := ⟨rfl, rfl⟩
  frequency _ := rfl
  sweep := rfl
  pattern1 := rfl
  pattern2 := rfl
  noiseForm := ⟨rfl, rfl⟩
  square1Only _ := ⟨rfl, rfl⟩
  square2Only _ := rfl
  waveOnly e := absurd rfl e
  noiseOnly _ := rfl
  window h := ⟨h, fun _ _ => rfl, .inl ⟨rfl, rfl⟩⟩

theorem Moved.noiseStep (s : State) : Moved .noise s (noiseStep s).1 := by
  refine (Moved.envTick (by decide) s).trans ?_
  have form := phaseStep_induct (thresh := (Machine.envTick .noise s).params.thresh)
    (inc := (Machine.envTick .noise s).noise.frequencyIncrement) (advance := noiseAdvance (Machine.envTick .noise s).params)
    (P := fun (v : NoiseVoice) _ => v.widthMode = s.noiseVoice.widthMode ∧ v.divisorCode = s.noiseVoice.divisorCode)
    (Machine.envTick .noise s).noise.frequencyCounter (level := (Machine.envTick .noise s).noise.currentLevel)
    (voice := (Machine.envTick .noise s).noiseVoice) (fun _ _ h => h) ⟨rfl, rfl⟩
  exact
    { fixed := rfl
      others := fun j hj => by cases j <;> first | rfl | exact absurd rfl hj
      kept := by simp [channelKept, Machine.noiseStep, Channel.withPhase]
      waveKept := fun e => by cases e
      frequency := fun _ => rfl
      sweep := rfl
      pattern1 := rfl
      pattern2 := rfl
      noiseForm := form
      square1Only := fun _ => ⟨rfl, rfl⟩
      square2Only := fun _ => rfl
      waveOnly := fun _ => rfl
      noiseOnly := fun e => absurd rfl e
      window := fun h => ⟨h, fun _ _ => rfl, .inl ⟨rfl, rfl⟩⟩ }

theorem Moved.channelStep (i : Ch) (s : State) : Moved i s (channelStep i s).1 := by
  cases i
  · exact Moved.squareStep .one s
  · exact Moved.squareStep .two s
  · exact Moved.waveStep s
  · exact Moved.noiseStep s

/-- A property that a generation step keeps, any number of them keep. -/
theorem runSteps_induct {i : Ch} {P : State → Prop} (hs : ∀ s, P s → P (channelStep i s).1) (k : Nat) {s : State} (h : P s) :
    P (runSteps i k s).1 := by
  induction k generalizing s with
  | zero => exact h
  | succ k ih =>
    have := hs s h
    simp only [runSteps]
    split
    · rename_i e; rw [e] at this; exact this
    · rename_i e; rw [e] at this; exact ih this

theorem runSteps_length (i : Ch) (k : Nat) (s : State) : (runSteps i k s).2.length ≤ k := by
  induction k generalizing s with
  | zero => exact Nat.le_refl 0
  | succ k ih =>
    simp only [runSteps]
    split
    · exact Nat.zero_le _
    · simpa using ih _

theorem Moved.channelGuards (i : Ch) (s : State) : Moved i s (channelGuards i s).1 := by
  cases i
  · exact Moved.refl _ s
  · exact Moved.refl _ s
  · exact Moved.refl _ s
  · simp only [Machine.channelGuards, noiseGuards]
    split
    · exact Moved.chanDisable .noise s
    · split <;> exact Moved.refl _ s

/-- A property that every part of a channel's processing keeps, the processing keeps. -/
theorem processChannel_induct {i : Ch} {P : State → Prop} (hr : ∀ s, P s → P (recomputeIncrement i s))
    (hg : ∀ s, P s → P (channelGuards i s).1) (hl : ∀ n s, P s → P (lengthSpan i n s).1)
    (hs : ∀ s, P s → P (channelStep i s).1) (n : Nat) {b : Block} (h : P b.st) : P (processChannel i n b).st := by
  unfold processChannel
  simp only
  split
  · exact h
  · split
    · exact hg _ (hr _ h)
    · exact runSteps_induct hs _ (hl _ _ (hg _ (hr _ h)))

theorem Moved.processChannel (i : Ch) (n : Nat) (b : Block) : Moved i b.st (processChannel i n b).st :=
  processChannel_induct (P := fun t => Moved i b.st t) (fun _ h => h.trans (Moved.recomputeIncrement i _))
    (fun _ h => h.trans (Moved.channelGuards i _)) (fun m _ h => h.trans (Moved.lengthSpan i m _))
    (fun _ h => h.trans (Moved.channelStep i _)) n (Moved.refl i _)

/-- A channel that is not enabled or not powered is not processed. -/
theorem processChannel_off {i : Ch} {n : Nat} {b : Block} (h : (b.st.ch i).enabled = false ∨ (b.st.ch i).powered = false) :
    processChannel i n b = b := by
  unfold processChannel
  simp only
  rw [if_pos h]

/-! ### The generation steps of a channel -/

/-- The first step taken first. -/
theorem stateAt_succ (i : Ch) (u : State) (g : Nat) : stateAt i u (g + 1) = stateAt i (channelStep i u).1 g := by
  induction g with
  | zero => rfl
  | succ g ih => rw [stateAt, ih]; rfl

theorem valueAt_succ (i : Ch) (u : State) (g : Nat) : valueAt i u (g + 1) = valueAt i (channelStep i u).1 g := by
  unfold valueAt
  rw [stateAt_succ]

theorem playsThrough_iff (i : Ch) (u : State) (g : Nat) :
    playsThrough i u g = true ↔ ∀ h, h ≤ g → (valueAt i u h).isSome = true := by
  simp only [playsThrough, List.all_eq_true, List.mem_range, Nat.lt_succ_iff]

theorem playsThrough_succ (i : Ch) (u : State) (g : Nat) : playsThrough i u (g + 1) =
    ((channelStep i u).2.isSome && playsThrough i (channelStep i u).1 g) := by
  rw [Bool.eq_iff_iff, Bool.and_eq_true, playsThrough_iff, playsThrough_iff]
  constructor
  · exact fun h => ⟨h 0 (Nat.zero_le _), fun k hk => by rw [← valueAt_succ]; exact h (k + 1) (by omega)⟩
  · rintro ⟨h0, h⟩ (_ | k) hk
    · exact h0
    · rw [valueAt_succ]; exact h k (by omega)

/-- Everything the generation steps of a channel do: how many run, the state they leave and the values they give (R233). -/
theorem runSteps_spec (i : Ch) (k : Nat) (u : State) :
    (∃ m, m ≤ k ∧ (runSteps i k u).1 = stateAt i u m ∧ (∀ h, h + 1 < m → (valueAt i u h).isSome = true) ∧
      (m < k → ∃ h, m = h + 1 ∧ valueAt i u h = none)) ∧
    ∀ g, (runSteps i k u).2[g]? = if g < k ∧ playsThrough i u g = true then valueAt i u g else none := by
  induction k generalizing u with
  | zero => exact ⟨⟨0, Nat.le_refl 0, rfl, fun _ h => absurd h (by omega), fun h => absurd h (by omega)⟩, fun g => rfl⟩
  | succ k ih =>
    have v0 : valueAt i u 0 = (channelStep i u).2 := rfl
    rcases e : channelStep i u with ⟨t, _ | m0⟩
    · rw [e] at v0
      have r : runSteps i (k + 1) u = (t, []) := by simp only [runSteps, e]
      rw [r]
      refine ⟨⟨1, by omega, by rw [stateAt, stateAt, e], fun _ h => absurd h (by omega), fun _ => ⟨0, rfl, v0⟩⟩, fun g => ?_⟩
      rw [if_neg]
      · rfl
      · rintro ⟨_, h⟩
        have := (playsThrough_iff i u g).1 h 0 (Nat.zero_le g)
        rw [v0] at this
        exact absurd this Bool.false_ne_true
    · rw [e] at v0
      have r : runSteps i (k + 1) u = ((runSteps i k t).1, m0 :: (runSteps i k t).2) := by simp only [runSteps, e]
      obtain ⟨⟨m, hm, hs, hp, hn⟩, hv⟩ := ih t
      have tS : (channelStep i u).1 = t := by rw [e]
      rw [r]
      refine ⟨⟨m + 1, by omega, by rw [stateAt_succ, tS]; exact hs, ?_, ?_⟩, ?_⟩
      · rintro (_ | h) hh
        · rw [v0]; rfl
        · rw [valueAt_succ, tS]; exact hp h (by omega)
      · intro h
        obtain ⟨h', e1, e2⟩ := hn (by omega)
        exact ⟨h' + 1, by omega, by rw [valueAt_succ, tS]; exact e2⟩
      · rintro (_ | g)
        · have : playsThrough i u 0 = true := (playsThrough_iff i u 0).2 fun h hh => by
            obtain rfl : h = 0 := by omega
            rw [v0]; rfl
          rw [if_pos ⟨by omega, this⟩, v0]
          rfl
        · rw [playsThrough_succ, valueAt_succ, tS, e]
          simpa using hv g
/-! ### The output buffers are not read -/

/-- The state with other output buffers. -/
def State.withBuffers (s : State) (l r : List Slot) : State := { s with outL := l, outR := r }

@[simp] theorem State.withBuffers_sweep (s : State) (l r : List Slot) : (s.withBuffers l r).sweep = s.sweep := rfl
@[simp] theorem State.withBuffers_params (s : State) (l r : List Slot) : (s.withBuffers l r).params = s.params := rfl
@[simp] theorem State.withBuffers_volumeLeft (s : State) (l r : List Slot) : (s.withBuffers l r).volumeLeft = s.volumeLeft := rfl
@[simp] theorem State.withBuffers_volumeRight (s : State) (l r : List Slot) : (s.withBuffers l r).volumeRight = s.volumeRight := rfl
@[simp] theorem State.withBuffers_ch (s : State) (l r : List Slot) (i : Ch) : (s.withBuffers l r).ch i = s.ch i := by
  cases i <;> rfl
@[simp] theorem sweepTarget_buffers (s : State) (l r : List Slot) : sweepTarget (s.withBuffers l r) = sweepTarget s := rfl

theorem recomputeIncrement_buffers (i : Ch) (s : State) (l r : List Slot) :
    recomputeIncrement i (s.withBuffers l r) = (recomputeIncrement i s).withBuffers l r := by
  cases i <;> rfl

theorem channelGuards_buffers (i : Ch) (s : State) (l r : List Slot) :
    channelGuards i (s.withBuffers l r) = ((channelGuards i s).1.withBuffers l r, (channelGuards i s).2) := by
  cases i
  case noise =>
    have e : (s.withBuffers l r).noise = s.noise := rfl
    simp only [channelGuards, noiseGuards, e, State.withBuffers_params]
    split
    · rfl
    · split <;> rfl
  all_goals rfl

theorem lengthSpan_buffers (i : Ch) (n : Nat) (s : State) (l r : List Slot) :
    lengthSpan i n (s.withBuffers l r) = ((lengthSpan i n s).1.withBuffers l r, (lengthSpan i n s).2) := by
  simp only [lengthSpan, State.withBuffers_ch, State.withBuffers_params]
  split
  · rfl
  · split <;> cases i <;> rfl

theorem sweepFire_buffers (s : State) (l r : List Slot) :
    sweepFire (s.withBuffers l r) = ((sweepFire s).1.withBuffers l r, (sweepFire s).2) := by
  unfold sweepFire
  by_cases h : s.sweep.shift ≠ 0
  · rw [if_pos h, if_pos (show (s.withBuffers l r).sweep.shift ≠ 0 from h)]
    by_cases k : (sweepTarget s).toNat > 2047
    · rw [if_pos k, if_pos (show (sweepTarget (s.withBuffers l r)).toNat > 2047 from k)]
      rfl
    · rw [if_neg k, if_neg (show ¬ (sweepTarget (s.withBuffers l r)).toNat > 2047 from k)]
      rfl
  · rw [if_neg h, if_neg (show ¬ (s.withBuffers l r).sweep.shift ≠ 0 from h)]
    by_cases k : s.sweep.period ≠ 0
    · rw [if_pos k, if_pos (show (s.withBuffers l r).sweep.period ≠ 0 from k)]
      rfl
    · rw [if_neg k, if_neg (show ¬ (s.withBuffers l r).sweep.period ≠ 0 from k)]

theorem sweepLoop_buffers (k : Nat) (s : State) (killed : Bool) (l r : List Slot) :
    sweepLoop k (s.withBuffers l r) killed = ((sweepLoop k s killed).1.withBuffers l r, (sweepLoop k s killed).2) := by
  induction k generalizing s killed with
  | zero => rfl
  | succ k ih =>
    unfold sweepLoop
    by_cases h : s.sweep.counter > s.params.thresh
    · rw [if_pos h, if_pos (show (s.withBuffers l r).sweep.counter > (s.withBuffers l r).params.thresh from h),
        sweepFire_buffers]
      exact ih { (sweepFire s).1 with
        sweep := { (sweepFire s).1.sweep with counter := (sweepFire s).1.sweep.counter - s.params.thresh } } _
    · rw [if_neg h, if_neg (show ¬ (s.withBuffers l r).sweep.counter > (s.withBuffers l r).params.thresh from h)]

/-- A generation step of Square1 that its sweep stops. -/
theorem channelStep_square1_stopped {s : State} (h : (sweepTick (envTick .square1 s)).2 = true) :
    channelStep .square1 s = ((sweepTick (envTick .square1 s)).1, none) :=
  if_pos h

/-- A generation step of Square1 that plays. -/
theorem channelStep_square1_plays {s : State} (h : (sweepTick (envTick .square1 s)).2 = false) :
    channelStep .square1 s = ((squarePhase .one (sweepTick (envTick .square1 s)).1).1,
      some (squarePhase .one (sweepTick (envTick .square1 s)).1).2) :=
  if_neg (by rw [Sq.ch, h]; decide)

theorem channelStep_buffers (i : Ch) (s : State) (l r : List Slot) :
    channelStep i (s.withBuffers l r) = ((channelStep i s).1.withBuffers l r, (channelStep i s).2) := by
  cases i
  · have h : ∀ u : State, sweepTick (u.withBuffers l r) = ((sweepTick u).1.withBuffers l r, (sweepTick u).2) := fun u =>
      sweepLoop_buffers _ { u with sweep := { u.sweep with counter := u.sweep.counter + u.sweep.increment } } _ l r
    have e : sweepTick (envTick .square1 (s.withBuffers l r)) = _ := h (envTick .square1 s)
    cases k : (sweepTick (envTick .square1 s)).2
    · rw [channelStep_square1_plays k, channelStep_square1_plays ((congrArg Prod.snd e).trans k)]
      exact congrArg (fun t : State × Bool => ((squarePhase .one t.1).1, some (squarePhase .one t.1).2)) e
    · rw [channelStep_square1_stopped k, channelStep_square1_stopped ((congrArg Prod.snd e).trans k)]
      exact congrArg (fun t : State × Bool => (t.1, none)) e
  all_goals rfl

theorem runSteps_buffers (i : Ch) (k : Nat) (s : State) (l r : List Slot) :
    runSteps i k (s.withBuffers l r) = ((runSteps i k s).1.withBuffers l r, (runSteps i k s).2) := by
  induction k generalizing s with
  | zero => rfl
  | succ k ih =>
    simp only [runSteps, channelStep_buffers]
    rcases h : channelStep i s with ⟨t, _ | m⟩
    · rfl
    · simp only [ih]

theorem processChannel_buffers (i : Ch) (n : Nat) (b : Block) (l r : List Slot) :
    processChannel i n { b with st := b.st.withBuffers l r } =
      { processChannel i n b with st := (processChannel i n b).st.withBuffers l r } := by
  simp only [processChannel, State.withBuffers_ch, State.withBuffers_params, State.withBuffers_volumeLeft,
    State.withBuffers_volumeRight, recomputeIncrement_buffers, channelGuards_buffers, lengthSpan_buffers, runSteps_buffers]
  by_cases h : (b.st.ch i).enabled = false ∨ (b.st.ch i).powered = false
  · simp only [if_pos h]
  · simp only [if_neg h]
    by_cases k : (channelGuards i (recomputeIncrement i b.st)).2 = false
    · simp only [if_pos k]
    · simp only [if_neg k]

/-- The four channels neither read nor write the output buffers. -/
theorem processAll_buffers (n : Nat) (b : Block) (l r : List Slot) :
    processAll n { b with st := b.st.withBuffers l r } =
      { processAll n b with st := (processAll n b).st.withBuffers l r } := by
  simp only [processAll, processChannel_buffers]
/-! ### The accumulators and the replicator -/

theorem addPrefix_length (acc ms : List Int) : (addPrefix acc ms).length = acc.length := by
  induction acc generalizing ms with
  | nil => cases ms <;> rfl
  | cons a acc ih =>
    cases ms with
    | nil => rfl
    | cons m ms => simp [addPrefix, ih]

theorem mixSide_length (on : Bool) (volume : BitVec 3) (d : Nat) (ms acc : List Int) :
    (mixSide on volume d ms acc).length = acc.length := by
  unfold mixSide
  split
  · exact addPrefix_length _ _
  · rfl

theorem replicate_length (r : Nat) (left right : List Int) (k q draws : Nat) :
    (replicate r left right k q draws).1.length = k ∧ (replicate r left right k q draws).2.1.length = k := by
  induction k generalizing q draws with
  | zero => exact ⟨rfl, rfl⟩
  | succ k ih => simp [replicate, ih]

theorem storeSlot_draws (v : Int) (draws : Nat) : draws ≤ (storeSlot v draws).2 := by
  unfold storeSlot
  split
  · exact Nat.le_refl _
  · exact Nat.le_succ _

theorem replicate_draws (r : Nat) (left right : List Int) (k q draws : Nat) :
    draws ≤ (replicate r left right k q draws).2.2 := by
  induction k generalizing q draws with
  | zero => exact Nat.le_refl _
  | succ k ih =>
    simp only [replicate]
    exact Nat.le_trans (Nat.le_trans (storeSlot_draws _ _) (storeSlot_draws _ _)) (ih _ _)

theorem writeSlots_getElem (buf : List Slot) {j q : Nat} (xs : List Slot) (hj : j ≤ buf.length) :
    (writeSlots buf j xs)[q]? =
      if q < j then buf[q]? else if q < j + xs.length then xs[q - j]? else buf[q]? := by
  have hl : (buf.take j).length = j := by simp [hj]
  unfold writeSlots
  rw [List.append_assoc]
  by_cases h1 : q < j
  · rw [if_pos h1, List.getElem?_append_left (by omega), List.getElem?_take_of_lt h1]
  · rw [if_neg h1, List.getElem?_append_right (by omega), hl]
    by_cases h2 : q < j + xs.length
    · rw [if_pos h2, List.getElem?_append_left (by omega)]
    · rw [if_neg h2, List.getElem?_append_right (by omega), List.getElem?_drop]
      congr 1
      omega

theorem writeSlots_length (buf : List Slot) {j : Nat} (xs : List Slot) (hj : j ≤ buf.length) :
    (writeSlots buf j xs).length = max (j + xs.length) buf.length := by
  unfold writeSlots
  simp
  omega

/-! ### One sub-block -/

theorem generateKept_refl (s : State) : generateKept s s := by
  simp [generateKept, channelKept]


theorem generateKept_trans {a b c : State} (h : generateKept a b) (k : generateKept b c) : generateKept a c := by
  obtain ⟨h1, h2, h3, h4, h5, h6, h7, h8, h9, h10, h11, h12, h13, h14, h15, h16, h17, h18, h19, h20, h21, h22, h23⟩ := h
  obtain ⟨k1, k2, k3, k4, k5, k6, k7, k8, k9, k10, k11, k12, k13, k14, k15, k16, k17, k18, k19, k20, k21, k22, k23⟩ := k
  refine ⟨k1.trans h1, fun a ha => (k2 a ha).trans (h2 a ha), mirrorKept_trans h3 k3, channelKept_trans h4 k4,
    channelKept_trans h5 k5, channelKept_trans h6 k6, channelKept_trans h7 k7, k8.trans h8, k9.trans h9, k10.trans h10,
    k11.trans h11, k12.trans h12, k13.trans h13, k14.trans h14, k15.trans h15, k16.trans h16, ?_, k18.trans h18,
    k19.trans h19, k20.trans h20, k21.trans h21, k22.trans h22, k23.trans h23⟩
  rw [h17] at k17
  exact k17

/-- What the processing of a channel may change, `generate` may. -/
theorem Moved.generateKept {i : Ch} {s t : State} (h : Moved i s t) (w : memWf s.mem = true) : generateKept s t := by
  obtain ⟨_, hr, hn⟩ := h.window w
  have kept : ∀ j, channelKept (s.ch j) (t.ch j) := fun j => by
    by_cases e : j = i
    · subst e; exact h.kept
    · rw [h.others j e]; exact channelKept_refl _
  have fr : ∀ j, j ≠ .square1 → (t.ch j).frequency = (s.ch j).frequency := fun j hj => by
    by_cases e : j = i
    · subst e; exact h.frequency hj
    · rw [h.others j e]
  have wk : t.wave.volume = s.wave.volume ∧ t.wave.env = s.wave.env := by
    by_cases e : i = .wave
    · exact h.waveKept e
    · have := h.others .wave (fun x => e x.symm)
      simp only [State.ch_wave] at this
      rw [this]
      exact ⟨rfl, rfl⟩
  refine ⟨by rw [h.fixed], hr, ?_, kept .square1, kept .square2, kept .wave, kept .noise, fr .square2 (by decide),
    fr .wave (by decide), fr .noise (by decide), wk.1, wk.2, h.pattern1, h.pattern2, h.noiseForm.1, h.noiseForm.2,
    h.sweep, ?_⟩
  · exact hn.imp (fun e => ⟨e.1, h.enabled_eq e.2⟩) id
  · rw [h.fixed]
    exact ⟨rfl, rfl, rfl, rfl, rfl, rfl⟩

theorem Moved.port {i : Ch} {s t : State} (h : Moved i s t) :
    t.returned = s.returned ∧ t.outL = s.outL ∧ t.outR = s.outR ∧ t.draws = s.draws := by
  rw [h.fixed]
  exact ⟨rfl, rfl, rfl, rfl⟩

/-- What the four channels over one sub-block may change. -/
theorem processAll_spec (n : Nat) {b : Block} (w : memWf b.st.mem = true) :
    memWf (processAll n b).st.mem = true ∧ Safety.generateKept b.st (processAll n b).st ∧
    (processAll n b).st.returned = b.st.returned ∧ (processAll n b).st.outL = b.st.outL ∧
    (processAll n b).st.outR = b.st.outR ∧ (processAll n b).st.draws = b.st.draws := by
  unfold processAll
  have m1 := Moved.processChannel .wave n b
  have w1 := (m1.window w).1
  have m2 := Moved.processChannel .square1 n (Machine.processChannel .wave n b)
  have w2 := (m2.window w1).1
  have m3 := Moved.processChannel .square2 n (Machine.processChannel .square1 n (Machine.processChannel .wave n b))
  have w3 := (m3.window w2).1
  have m4 := Moved.processChannel .noise n
    (Machine.processChannel .square2 n (Machine.processChannel .square1 n (Machine.processChannel .wave n b)))
  have p1 := m1.port
  have p2 := m2.port
  have p3 := m3.port
  have p4 := m4.port
  exact ⟨(m4.window w3).1,
    generateKept_trans (generateKept_trans (generateKept_trans (m1.generateKept w) (m2.generateKept w1))
      (m3.generateKept w2)) (m4.generateKept w3),
    p4.1.trans (p3.1.trans (p2.1.trans p1.1)), p4.2.1.trans (p3.2.1.trans (p2.2.1.trans p1.2.1)),
    p4.2.2.1.trans (p3.2.2.1.trans (p2.2.2.1.trans p1.2.2.1)), p4.2.2.2.trans (p3.2.2.2.trans (p2.2.2.2.trans p1.2.2.2))⟩

/-- What one sub-block may change: the slots `j` to `j + size - 1` of each buffer, and what `generateKept` leaves open. -/
theorem subBlock_spec {s : State} (j size : Nat) (w : memWf s.mem = true) (hl : j ≤ s.outL.length) (hr : j ≤ s.outR.length) :
    let t := subBlock j size s
    memWf t.mem = true ∧ Safety.generateKept s t ∧ t.returned = s.returned ∧ s.draws ≤ t.draws ∧
    t.outL.length = max (j + size) s.outL.length ∧ t.outR.length = max (j + size) s.outR.length ∧
    ∀ q, q < j ∨ j + size ≤ q → t.outL[q]? = s.outL[q]? ∧ t.outR[q]? = s.outR[q]? := by
  intro t
  obtain ⟨a, b, c1, c2, c3, c4⟩ := processAll_spec (stepsOf s.params size)
    (b := { st := s, left := List.replicate (stepsOf s.params size) 0, right := List.replicate (stepsOf s.params size) 0 }) w
  generalize hP : processAll (stepsOf s.params size) (Block.mk s (List.replicate (stepsOf s.params size) 0)
    (List.replicate (stepsOf s.params size) 0)) = P at a b c1 c2 c3 c4
  have ht : t = { P.st with
      outL := writeSlots P.st.outL j (replicate P.st.params.r P.left P.right size 0 P.st.draws).1
      outR := writeSlots P.st.outR j (replicate P.st.params.r P.left P.right size 0 P.st.draws).2.1
      draws := (replicate P.st.params.r P.left P.right size 0 P.st.draws).2.2 } := by
    simp only [t]
    unfold subBlock
    simp only
    rw [hP]
  have len := replicate_length P.st.params.r P.left P.right size 0 P.st.draws
  simp only at c1 c2 c3 c4
  rw [ht]
  refine ⟨a, b, c1, ?_, ?_, ?_, ?_⟩
  · simp only
    rw [← c4]
    exact replicate_draws _ _ _ _ _ _
  · simp only
    rw [writeSlots_length _ _ (by rw [c2]; exact hl), len.1, c2]
  · simp only
    rw [writeSlots_length _ _ (by rw [c3]; exact hr), len.2, c3]
  · intro q hq
    simp only
    rw [writeSlots_getElem _ _ (by rw [c2]; exact hl), writeSlots_getElem _ _ (by rw [c3]; exact hr), len.1, len.2, c2, c3]
    rcases hq with hq | hq
    · rw [if_pos hq, if_pos hq]
      exact ⟨rfl, rfl⟩
    · rw [if_neg (by omega), if_neg (by omega), if_neg (by omega), if_neg (by omega)]
      exact ⟨rfl, rfl⟩

/-- One sub-block writes the same slots whatever the buffers hold, and nothing else depends on them (R236). -/
theorem subBlock_buffers (j size : Nat) (s : State) : ∃ xs ys : List Slot, xs.length = size ∧ ys.length = size ∧
    ∀ l r, subBlock j size (s.withBuffers l r) = (subBlock j size s).withBuffers (writeSlots l j xs) (writeSlots r j ys) := by
  let n := stepsOf s.params size
  let P := processAll n { st := s, left := List.replicate n 0, right := List.replicate n 0 }
  have len := replicate_length P.st.params.r P.left P.right size 0 P.st.draws
  refine ⟨(replicate P.st.params.r P.left P.right size 0 P.st.draws).1,
    (replicate P.st.params.r P.left P.right size 0 P.st.draws).2.1, len.1, len.2, fun l r => ?_⟩
  have e := processAll_buffers n { st := s, left := List.replicate n 0, right := List.replicate n 0 } l r
  unfold subBlock
  simp only [State.withBuffers_params, n, P] at e ⊢
  rw [e]
  rfl

/-! ### The driver's loop -/

/-- The four channels write neither the parameters nor the host's side. -/
theorem processAll_port (n : Nat) (b : Block) :
    (processAll n b).st.params = b.st.params ∧ (processAll n b).st.outL = b.st.outL ∧ (processAll n b).st.outR = b.st.outR ∧
    (processAll n b).st.draws = b.st.draws := by
  have m : ∀ i (b : Block), (processChannel i n b).st.params = b.st.params ∧ (processChannel i n b).st.outL = b.st.outL ∧
      (processChannel i n b).st.outR = b.st.outR ∧ (processChannel i n b).st.draws = b.st.draws := fun i b => by
    rw [(Moved.processChannel i n b).fixed]
    exact ⟨rfl, rfl, rfl, rfl⟩
  unfold processAll
  simp only [m]
  exact ⟨trivial, trivial, trivial, trivial⟩

theorem subBlock_params (j size : Nat) (s : State) : (subBlock j size s).params = s.params :=
  (processAll_port _ _).1

/-- The driver's loop from slot `min (i * P_SUB * P_R) n` on is the sub-blocks `i`, `i + 1`, ... in order (R230). -/
theorem generateLoop_fold (k : Nat) {s : State} {i n full : Nat} (hf : blockSize s.params = full) (h1 : 1 ≤ full)
    (hk : n ≤ i * full + k) :
    generateLoop k (min (i * full) n) n s =
      (List.range' i ((n + full - 1) / full - i)).foldl
        (fun t i => subBlock (i * full) (min (n - i * full) full) t) s := by
  have hm : ∀ i, i < (n + full - 1) / full ↔ i * full < n := fun i => by
    rw [Nat.lt_iff_add_one_le, Nat.le_div_iff_mul_le (by omega), Nat.add_mul]
    omega
  induction k generalizing s i with
  | zero =>
    have : ¬ i < (n + full - 1) / full := by rw [hm]; omega
    rw [show (n + full - 1) / full - i = 0 by omega]
    rfl
  | succ k ih =>
    simp only [generateLoop, hf]
    by_cases h : i * full < n
    · have hi := (hm i).2 h
      rw [if_pos (by omega), show min (i * full) n = i * full by omega,
        show i * full + min (n - i * full) full = min ((i + 1) * full) n by rw [Nat.add_mul]; omega]
      rw [ih (by rw [subBlock_params]; exact hf) (by rw [Nat.add_mul]; omega),
        show (n + full - 1) / full - i = (n + full - 1) / full - (i + 1) + 1 by omega]
      rfl
    · have hi : ¬ i < (n + full - 1) / full := by rw [hm]; exact h
      rw [if_neg (by omega), show (n + full - 1) / full - i = 0 by omega]
      rfl

/-! ### What the slots hold -/

/-- A slot of a sub-block: a true sample in the 16-bit range, or a free value drawn between `d` and `d'` (R237). -/
def slotHolds (v : Int) (d d' : Nat) (x : Option Slot) : Prop :=
  (-32768 ≤ v → v ≤ 32767 → ∃ y, x = some y ∧ y.toInt = v) ∧
  (v < -32768 ∨ 32767 < v → ∃ e, d ≤ e ∧ e < d' ∧ x = some (Config.freeSlot e))

theorem slotHolds_mono {v : Int} {d d' e e' : Nat} {x : Option Slot} (h : slotHolds v d d' x) (h1 : e ≤ d) (h2 : d' ≤ e') :
    slotHolds v e e' x :=
  ⟨h.1, fun a => (h.2 a).imp fun _ y => ⟨by omega, by omega, y.2.2⟩⟩

theorem storeSlot_holds (v : Int) (d : Nat) : slotHolds v d (storeSlot v d).2 (some (storeSlot v d).1) := by
  unfold slotHolds storeSlot sampleMin sampleMax
  constructor
  · intro a b
    rw [if_pos ⟨a, b⟩]
    refine ⟨_, rfl, ?_⟩
    simp only [BitVec.toInt_ofInt]
    rw [Int.bmod_eq_of_le] <;> omega
  · intro a
    rw [if_neg (by omega)]
    exact ⟨d, Nat.le_refl _, Nat.lt_succ_self _, rfl⟩

/-- What slot `q + g` of each side holds (R236). -/
theorem replicate_spec (r : Nat) (left right : List Int) (k q d g : Nat) (hg : g < k) :
    let o := replicate r left right k q d
    slotHolds (left.getD ((q + g) / r) 0) d o.2.2 o.1[g]? ∧ slotHolds (right.getD ((q + g) / r) 0) d o.2.2 o.2.1[g]? := by
  induction k generalizing q d g with
  | zero => exact absurd hg (by omega)
  | succ k ih =>
    simp only [replicate]
    have m1 := storeSlot_draws (left.getD (q / r) 0) d
    have m2 := storeSlot_draws (right.getD (q / r) 0) (storeSlot (left.getD (q / r) 0) d).2
    have m3 := replicate_draws r left right k (q + 1)
      (storeSlot (right.getD (q / r) 0) (storeSlot (left.getD (q / r) 0) d).2).2
    cases g with
    | zero =>
      rw [Nat.add_zero]
      exact ⟨slotHolds_mono (storeSlot_holds _ _) (Nat.le_refl _) (by omega), slotHolds_mono (storeSlot_holds _ _) m1 m3⟩
    | succ g =>
      obtain ⟨a, b⟩ := ih (q + 1) (storeSlot (right.getD (q / r) 0) (storeSlot (left.getD (q / r) 0) d).2).2 g (by omega)
      rw [show q + (g + 1) = q + 1 + g by omega]
      exact ⟨slotHolds_mono a (by omega) (Nat.le_refl _), slotHolds_mono b (by omega) (Nat.le_refl _)⟩

end Sys2Proof.Machine
end

