-- ==== Sys2Proof/Laws/Invariant.lean ====
section
/-! SUPPORT. The invariant of `Safety` cut into what each channel's record must meet and the rest, and that each shared operation keeps
it. -/

namespace Sys2Proof.Safety

open Sys2Proof.Machine

/-- What the invariant says of one channel's record. -/
structure ChannelOk (p : Params) (i : Ch) (c : Channel) : Prop where
  square1 : i = .square1 → c.enabled = true → c.frequency.toNat ≤ 2047
  square2 : i = .square2 → c.frequency.toNat ≤ 2047
  wave : i = .wave → c.frequency.toNat ≤ 2047 ∧ c.volume.toNat ≤ 3 ∧ c.volumeInit.toNat ≤ 3 ∧ c.env.step = 0 ∧
    -8 ≤ c.currentLevel ∧ c.currentLevel ≤ 7
  noise : i = .noise → c.frequency.toNat ≤ 15
  load : i ≠ .wave → c.len.load.toNat ≤ 63
  level : i ≠ .wave → -(p.lvl : Int) ≤ c.currentLevel ∧ c.currentLevel ≤ p.lvl
  phase : c.frequencyCounter ≤ p.thresh
  length : c.len.counter ≤ p.thresh
  envelope : c.env.counter ≤ p.thresh

/-- The invariant without the bound of the sweep's counter, which is exceeded inside the sweep's loop. -/
structure Core (s : State) : Prop where
  params : s.params.wf
  window : memWf s.mem = true
  unused : s.reg 0xFF26 &&& 0x70 = 0
  status : s.reg 0xFF26 &&& 0x0F = statusBits s ∨ s.reg 0xFF26 &&& 0x0F = 0
  offBytes : (s.reg 0xFF26).getLsbD 7 = false → ∀ a, 0xFF10 ≤ a → a ≤ 0xFF25 → s.reg a = 0
  offChannels : (s.reg 0xFF26).getLsbD 7 = false → ∀ i, (s.ch i).enabled = false
  ok : ∀ i, ChannelOk s.params i (s.ch i)

theorem invariant_iff (s : State) : Invariant s ↔ Core s ∧ s.sweep.counter ≤ s.params.thresh := by
  constructor
  · intro h
    refine ⟨⟨h.params, h.window, h.unused, h.status, h.offBytes, h.offChannels, fun i => ⟨?_, ?_, ?_, ?_, ?_,
      fun e => h.levels i e, (h.counters i).1, (h.counters i).2.1, (h.counters i).2.2⟩⟩, h.sweepCounter⟩
    · intro e; subst e; exact h.square1Frequency
    · intro e; subst e; exact h.square2Frequency
    · intro e; subst e
      exact ⟨h.waveFrequency, h.waveCode.1, h.waveCode.2, h.waveEnvStep, h.waveLevels.1, h.waveLevels.2⟩
    · intro e; subst e; exact h.shiftCode
    · intro e
      cases i
      · exact h.loads.1
      · exact h.loads.2.1
      · exact absurd rfl e
      · exact h.loads.2.2
  · intro ⟨h, hs⟩
    have w := (h.ok .wave).wave rfl
    exact ⟨h.params, h.window, h.unused, h.status, h.offBytes, h.offChannels, (h.ok .square1).square1 rfl,
      (h.ok .square2).square2 rfl, w.1, (h.ok .noise).noise rfl, ⟨w.2.1, w.2.2.1⟩, w.2.2.2.1,
      ⟨(h.ok .square1).load (by decide), (h.ok .square2).load (by decide), (h.ok .noise).load (by decide)⟩,
      fun i => ⟨(h.ok i).phase, (h.ok i).length, (h.ok i).envelope⟩, hs, fun i e => (h.ok i).level e, w.2.2.2.2⟩

theorem statusBits_congr {s t : State} (h : ∀ i, (t.ch i).enabled = (s.ch i).enabled) : statusBits t = statusBits s := by
  have a := h .square1; have b := h .square2; have c := h .wave; have d := h .noise
  simp only [State.ch_square1, State.ch_square2, State.ch_wave, State.ch_noise] at a b c d
  unfold statusBits
  rw [a, b, c, d]

/-! ### The operations on a channel's record -/

/-- A state with the same parameters, window and `enabled` bits, whose records are in order. -/
theorem Core.of {s t : State} (h : Core s) (hp : t.params = s.params) (hm : t.mem = s.mem)
    (he : ∀ i, (t.ch i).enabled = (s.ch i).enabled) (ho : ∀ i, ChannelOk s.params i (t.ch i)) : Core t where
  params := by rw [hp]; exact h.params
  window := by rw [hm]; exact h.window
  unused := by unfold State.reg; rw [hm]; exact h.unused
  status := by rw [statusBits_congr he]; unfold State.reg; rw [hm]; exact h.status
  offBytes := by unfold State.reg; rw [hm]; exact h.offBytes
  offChannels := by unfold State.reg; rw [hm]; intro e i; rw [he]; exact h.offChannels e i
  ok i := by rw [hp]; exact ho i

theorem Core.modCh {s : State} (h : Core s) (i : Ch) {f : Channel → Channel}
    (he : (f (s.ch i)).enabled = (s.ch i).enabled) (ho : ChannelOk s.params i (f (s.ch i))) : Core (s.modCh i f) := by
  refine h.of (by simp) (by simp) ?_ ?_
  · intro j
    by_cases e : j = i
    · subst e; rw [State.ch_modCh_same, he]
    · rw [State.ch_modCh_ne _ _ e]
  · intro j
    by_cases e : j = i
    · subst e; rw [State.ch_modCh_same]; exact ho
    · rw [State.ch_modCh_ne _ _ e]; exact h.ok j

/-- A mirrored NR52 byte: bits 6..4 are 0 and bits 3..0 are the `enabled` bits. -/
theorem mirrors_status {s t : State} (hm : mirrors s t) :
    t.reg 0xFF26 &&& 0x70 = 0 ∧ t.reg 0xFF26 &&& 0x0F = statusBits t := by
  unfold mirrors at hm
  have e := statusBits_toNat t
  have le := statusBits_le t
  have key : ∀ x y : Byte, y.toNat ≤ 15 → (x.toNat = y.toNat ∨ x.toNat = 128 + y.toNat) →
      x &&& 0x70 = 0 ∧ x &&& 0x0F = y := by
    have k : ∀ x : Byte, ∀ y : BitVec 4, (x.toNat = y.toNat ∨ x.toNat = 128 + y.toNat) →
        x &&& 0x70 = 0 ∧ x &&& 0x0F = y.setWidth 8 := by
      decide +revert
    intro x y hy hx
    have e : (y.setWidth 4).setWidth 8 = y := by
      apply BitVec.eq_of_toNat_eq
      simp only [BitVec.toNat_setWidth]
      omega
    have := k x (y.setWidth 4) (by simp only [BitVec.toNat_setWidth]; omega)
    rwa [e] at this
  apply key _ _ le
  rw [e]
  have := (s.reg 0xFF26).isLt
  omega

theorem ChannelOk.disabled {p : Params} {i : Ch} {c : Channel} (h : ChannelOk p i c) :
    ChannelOk p i { c with enabled := false } :=
  ⟨fun _ e => (by cases e), h.square2, h.wave, h.noise, h.load, h.level, h.phase, h.length, h.envelope⟩

/-- `ChanDisable(i)` on a state whose record `i` only needs to be in order once it is disabled. -/
theorem Core.chanDisable' {s s0 : State} (i : Ch) (h : Core s0) (hp : s.params = s0.params) (hm : s.mem = s0.mem)
    (he : ∀ j, j ≠ i → s.ch j = s0.ch j) (ho : ChannelOk s0.params i { s.ch i with enabled := false }) :
    Core (chanDisable i s) := by
  have w : memWf s.mem = true := by rw [hm]; exact h.window
  obtain ⟨h1, h2, h3⟩ := chanDisable_spec w i
  have hp' : (chanDisable i s).params = s0.params := by rw [h3]; simp [hp]
  have hsame : (chanDisable i s).ch i = { s.ch i with enabled := false } := by cases i <;> rfl
  have hne : ∀ j, j ≠ i → (chanDisable i s).ch j = s.ch j := by
    intro j hj; cases i <;> cases j <;> first | rfl | exact absurd rfl hj
  have hreg : ∀ a, s.reg a = s0.reg a := fun a => by unfold State.reg; rw [hm]
  refine ⟨by rw [hp']; exact h.params, h1, (mirrors_status h2.1).1, .inl (mirrors_status h2.1).2, ?_, ?_, ?_⟩
  · intro e a ha hb
    rw [h2.2 a (by omega), hreg]
    refine h.offBytes ?_ a ha hb
    rw [← hreg, ← mirrors_power h2.1]
    exact e
  · intro e j
    by_cases hj : j = i
    · subst hj; rw [hsame]
    · rw [hne j hj, he j hj]
      refine h.offChannels ?_ j
      rw [← hreg, ← mirrors_power h2.1]
      exact e
  · intro j
    rw [hp']
    by_cases hj : j = i
    · subst hj; rw [hsame]; exact ho
    · rw [hne j hj, he j hj]; exact h.ok j

theorem Core.chanDisable {s : State} (i : Ch) (h : Core s) : Core (chanDisable i s) :=
  h.chanDisable' i rfl rfl (fun _ _ => rfl) (h.ok i).disabled

theorem Core.recomputeIncrement {s : State} (i : Ch) (h : Core s) : Core (recomputeIncrement i s) :=
  have o := h.ok i
  h.modCh i rfl ⟨o.square1, o.square2, o.wave, o.noise, o.load, o.level, o.phase, o.length, o.envelope⟩

theorem Core.lengthCounter {s : State} (i : Ch) (h : Core s) {x : Nat} (hx : x ≤ s.params.thresh) :
    Core (s.modCh i fun c => { c with len := { (s.ch i).len with counter := x } }) :=
  have o := h.ok i
  h.modCh i rfl ⟨o.square1, o.square2, o.wave, o.noise, o.load, o.level, o.phase, hx, o.envelope⟩

theorem Core.lengthSpan {s : State} (i : Ch) (n : Nat) (h : Core s) : Core (lengthSpan i n s).1 := by
  unfold Machine.lengthSpan
  simp only
  split
  · exact h
  · rename_i hl
    rw [not_or] at hl
    split
    · rename_i hk
      refine h.lengthCounter i ?_
      have h1 : (n + 1) * (s.ch i).len.increment ≤ s.params.thresh - (s.ch i).len.counter :=
        (Nat.le_div_iff_mul_le (Nat.pos_of_ne_zero hl.2)).1 hk
      have h2 : 0 < (s.ch i).len.increment := Nat.pos_of_ne_zero hl.2
      rw [Nat.add_mul] at h1
      omega
    · exact (h.lengthCounter i (Nat.zero_le _)).chanDisable i

theorem Core.envTick {s : State} {i : Ch} (hi : i ≠ .wave) (h : Core s) : Core (envTick i s) := by
  refine h.modCh i (by rw [envTickChannel_frame]) ?_
  have o := h.ok i
  have c := envTickChannel_counter h.params.2.1 (s.ch i)
  rw [envTickChannel_frame]
  exact ⟨o.square1, o.square2, fun e => absurd e hi, o.noise, o.load, o.level, o.phase, o.length, c⟩

theorem Core.sweepFire {s : State} (h : Core s) : Core (sweepFire s).1 := by
  have o := h.ok .square1
  unfold Machine.sweepFire
  split
  · simp only
    split
    · refine h.chanDisable' (s0 := s) .square1 rfl rfl
        (fun j hj => by cases j <;> first | rfl | exact absurd rfl hj) ?_
      exact ⟨fun _ e => (by cases e), fun e => (by cases e), fun e => (by cases e), fun e => (by cases e), o.load,
        o.level, o.phase, o.length, o.envelope⟩
    · rename_i hn
      refine Core.of (t := { s with square1 := { s.square1 with frequency := sweepTarget s, frequencyIncrement := _ } }) h
        rfl rfl (fun j => by cases j <;> rfl) (fun j => ?_)
      cases j
      · exact ⟨fun _ _ => (by simp; omega), fun e => (by cases e), fun e => (by cases e), fun e => (by cases e), o.load,
          o.level, o.phase, o.length, o.envelope⟩
      · exact h.ok .square2
      · exact h.ok .wave
      · exact h.ok .noise
  · split
    · exact h.chanDisable .square1
    · exact h

theorem Core.sweepTick {s : State} (h : Core s) : Core (sweepTick s).1 :=
  sweepTick_induct (P := Core)
    (fun _ _ h => h.of rfl rfl (fun i => by cases i <;> rfl) (fun i => by cases i <;> exact h.ok _))
    (fun _ h => h.sweepFire) h

/-! ### A generation step -/

/-- A phase step's counter and level put into channel `i`'s record. -/
theorem Core.withPhase {s t : State} (h : Core s) (i : Ch) (n : Nat) (l : Int) (hp : t.params = s.params)
    (hm : t.mem = s.mem) (ht : ∀ j, t.ch j = (s.modCh i fun c => c.withPhase n l).ch j) (hn : n ≤ s.params.thresh)
    (hl : i ≠ .wave → -(s.params.lvl : Int) ≤ l ∧ l ≤ s.params.lvl) (hw : i = .wave → -8 ≤ l ∧ l ≤ 7) : Core t := by
  have o := h.ok i
  have m : Core (s.modCh i fun c => c.withPhase n l) := h.modCh i rfl ⟨o.square1, o.square2, fun e => by
    obtain ⟨a, b, c, d, _⟩ := o.wave e
    exact ⟨a, b, c, d, hw e⟩, o.noise, o.load, hl, hn, o.length, o.envelope⟩
  exact m.of (by rw [hp]; simp) (by rw [hm]; simp) (fun j => by rw [ht j]) (fun j => by
    rw [ht j]
    have := m.ok j
    rwa [State.modCh_params] at this ⊢)

theorem levelOf_between (p : Params) (b : Bool) : -(p.lvl : Int) ≤ levelOf p b ∧ levelOf p b ≤ p.lvl := by
  cases b <;> simp [levelOf]

theorem waveLevel_between (nib vc : BitVec 4) : -8 ≤ waveLevel nib vc ∧ waveLevel nib vc ≤ 7 := by
  unfold waveLevel
  split
  · decide
  · have := (nib >>> (vc.toNat - 1)).isLt
    omega

theorem Core.squarePhase {s : State} (q : Sq) (h : Core s) : Core (squarePhase q s).1 := by
  have o := h.ok q.ch
  have hne : q.ch ≠ .wave := by cases q <;> decide
  unfold Machine.squarePhase
  refine h.withPhase (t := (s.setCh q.ch ((s.ch q.ch).withPhase _ _)).setDuty q _) q.ch _ _ (by simp) (by simp)
    (fun j => by rw [State.setDuty_ch]; rfl) ?_ ?_ (fun e => absurd e hne)
  · exact phaseStep_counter _ _ _ h.params.2.1 o.phase
  · intro _
    exact phaseStep_induct (P := fun (_ : SquareVoice) (l : Int) => -(s.params.lvl : Int) ≤ l ∧ l ≤ s.params.lvl) _
      (fun _ _ _ => levelOf_between _ _) (o.level hne)

theorem Core.squareStep {s : State} (q : Sq) (h : Core s) : Core (squareStep q s).1 := by
  unfold Machine.squareStep
  cases q
  · simp only
    split
    · exact (h.envTick (by decide)).sweepTick
    · exact ((h.envTick (by decide)).sweepTick).squarePhase .one
  · exact (h.envTick (by decide)).squarePhase .two

theorem Core.waveStep {s : State} (h : Core s) : Core (waveStep s).1 := by
  have o := h.ok .wave
  unfold Machine.waveStep
  refine h.withPhase .wave _ _ rfl rfl (fun j => by cases j <;> rfl) ?_ (fun e => absurd rfl e) ?_
  · exact phaseStep_counter _ _ _ h.params.2.1 o.phase
  · intro _
    exact phaseStep_induct (P := fun (_ : BitVec 5) (l : Int) => -8 ≤ l ∧ l ≤ 7) _
      (fun _ _ _ => waveLevel_between _ _) (o.wave rfl).2.2.2.2

theorem Core.noiseStep {s : State} (h : Core s) : Core (noiseStep s).1 := by
  have h : Core (Machine.envTick Ch.noise s) := Core.envTick (i := Ch.noise) (by decide) h
  have o := h.ok .noise
  unfold Machine.noiseStep
  refine h.withPhase .noise _ _ rfl rfl (fun j => by cases j <;> rfl) ?_ ?_ (fun e => by cases e)
  · exact phaseStep_counter _ _ _ h.params.2.1 o.phase
  · intro _
    exact phaseStep_induct (P := fun (_ : NoiseVoice) (l : Int) =>
        -((Machine.envTick Ch.noise s).params.lvl : Int) ≤ l ∧ l ≤ (Machine.envTick Ch.noise s).params.lvl) _
      (fun _ _ _ => levelOf_between _ _) (o.level (by decide))

theorem Core.channelStep {s : State} (i : Ch) (h : Core s) : Core (channelStep i s).1 := by
  cases i
  · exact h.squareStep .one
  · exact h.squareStep .two
  · exact h.waveStep
  · exact h.noiseStep

theorem Core.channelGuards {s : State} (i : Ch) (h : Core s) : Core (channelGuards i s).1 := by
  cases i
  · exact h
  · exact h
  · exact h
  · simp only [Machine.channelGuards, noiseGuards]
    split
    · exact h.chanDisable .noise
    · split <;> exact h

theorem Core.processChannel {i : Ch} (n : Nat) {b : Block} (h : Core b.st) : Core (processChannel i n b).st :=
  processChannel_induct (P := Core) (fun _ h => h.recomputeIncrement i) (fun _ h => h.channelGuards i)
    (fun m _ h => h.lengthSpan i m) (fun _ h => h.channelStep i) n h

/-! ### The operations of `write` -/

theorem Invariant.modCh {s : State} (h : Invariant s) (i : Ch) {f : Channel → Channel}
    (he : (f (s.ch i)).enabled = (s.ch i).enabled)
    (ho : ChannelOk s.params i (s.ch i) → ChannelOk s.params i (f (s.ch i))) : Invariant (s.modCh i f) := by
  rw [invariant_iff] at h ⊢
  exact ⟨h.1.modCh i he (ho (h.1.ok i)), by simpa using h.2⟩

/-- A change of fields the invariant says nothing about. -/
theorem Invariant.of {s t : State} (h : Invariant s) (ht : t = { s with
      returned := t.returned, outL := t.outL, outR := t.outR, draws := t.draws, marks := t.marks, inbox := t.inbox,
      hostEnable := t.hostEnable, hostLocked := t.hostLocked, volumeLeft := t.volumeLeft, volumeRight := t.volumeRight,
      duty1 := t.duty1, duty2 := t.duty2, noiseVoice := t.noiseVoice, samplePosition := t.samplePosition }) :
    Invariant t := by
  rw [ht, invariant_iff]
  rw [invariant_iff] at h
  exact ⟨h.1.of rfl rfl (fun i => by cases i <;> rfl) (fun i => by cases i <;> exact h.1.ok _), h.2⟩

/-- The power gate and the store, before an effect that keeps the invariant while power is on. -/
theorem Invariant.gatedWrite {s : State} (h : Invariant s) {a : Nat} {v : Byte} {e : State → State}
    (ha : 0xFF10 ≤ a ∧ a ≤ 0xFF3F ∧ a ≠ 0xFF26) (he : ∀ s, powerOf (s.reg nr52) = true → Invariant s → Invariant (e s)) :
    Invariant (gatedWrite a v e s) := by
  unfold Machine.gatedWrite
  split
  · rename_i hp
    have w : inWindow a = true := by simp [inWindow]; omega
    have r52 : (s.setReg a v).reg 0xFF26 = s.reg 0xFF26 := by
      rw [State.reg_setReg h.window a v, if_neg ha.2.2]
    refine he _ (by rw [show nr52 = 0xFF26 from rfl, r52]; exact hp) ?_
    rw [invariant_iff] at h ⊢
    have on : ¬ (s.reg 0xFF26).getLsbD 7 = false := by
      have : (s.reg 0xFF26).getLsbD 7 = true := hp
      rw [this]
      decide
    refine ⟨⟨h.1.params, State.setReg_memWf h.1.window w v, ?_, ?_, ?_, ?_, ?_⟩, h.2⟩
    · rw [r52]; exact h.1.unused
    · rw [r52]; exact h.1.status
    · rw [r52]; intro e; exact absurd e on
    · rw [r52]; intro e; exact absurd e on
    · intro i; cases i <;> exact h.1.ok _
  · exact h

theorem Invariant.chanEnable {s : State} (i : Ch) (h : Invariant s) (hp : powerOf (s.reg nr52) = true)
    (hf : i = .square1 → s.square1.frequency.toNat ≤ 2047) : Invariant (chanEnable i s) := by
  rw [invariant_iff] at h ⊢
  obtain ⟨h, hsw⟩ := h
  obtain ⟨h1, h2, h3⟩ := chanEnable_spec h.window i
  have hp' : (Machine.chanEnable i s).params = s.params := by rw [h3]; simp
  have hsame : (Machine.chanEnable i s).ch i = { s.ch i with enabled := true } := by cases i <;> rfl
  have hne : ∀ j, j ≠ i → (Machine.chanEnable i s).ch j = s.ch j := by
    intro j hj; cases i <;> cases j <;> first | rfl | exact absurd rfl hj
  have on : ¬ ((Machine.chanEnable i s).reg 0xFF26).getLsbD 7 = false := by
    rw [mirrors_power h2.1]
    have : (s.reg 0xFF26).getLsbD 7 = true := hp
    rw [this]
    decide
  refine ⟨⟨by rw [hp']; exact h.params, h1, (mirrors_status h2.1).1, .inl (mirrors_status h2.1).2, fun e => absurd e on,
    fun e => absurd e on, ?_⟩, ?_⟩
  · intro j
    rw [hp']
    by_cases hj : j = i
    · subst hj
      rw [hsame]
      have o := h.ok j
      exact ⟨fun e _ => by subst e; exact hf rfl, o.square2, o.wave, o.noise, o.load, o.level, o.phase, o.length,
        o.envelope⟩
    · rw [hne j hj]; exact h.ok j
  · rw [h3]; simpa using hsw

end Sys2Proof.Safety
end

