-- ==== Sys2Proof/Laws/PerInstr.lean ====
section
/-! SUPPORT. The family TableRow of LAWS.json: the word of every operation matches that operation's row of spec/opcode_table.json
(R80, R81). -/

namespace Sys2Proof.Laws.TableRow

/-- The word of a well-formed operation has the fixed bits of its row. -/
def Statement (i : Instr) : Prop := i.wf = true → encode i &&& (tableRow i).2 = (tableRow i).1

theorem packOp_and (k k' : BitVec 2) (a a' : Addr) (d d' : Byte) :
    packOp k a d &&& packOp k' a' d' = packOp (k &&& k') (a &&& a') (d &&& d') := by
  unfold packOp
  rw [BitVec.and_append, BitVec.and_append]

/-- A property of every address of a range of at most 16, from its values. -/
theorem of_within {P : Addr → Prop} {lo hi : Nat} {a : Addr} (h : Addr.within lo hi a = true) (hs : hi < lo + 16)
    (hp : ∀ k : Fin 16, lo + k ≤ hi → P (BitVec.ofNat 16 (lo + k))) : P a := by
  simp only [Addr.within, decide_eq_true_eq] at h
  have := hp ⟨a.toNat - lo, by omega⟩ (by simp only; omega)
  rwa [show lo + (⟨a.toNat - lo, by omega⟩ : Fin 16).val = a.toNat by simp only; omega, BitVec.ofNat_toNat,
    BitVec.setWidth_eq] at this

/-- A row that fixes kind and address and leaves the data byte open. -/
theorem fixed_address (a : Addr) (v : Byte) : packOp 1 a v &&& packOp 3 0xFFFF 0 = packOp 1 a 0 := by
  have e : a &&& 0xFFFF = a := BitVec.and_allOnes
  have z : v &&& 0 = 0 := BitVec.and_zero
  rw [packOp_and, e, z]
  rfl

theorem rdFF1x (a : Addr) : Statement (.rdFF1x a) := fun h => by
  have e : a &&& 0xFFF0 = 0xFF10 := of_within (P := fun a => a &&& 0xFFF0 = 0xFF10) h (by decide) (by decide)
  show packOp 0 a 0 &&& packOp 3 0xFFF0 0xFF = packOp 0 0xFF10 0
  rw [packOp_and, e]
  rfl

theorem rdFF2x (a : Addr) : Statement (.rdFF2x a) := fun h => by
  have e : a &&& 0xFFF0 = 0xFF20 := of_within (P := fun a => a &&& 0xFFF0 = 0xFF20) h (by decide) (by decide)
  show packOp 0 a 0 &&& packOp 3 0xFFF0 0xFF = packOp 0 0xFF20 0
  rw [packOp_and, e]
  rfl

theorem rdWave (a : Addr) : Statement (.rdWave a) := fun h => by
  have e : a &&& 0xFFF0 = 0xFF30 := of_within (P := fun a => a &&& 0xFFF0 = 0xFF30) h (by decide) (by decide)
  show packOp 0 a 0 &&& packOp 3 0xFFF0 0xFF = packOp 0 0xFF30 0
  rw [packOp_and, e]
  rfl

theorem wrNR52 (v : Byte) : Statement (.wrNR52 v) := fun _ => fixed_address _ v
theorem wrNR10 (v : Byte) : Statement (.wrNR10 v) := fun _ => fixed_address _ v
theorem wrNR11 (v : Byte) : Statement (.wrNR11 v) := fun _ => fixed_address _ v
theorem wrNR12 (v : Byte) : Statement (.wrNR12 v) := fun _ => fixed_address _ v
theorem wrNR13 (v : Byte) : Statement (.wrNR13 v) := fun _ => fixed_address _ v
theorem wrNR14 (v : Byte) : Statement (.wrNR14 v) := fun _ => fixed_address _ v
theorem wrFF15 (v : Byte) : Statement (.wrFF15 v) := fun _ => fixed_address _ v
theorem wrNR21 (v : Byte) : Statement (.wrNR21 v) := fun _ => fixed_address _ v
theorem wrNR22 (v : Byte) : Statement (.wrNR22 v) := fun _ => fixed_address _ v
theorem wrNR23 (v : Byte) : Statement (.wrNR23 v) := fun _ => fixed_address _ v
theorem wrNR24 (v : Byte) : Statement (.wrNR24 v) := fun _ => fixed_address _ v
theorem wrNR30 (v : Byte) : Statement (.wrNR30 v) := fun _ => fixed_address _ v
theorem wrNR31 (v : Byte) : Statement (.wrNR31 v) := fun _ => fixed_address _ v
theorem wrNR32 (v : Byte) : Statement (.wrNR32 v) := fun _ => fixed_address _ v
theorem wrNR33 (v : Byte) : Statement (.wrNR33 v) := fun _ => fixed_address _ v
theorem wrNR34 (v : Byte) : Statement (.wrNR34 v) := fun _ => fixed_address _ v
theorem wrFF1F (v : Byte) : Statement (.wrFF1F v) := fun _ => fixed_address _ v
theorem wrNR41 (v : Byte) : Statement (.wrNR41 v) := fun _ => fixed_address _ v
theorem wrNR42 (v : Byte) : Statement (.wrNR42 v) := fun _ => fixed_address _ v
theorem wrNR43 (v : Byte) : Statement (.wrNR43 v) := fun _ => fixed_address _ v
theorem wrNR44 (v : Byte) : Statement (.wrNR44 v) := fun _ => fixed_address _ v
theorem wrNR50 (v : Byte) : Statement (.wrNR50 v) := fun _ => fixed_address _ v
theorem wrNR51 (v : Byte) : Statement (.wrNR51 v) := fun _ => fixed_address _ v
theorem wrFF27 (v : Byte) : Statement (.wrFF27 v) := fun _ => fixed_address _ v

theorem wrFF28to2F (a : Addr) (v : Byte) : Statement (.wrFF28to2F a v) := fun h => by
  have e : a &&& 0xFFF8 = 0xFF28 := of_within (P := fun a => a &&& 0xFFF8 = 0xFF28) h (by decide) (by decide)
  have z : v &&& 0 = 0 := BitVec.and_zero
  show packOp 1 a v &&& packOp 3 0xFFF8 0 = packOp 1 0xFF28 0
  rw [packOp_and, e, z]
  rfl

theorem wrWave (a : Addr) (v : Byte) : Statement (.wrWave a v) := fun h => by
  have e : a &&& 0xFFF0 = 0xFF30 := of_within (P := fun a => a &&& 0xFFF0 = 0xFF30) h (by decide) (by decide)
  have z : v &&& 0 = 0 := BitVec.and_zero
  show packOp 1 a v &&& packOp 3 0xFFF0 0 = packOp 1 0xFF30 0
  rw [packOp_and, e, z]
  rfl

theorem gen (n : BitVec 24) : Statement (.gen n) := fun _ => by
  have z : n &&& 0 = 0 := BitVec.and_zero
  show (2 : BitVec 2) ++ n &&& (3 : BitVec 2) ++ (0 : BitVec 24) = (2 : BitVec 2) ++ (0 : BitVec 24)
  rw [BitVec.and_append, z]
  rfl

theorem ctlInit : Statement .ctlInit := fun _ => rfl

theorem ctlEnable (b : Bool) : Statement (.ctlEnable b) := fun _ => by cases b <;> rfl

theorem ctlLock (b : Bool) : Statement (.ctlLock b) := fun _ => by cases b <;> rfl

end Sys2Proof.Laws.TableRow
end

