-- ==== Sys2Proof/Tests/Slice0.lean ====
section
/-! SUPPORT. Tests: ill-formed terms, words written out from 30_encoding.md, one step of every operation against the vectors of
95_test_vectors.md, and a witness for every statement that has hypotheses. -/

namespace Sys2Proof.Tests

open Sys2Proof Sys2Proof.Machine Sys2Proof.Safety

/-! ### Helpers -/

/-- The state after some operations. -/
def run : List Instr → State → State
  | [], s => s
  | i :: is, s =>
    match exec i s with
    | .next t => run is t
    | .fault _ => s
    | .refused _ => s

/-- The state after some operations from the clean configuration S0 (R283). -/
def s0 (is : List Instr) : State := run is State.reset

/-- S0 with master power off. -/
def off : State := s0 [.wrNR52 0x00]

/-- Square1 playing at frequency 2016 with volume 15 (95_test_vectors.md section 0: one crossing per step). -/
def playing : State := s0 [.wrNR50 0x77, .wrNR51 0x11, .wrNR11 0x80, .wrNR12 0xF0, .wrNR13 0xE0, .wrNR14 0x87]

/-- The next state of one step. -/
def stepped (s : State) : Option State :=
  match step s with
  | .next t => some t
  | .fault _ => none
  | .refused _ => none

/-- The left buffer as integers. -/
def left (s : State) : List Int := s.outL.map (·.toInt)

/-! ### Well-formedness: one ill-formed term for each check -/

theorem test_wf_rdFF1x : (Instr.rdFF1x 0xFF20).wf = false := by decide
theorem test_wf_rdFF2x : (Instr.rdFF2x 0xFF1F).wf = false := by decide
theorem test_wf_rdWave : (Instr.rdWave 0xFF40).wf = false := by decide
theorem test_wf_wrFF28to2F : (Instr.wrFF28to2F 0xFF27 0).wf = false := by decide
theorem test_wf_wrWave : (Instr.wrWave 0xFF2F 0).wf = false := by decide

/-! ### Decoding: a word of every row, kind in bits 25..24, address in bits 23..8, data in bits 7..0 (R80) -/

theorem test_decode_rdFF1x : decode 0b00_1111111100010100_00000000 = .ok (.rdFF1x 0xFF14) := by decide
theorem test_decode_rdFF2x : decode 0b00_1111111100100110_00000000 = .ok (.rdFF2x 0xFF26) := by decide
theorem test_decode_rdWave : decode 0b00_1111111100111111_00000000 = .ok (.rdWave 0xFF3F) := by decide
theorem test_decode_wrNR52 : decode 0b01_1111111100100110_10000000 = .ok (.wrNR52 0x80) := by decide
theorem test_decode_wrNR10 : decode 0b01_1111111100010000_00010001 = .ok (.wrNR10 0x11) := by decide
theorem test_decode_wrNR11 : decode 0b01_1111111100010001_10111111 = .ok (.wrNR11 0xBF) := by decide
theorem test_decode_wrNR12 : decode 0b01_1111111100010010_11110000 = .ok (.wrNR12 0xF0) := by decide
theorem test_decode_wrNR13 : decode 0b01_1111111100010011_11100000 = .ok (.wrNR13 0xE0) := by decide
theorem test_decode_wrNR14 : decode 0b01_1111111100010100_11000111 = .ok (.wrNR14 0xC7) := by decide
theorem test_decode_wrFF15 : decode 0b01_1111111100010101_00000001 = .ok (.wrFF15 0x01) := by decide
theorem test_decode_wrNR21 : decode 0b01_1111111100010110_11000000 = .ok (.wrNR21 0xC0) := by decide
theorem test_decode_wrNR22 : decode 0b01_1111111100010111_11110001 = .ok (.wrNR22 0xF1) := by decide
theorem test_decode_wrNR23 : decode 0b01_1111111100011000_00010010 = .ok (.wrNR23 0x12) := by decide
theorem test_decode_wrNR24 : decode 0b01_1111111100011001_10000111 = .ok (.wrNR24 0x87) := by decide
theorem test_decode_wrNR30 : decode 0b01_1111111100011010_10000000 = .ok (.wrNR30 0x80) := by decide
theorem test_decode_wrNR31 : decode 0b01_1111111100011011_11111111 = .ok (.wrNR31 0xFF) := by decide
theorem test_decode_wrNR32 : decode 0b01_1111111100011100_00100000 = .ok (.wrNR32 0x20) := by decide
theorem test_decode_wrNR33 : decode 0b01_1111111100011101_11000000 = .ok (.wrNR33 0xC0) := by decide
theorem test_decode_wrNR34 : decode 0b01_1111111100011110_10000111 = .ok (.wrNR34 0x87) := by decide
theorem test_decode_wrFF1F : decode 0b01_1111111100011111_00000010 = .ok (.wrFF1F 0x02) := by decide
theorem test_decode_wrNR41 : decode 0b01_1111111100100000_00111111 = .ok (.wrNR41 0x3F) := by decide
theorem test_decode_wrNR42 : decode 0b01_1111111100100001_11111000 = .ok (.wrNR42 0xF8) := by decide
theorem test_decode_wrNR43 : decode 0b01_1111111100100010_01001000 = .ok (.wrNR43 0x48) := by decide
theorem test_decode_wrNR44 : decode 0b01_1111111100100011_10000000 = .ok (.wrNR44 0x80) := by decide
theorem test_decode_wrNR50 : decode 0b01_1111111100100100_01110111 = .ok (.wrNR50 0x77) := by decide
theorem test_decode_wrNR51 : decode 0b01_1111111100100101_00010001 = .ok (.wrNR51 0x11) := by decide
theorem test_decode_wrFF27 : decode 0b01_1111111100100111_01011010 = .ok (.wrFF27 0x5A) := by decide
theorem test_decode_wrFF28to2F : decode 0b01_1111111100101111_01011010 = .ok (.wrFF28to2F 0xFF2F 0x5A) := by decide
theorem test_decode_wrWave : decode 0b01_1111111100111011_10011000 = .ok (.wrWave 0xFF3B 0x98) := by decide
theorem test_decode_gen : decode 0b10_000000000000001000000000 = .ok (.gen 512) := by decide
theorem test_decode_ctlInit : decode 0b11_0000000000000000_00000000 = .ok .ctlInit := by decide
/-- R80, R83: S = 0 with `op[7:1]` = 0 is `init`, whatever B is. -/
theorem test_decode_ctlInit_value : decode 0b11_0000000000000000_00000001 = .ok .ctlInit := by decide
theorem test_decode_ctlEnable : decode 0b11_0000000000000001_00000001 = .ok (.ctlEnable true) := by decide
theorem test_decode_ctlLock : decode 0b11_0000000000000010_00000000 = .ok (.ctlLock false) := by decide

/-- V-RD-4, and the control words of R83. -/
theorem test_decode_refuses_bad_words :
    decode 0x0FF1001 = .error .badOperationWord ∧ decode 0x3000300 = .error .badOperationWord ∧
    decode 0x3000102 = .error .badOperationWord := by decide

/-- V-RD-3 and the addresses just outside the window. -/
theorem test_decode_refuses_addresses :
    decode 0x0FF0F00 = .error .addressOutOfRange ∧ decode 0x0FF4000 = .error .addressOutOfRange ∧
    decode 0x1FF0F55 = .error .addressOutOfRange ∧ decode 0x1FF4055 = .error .addressOutOfRange := by decide

/-! ### Reset, the step and the switches -/

/-- V-IN-1: `INIT` with the S0 bytes leaves S0. -/
theorem test_init_is_reset : run [.ctlInit] State.reset = State.reset := by decide +kernel

/-- V-IN-1 from a state in use; V-IN-2: the host's lock is kept. -/
theorem test_init_clears : run [.ctlLock true, .ctlInit] { playing with outL := [] } =
    { State.reset with hostLocked := true } := by decide +kernel

/-- A word placed for the fetch runs as the very next step. -/
theorem test_step_runs_word : stepped (State.reset.withFetchWord 32 0x1FF2435) = some (s0 [.wrNR50 0x35]) := by
  decide +kernel

/-- V-RD-3: the refusal mark is set. -/
theorem test_step_refuses : stepped (State.reset.withFetchWord 32 0x0FF0F00) =
    some { State.reset with marks := { addressOutOfRange := true, badOperationWord := false } } := by decide +kernel

/-- V-L1-6: `GEN` with the host disabled returns false and leaves the buffers. -/
theorem test_ctlEnable_blocks : run [.ctlEnable false, .gen 4] { playing with outL := [111, 111] } =
    { playing with outL := [111, 111], hostEnable := false, returned := .produced false } := by decide +kernel

/-- V-HS-2: the lock blocks `GEN`, and a read still works under it. -/
theorem test_ctlLock_blocks :
    (run [.ctlLock true, .gen 4] playing).returned = .produced false ∧
    (run [.ctlLock true, .rdFF2x 0xFF26] playing).returned = .byte 0xF1 := by decide +kernel

/-! ### Reads (V-RD-1, V-L1-1) -/

theorem test_rdFF1x_mask : (run [.rdFF1x 0xFF16] (s0 [.wrNR21 0x41])).returned = .byte 0x7F := by decide
theorem test_rdFF1x_off : (run [.rdFF1x 0xFF12] (run [.wrNR12 0xF0] off)).returned = .byte 0x00 := by decide
theorem test_rdFF2x_status : (run [.rdFF2x 0xFF26] off).returned = .byte 0x70 := by decide
theorem test_rdFF2x_unmasked : (run [.rdFF2x 0xFF27] (s0 [.wrFF27 0x5A])).returned = .byte 0x5A := by decide
theorem test_rdWave_byte : (run [.rdWave 0xFF30] (s0 [.wrWave 0xFF30 0xA5])).returned = .byte 0xA5 := by decide

/-! ### Writes -/

/-- V-WR-11: NR52 = 0x80 while Square1 plays clears the status bits, not the channel. -/
theorem test_wrNR52_on : (run [.wrNR52 0x80] playing).reg 0xFF26 = 0x80 ∧
    (run [.wrNR52 0x80] playing).square1.enabled = true := by decide
/-- V-PW-2: power-off clears the byte and keeps the decoded volume. -/
theorem test_wrNR52_off : (run [.wrNR52 0x00] playing).reg 0xFF24 = 0x00 ∧ (run [.wrNR52 0x00] playing).volumeLeft = 7 ∧
    (run [.wrNR52 0x00] playing).square1.enabled = false := by decide
/-- V-WR-1: an NR10 write is not seen before the next trigger. -/
theorem test_wrNR10_latched : (run [.wrNR10 0x10] playing).sweep = playing.sweep ∧
    (run [.wrNR10 0x10] playing).reg 0xFF10 = 0x10 := by decide
/-- V-WR-2. -/
theorem test_wrNR11 : (s0 [.wrNR11 0x81]).square1.len.load = 1 ∧ (s0 [.wrNR11 0x81]).duty1.dutyPattern = 0x3C := by decide
/-- V-WR-3. -/
theorem test_wrNR12_disabled : (s0 [.wrNR12 0xF8]).square1.volumeInit = 15 ∧ (s0 [.wrNR12 0xF8]).square1.env.direction = .up ∧
    (s0 [.wrNR12 0xF8]).square1.powered = true ∧ (s0 [.wrNR12 0xF8]).square1.volume = 0 := by decide
/-- V-ZM-1: zombie mode, 15 + 1 wraps to 0. -/
theorem test_wrNR12_zombie : (run [.wrNR12 0xF8] playing).square1.volume = 0 := by decide
/-- V-WR-4: 0x523 becomes 0x510. -/
theorem test_wrNR13_merges : (s0 [.wrNR14 0x05, .wrNR13 0x23, .wrNR13 0x10]).square1.frequency = 0x510 := by decide
/-- V-TR-1. -/
theorem test_wrNR14_trigger :
    (s0 [.wrNR11 0x3E, .wrNR12 0xA3, .wrNR14 0xC5]).square1.volume = 10 ∧
    (s0 [.wrNR11 0x3E, .wrNR12 0xA3, .wrNR14 0xC5]).square1.env.increment = 10922 ∧
    (s0 [.wrNR11 0x3E, .wrNR12 0xA3, .wrNR14 0xC5]).square1.len.increment = 65536 ∧
    (s0 [.wrNR11 0x3E, .wrNR12 0xA3, .wrNR14 0xC5]).sweep.shadowFrequency = 1280 := by decide
/-- P2, the retrigger: the merge masks 3000 to 1976. -/
theorem test_wrNR14_masks_overflow :
    (run [.wrNR14 0x87] { playing with square1 := { playing.square1 with frequency := 3000 } }).square1.frequency = 1976 := by
  decide
/-- V-WR-12. -/
theorem test_wrFF15 : (run [.rdFF1x 0xFF15] (s0 [.wrFF15 0x00])).returned = .byte 0xFF := by decide
/-- V-WR-2. -/
theorem test_wrNR21 : (s0 [.wrNR21 0xC0]).square2.len.load = 0 ∧ (s0 [.wrNR21 0xC0]).duty2.dutyPattern = 0xCF := by decide
/-- V-ZM-4 on Square2: step 1, 16 - 5 = 11. -/
theorem test_wrNR22_zombie : (run [.wrNR22 0x52] (s0 [.wrNR22 0x51, .wrNR24 0x80])).square2.volume = 11 := by decide
theorem test_wrNR23 : (s0 [.wrNR23 0xFF]).square2.frequency = 0x0FF := by decide
/-- V-RD-1: NR24 = 0x07 triggers nothing; a trigger shows in NR52 bit 1 (R42). -/
theorem test_wrNR24 : (s0 [.wrNR24 0x07]).reg 0xFF26 = 0x80 ∧ (s0 [.wrNR24 0x87]).reg 0xFF26 = 0x82 := by decide
/-- V-WR-5: the DAC off leaves the channel enabled. -/
theorem test_wrNR30 : (run [.wrNR30 0x00] (s0 [.wrNR30 0x80, .wrNR34 0x80])).wave.powered = false ∧
    (run [.wrNR30 0x00] (s0 [.wrNR30 0x80, .wrNR34 0x80])).reg 0xFF26 = 0x84 := by decide
/-- V-WR-6. -/
theorem test_wrNR31 : (run [.wrNR34 0xC0] (s0 [.wrNR31 0xFF])).wave.len.increment = 131072 := by decide
/-- V-WR-7. -/
theorem test_wrNR32 : (s0 [.wrNR32 0x40]).wave.volume = 2 ∧ (s0 [.wrNR32 0x40]).wave.volumeInit = 2 := by decide
theorem test_wrNR33 : (s0 [.wrNR34 0x07, .wrNR33 0xC0]).wave.frequency = 1984 := by decide
/-- V-TR-3. -/
theorem test_wrNR34_trigger : (run [.wrNR34 0x80] { State.reset with samplePosition := 9 }).samplePosition = 0 ∧
    (s0 [.wrNR34 0x80]).wave.len.increment = 512 ∧ (s0 [.wrNR34 0x80]).reg 0xFF26 = 0x84 := by decide
theorem test_wrFF1F : (run [.rdFF1x 0xFF1F] (s0 [.wrFF1F 0x00])).returned = .byte 0xFF := by decide
/-- V-WR-2. -/
theorem test_wrNR41 : (s0 [.wrNR41 0xFF]).noise.len.load = 63 ∧ (s0 [.wrNR41 0xFF]).duty1 = State.reset.duty1 := by decide
/-- P4, step 9: zombie mode, 0 + 2. -/
theorem test_wrNR42_zombie :
    (run [.wrNR42 0xF0] (s0 [.wrNR42 0xF0, .wrNR44 0x80, .wrNR42 0xF8])).noise.volume = 2 := by decide
/-- V-WR-8. -/
theorem test_wrNR43 : (s0 [.wrNR43 0x3A]).noise.frequency = 3 ∧ (s0 [.wrNR43 0x3A]).noiseVoice.widthMode = .narrow ∧
    (s0 [.wrNR43 0x3A]).noiseVoice.divisorCode = 2 := by decide
/-- V-TR-2, V-WR-9. -/
theorem test_wrNR44_trigger : (s0 [.wrNR43 0x40, .wrNR44 0x80]).noiseVoice.lfsr = 0xFFFF ∧
    (s0 [.wrNR43 0x40, .wrNR44 0x80]).noise.currentLevel = -32 ∧ (s0 [.wrNR43 0x40, .wrNR44 0x80]).noise.frequency = 4 ∧
    (s0 [.wrNR43 0x40, .wrNR44 0x80]).noise.len.increment = 2048 := by decide
/-- V-WR-10. -/
theorem test_wrNR50 : (s0 [.wrNR50 0x35]).volumeLeft = 3 ∧ (s0 [.wrNR50 0x35]).volumeRight = 5 := by decide
/-- V-WR-10. -/
theorem test_wrNR51 : (s0 [.wrNR51 0x21]).square2.onLeft = true ∧ (s0 [.wrNR51 0x21]).square1.onRight = true ∧
    (s0 [.wrNR51 0x21]).square1.onLeft = false ∧ (s0 [.wrNR51 0x21]).square2.onRight = false := by decide
theorem test_wrFF27 : (s0 [.wrFF27 0x5A]).reg 0xFF27 = 0x5A := by decide
/-- V-WR-12: a power-off does not clear 0xFF28. -/
theorem test_wrFF28to2F : (run [.wrNR52 0x00] (s0 [.wrFF28to2F 0xFF28 0x5A])).reg 0xFF28 = 0x5A := by decide
/-- V-WR-13. -/
theorem test_wrWave : waveNibble (s0 [.wrWave 0xFF30 0x4B]).mem 0 = 4 ∧ waveNibble (s0 [.wrWave 0xFF30 0x4B]).mem 1 = 11 ∧
    (run [.wrWave 0xFF30 0x99] off).reg 0xFF30 = 0x00 := by decide

/-! ### `GEN` -/

/-- V-MX-1. -/
theorem test_gen_square : left (run [.gen 8] playing) = [0, 0, -420, -420, 420, 420, 420, 420] := by decide
/-- V-MX-5: a partial group. -/
theorem test_gen_partial_group : left (run [.gen 3] playing) = [0, 0, -420] := by decide

/-! ### The parts of `generate` -/

/-- V-SQ-2: one step at f = 2017 with the crossing at its end is truncated to 0, the next one is -28. -/
theorem test_phase_fraction :
    (phaseStep 16777216 17317888 (squareAdvance Params.testConfig) 0 0 { dutyPattern := 0x3C, dutyStep := 0 }).mean = 0 ∧
    (phaseStep 16777216 17317888 (squareAdvance Params.testConfig) 540672 (-32) { dutyPattern := 0x3C, dutyStep := 1 }).mean =
      -28 := by decide
/-- 95_test_vectors.md section 2.8. -/
theorem test_increments : squareInc Params.testConfig 2017 = 17317888 ∧ waveInc Params.testConfig 1984 = 16777216 ∧
    noiseInc Params.testConfig 7 13 = 2048 := by decide
/-- V-WV-2. -/
theorem test_waveLevel : waveLevel 15 1 = 7 ∧ waveLevel 15 2 = -1 ∧ waveLevel 15 3 = -5 ∧ waveLevel 15 0 = 0 := by decide
/-- V-SW-1: 0 - 1000 wraps to 64536 and disables. -/
theorem test_sweep_wraps :
    let s := { playing with
      square1 := { playing.square1 with frequency := 0 },
      sweep := { shadowFrequency := 2000, period := 1, direction := .decrease, shift := 1, counter := 16777216,
                 increment := 65536 } }
    (sweepTick s).2 = true ∧ (sweepTick s).1.square1.frequency = 64536 ∧ (sweepTick s).1.square1.enabled = false := by decide
/-- V-EN-1: the first change of volume is at the tick that exceeds the threshold. -/
theorem test_envelope_tick :
    let c := { playing.square1 with env := { step := 1, direction := .down, counter := 16777216, increment := 32768 } }
    (envTickChannel 16777216 c).volume = 14 ∧ (envTickChannel 16777216 c).env.counter = 32768 := by decide
/-- R160, "loop handles coarse steps": three firings take 13 up to 15, where the increment freezes; 3 * 16 leaves 49 - 48 = 1. -/
theorem test_envelope_coarse :
    let c := { playing.square1 with volume := 13, env := { step := 1, direction := .up, counter := 0, increment := 49 } }
    (envTickChannel 16 c).volume = 15 ∧ (envTickChannel 16 c).env.counter = 1 ∧ (envTickChannel 16 c).env.increment = 0 := by
  decide
/-- R162's delta of 512 at shadow 1024 and shift 1: from 1024 two firings leave 1536 and 2048; the second one is above 2047. -/
theorem test_sweep_coarse :
    let s := { playing with
      params := { playing.params with thresh := 16 }
      square1 := { playing.square1 with frequency := 1024 },
      sweep := { shadowFrequency := 1024, period := 1, direction := .increase, shift := 1, counter := 0, increment := 33 } }
    (sweepTick s).2 = true ∧ (sweepTick s).1.square1.frequency = 2048 ∧ (sweepTick s).1.square1.enabled = false ∧
    (sweepTick s).1.sweep.counter = 1 ∧
    (sweepTick s).1.square1.frequencyIncrement = squareInc { playing.params with thresh := 16 } 1536 := by decide
/-- R265's "the length counter still has the value `LengthSpan` gave it", by R170 (log 19): the sweep (shift 0, period 1) stops
Square1 in the second of four steps of a length with increment 2048. One call of 8 slots has n = 4 and leaves 4 * 2048 = 8192; two
calls of 4 slots have n = 2 and then a disabled channel, and leave 2 * 2048 = 4096. The slots are the same. -/
theorem test_length_after_sweep_stop :
    let s := { playing with
      square1 := { playing.square1 with len := { load := 0, enabled := true, counter := 0, increment := 2048 } },
      sweep := { shadowFrequency := 0, period := 1, direction := .increase, shift := 0, counter := 16777215, increment := 1 } }
    (run [.gen 8] s).square1.len.counter = 8192 ∧ (run [.gen 4, .gen 4] s).square1.len.counter = 4096 ∧
    left (run [.gen 8] s) = left (run [.gen 4] s) ++ left (run [.gen 4, .gen 4] s) := by decide
/-- V-LN-2: a length of 128 steps ends in a span of 64 only when 64 or fewer remain. -/
theorem test_length_span :
    let s := { playing with square1 := { playing.square1 with
      len := { load := 63, enabled := true, counter := 0, increment := 131072 } } }
    (lengthSpan .square1 64 s).2 = 64 ∧ (lengthSpan .square1 64 s).1.square1.enabled = true ∧
    (lengthSpan .square1 64 (lengthSpan .square1 64 s).1).2 = 64 ∧
    (lengthSpan .square1 64 (lengthSpan .square1 64 s).1).1.square1.enabled = false := by decide
/-- V-NZ-3: a shift code of 14 disables Noise. -/
theorem test_noise_guard : (noiseGuards (s0 [.wrNR43 0xE0, .wrNR44 0x80])).2 = false ∧
    (noiseGuards (s0 [.wrNR43 0xE0, .wrNR44 0x80])).1.noise.enabled = false := by decide

/-! ### Witnesses: for every statement with hypotheses, values that meet them, at the ends of its ranges -/

/-- S0 with one word pending. -/
def pending (w : OpWord) : State := { State.reset with inbox := [w] }

theorem witness_DecodeEncodeRoundTrip :
    (Instr.rdFF1x 0xFF10).wf = true ∧ (Instr.rdFF1x 0xFF1F).wf = true ∧ (Instr.rdFF2x 0xFF20).wf = true ∧
    (Instr.rdFF2x 0xFF2F).wf = true ∧ (Instr.rdWave 0xFF30).wf = true ∧ (Instr.rdWave 0xFF3F).wf = true ∧
    (Instr.wrFF28to2F 0xFF28 0xFF).wf = true ∧ (Instr.wrFF28to2F 0xFF2F 0).wf = true ∧
    (Instr.wrWave 0xFF30 0xFF).wf = true ∧ (Instr.wrWave 0xFF3F 0).wf = true ∧ (Instr.gen 0xFFFFFF).wf = true := by decide

theorem witness_AcceptedWordIsItsEncoding :
    decode 0x2FFFFFF = .ok (.gen 0xFFFFFF) ∧ decode 0x3000001 = .ok .ctlInit := by decide

theorem witness_DecoderFollowsOpcodeTable :
    decode 0x3000001 = .ok .ctlInit ∧ decode 0x1FF2F5A = .ok (.wrFF28to2F 0xFF2F 0x5A) ∧
    (0x1FF2F5A : OpWord) &&& (tableRow (.wrFF28to2F 0xFF28 0)).2 = (tableRow (.wrFF28to2F 0xFF28 0)).1 := by decide

theorem witness_TableRowsDisjoint :
    (0x3000201 : OpWord) &&& (tableRow (.ctlLock true)).2 = (tableRow (.ctlLock true)).1 ∧
    (0x3000201 : OpWord) &&& (tableRow (.ctlLock false)).2 = (tableRow (.ctlLock false)).1 := by decide

/-- A word for each reason and clause: D = 1, S = 3, `op[7:1]` = 1 with S = 2 and with S = 0; addresses 0xFF0F and 0xFF40. -/
theorem witness_RefusedWords :
    decode 0x0FF1001 = .error .badOperationWord ∧ decode 0x3000300 = .error .badOperationWord ∧
    decode 0x3000202 = .error .badOperationWord ∧ decode 0x3000002 = .error .badOperationWord ∧
    decode 0x0FF0F00 = .error .addressOutOfRange ∧ decode 0x1FF4000 = .error .addressOutOfRange ∧
    decode 0x0FF0F01 = .error .badOperationWord := by decide

theorem witness_StepRunsDecodedOperation :
    (pending 0x1FF2435).inbox = 0x1FF2435 :: [] ∧ decode 0x1FF2435 = .ok (.wrNR50 0x35) := by decide

theorem witness_StepMarksRefusedWord :
    ((pending 0x0FF0F00).inbox = 0x0FF0F00 :: [] ∧ decode 0x0FF0F00 = .error .addressOutOfRange) ∧
    ((pending 0x3000300).inbox = 0x3000300 :: [] ∧ decode 0x3000300 = .error .badOperationWord) := by decide

theorem witness_StepWaitsForTheHost : State.reset.inbox = [] := by decide

theorem witness_RefusalMarkStays :
    (∃ t, step { pending 0x3000000 with marks := { addressOutOfRange := true, badOperationWord := true } } = .next t) ∧
    ({ pending 0x3000000 with marks := { addressOutOfRange := true, badOperationWord := true } } : State).marks =
      { addressOutOfRange := true, badOperationWord := true } := ⟨⟨_, rfl⟩, rfl⟩

theorem witness_ParametersNeverChange : ∃ t, step (pending 0x3000000) = .next t := ⟨_, rfl⟩

theorem witness_InitRestoresReset : playing.params.initImage = [(0xFF26, 0x80)] := by decide

/-- Init bytes with NR52 bit 7 clear, and set. -/
theorem witness_InitWritesTheDefaults :
    (memRead [(0xFF14, 0x80)] 0xFF26).getLsbD 7 = false ∧
    (memRead State.reset.params.initImage 0xFF26).getLsbD 7 = true := by decide

/-- R280, R281: init bytes that set up and trigger Square1, by hand: NR11 0x81 is load 1 and duty 2, NR12 0xA3 volume 10 and step 3,
NR13 and NR14 0x23 and 0xC5 frequency 0x523 with the length on, NR51 0x10 left only. -/
theorem test_init_decodes :
    let s := run [.ctlInit] { State.reset with params := { State.reset.params with initImage :=
      [(0xFF11, 0x81), (0xFF12, 0xA3), (0xFF13, 0x23), (0xFF14, 0xC5), (0xFF25, 0x10), (0xFF26, 0x80)] } }
    s.square1.enabled = true ∧ s.square1.volume = 10 ∧ s.square1.frequency = 0x523 ∧ s.square1.len.load = 1 ∧
    s.square1.len.enabled = true ∧ s.square1.env.step = 3 ∧ s.duty1.dutyPattern = 0x3C ∧ s.square1.onLeft = true ∧
    s.square1.onRight = false ∧ s.sweep.shadowFrequency = 0x523 ∧ s.reg 0xFF26 = 0x81 := by decide +kernel

/-- The ends of the three ranges, and the two sides of 0xFF26. -/
theorem witness_ReadReturnsStoredOrMask :
    (0xFF10 ≤ (0xFF10 : Addr).toNat ∧ (0xFF1F : Addr).toNat ≤ 0xFF1F) ∧
    (0xFF20 ≤ (0xFF20 : Addr).toNat ∧ (0xFF26 : Addr).toNat ≤ 0xFF26 ∧ 0xFF26 < (0xFF27 : Addr).toNat ∧
      (0xFF2F : Addr).toNat ≤ 0xFF2F) ∧
    (0xFF30 ≤ (0xFF30 : Addr).toNat ∧ (0xFF3F : Addr).toNat ≤ 0xFF3F) := by decide

theorem witness_PowerOffReadsAsMask :
    memWf playing.mem = true ∧ (0x7F : Byte).getLsbD 7 = false ∧ 0xFF10 ≤ (0xFF10 : Addr).toNat ∧
    (0xFF26 : Addr).toNat ≤ 0xFF26 := by decide

theorem witness_OutOfWindowAddressIsRefused :
    ((0xFF0F : Addr).toNat < 0xFF10 ∧ 0xFF3F < (0xFF40 : Addr).toNat) ∧
    (pending 0x0FF0F00).inbox = packOp 0 0xFF0F 0 :: [] ∧ (pending 0x1FF4055).inbox = packOp 1 0xFF40 0x55 :: [] := by decide

theorem witness_PoweredOffWriteIsIgnored :
    (off.reg 0xFF26).getLsbD 7 = false ∧ (Instr.wrWave 0xFF3F 0x99).wf = true ∧
    writeAddr (.wrWave 0xFF3F 0x99) = some 0xFF3F ∧ (0xFF3F : Nat) ≠ 0xFF26 ∧
    writeAddr (.wrNR10 0x99) = some 0xFF10 ∧ (Instr.rdFF2x 0xFF26).wf = true := by decide

theorem witness_WriteStoresItsByte :
    memWf playing.mem = true ∧ (playing.reg 0xFF26).getLsbD 7 = true ∧ (Instr.wrNR14 0xC7).wf = true ∧
    writeAddr (.wrNR14 0xC7) = some 0xFF14 ∧ writeData (.wrNR14 0xC7) = some 0xC7 ∧ (0xFF14 : Nat) ≠ 0xFF26 ∧
    mayEnable (.wrNR14 0xC7) = true ∧ mayEnable (.wrNR14 0x47) = false := by decide

/-- The hypotheses of StoredOnlyWrites, DutyLengthWrites, EnvelopeWrites, FrequencyLowWrites, WaveRegisterWrites,
NoiseFrequencyWrite and MixerWrites. -/
theorem witness_poweredOn : memWf playing.mem = true ∧ (playing.reg 0xFF26).getLsbD 7 = true := by decide

theorem witness_StoredOnlyWrites :
    memWf playing.mem = true ∧ (playing.reg 0xFF26).getLsbD 7 = true ∧
    (0xFF28 ≤ (0xFF28 : Addr).toNat ∧ (0xFF2F : Addr).toNat ≤ 0xFF2F) ∧
    (0xFF30 ≤ (0xFF30 : Addr).toNat ∧ (0xFF3F : Addr).toNat ≤ 0xFF3F) := by decide

theorem witness_DutyLengthWrites : memWf playing.mem = true ∧ (playing.reg 0xFF26).getLsbD 7 = true := witness_poweredOn

theorem witness_EnvelopeWrites : memWf playing.mem = true ∧ (playing.reg 0xFF26).getLsbD 7 = true := witness_poweredOn

theorem witness_FrequencyLowWrites : memWf playing.mem = true ∧ (playing.reg 0xFF26).getLsbD 7 = true := witness_poweredOn

theorem witness_ControlWritesWithoutTrigger :
    memWf playing.mem = true ∧ (playing.reg 0xFF26).getLsbD 7 = true ∧ (0x7F : Byte).getLsbD 7 = false := by decide

/-- The hypotheses of the four trigger statements. -/
theorem witness_triggers :
    memWf playing.mem = true ∧ (playing.reg 0xFF26).getLsbD 7 = true ∧ (0x80 : Byte).getLsbD 7 = true := by decide

theorem witness_TriggerSquare1 :
    memWf playing.mem = true ∧ (playing.reg 0xFF26).getLsbD 7 = true ∧ (0x80 : Byte).getLsbD 7 = true := witness_triggers

theorem witness_TriggerSquare2 :
    memWf playing.mem = true ∧ (playing.reg 0xFF26).getLsbD 7 = true ∧ (0x80 : Byte).getLsbD 7 = true := witness_triggers

theorem witness_TriggerWave :
    memWf playing.mem = true ∧ (playing.reg 0xFF26).getLsbD 7 = true ∧ (0x80 : Byte).getLsbD 7 = true := witness_triggers

theorem witness_TriggerNoise :
    memWf playing.mem = true ∧ (playing.reg 0xFF26).getLsbD 7 = true ∧ (0x80 : Byte).getLsbD 7 = true := witness_triggers

theorem witness_WaveRegisterWrites : memWf playing.mem = true ∧ (playing.reg 0xFF26).getLsbD 7 = true := witness_poweredOn

theorem witness_NoiseFrequencyWrite : memWf playing.mem = true ∧ (playing.reg 0xFF26).getLsbD 7 = true := witness_poweredOn

theorem witness_MixerWrites : memWf playing.mem = true ∧ (playing.reg 0xFF26).getLsbD 7 = true := witness_poweredOn

theorem witness_PowerWrite :
    memWf off.mem = true ∧ (0x80 : Byte).getLsbD 7 = true ∧ (0x7F : Byte).getLsbD 7 = false := by decide

theorem witness_EnabledWriters :
    (Instr.wrNR14 0x7F).wf = true ∧ mayEnable (.wrNR14 0x7F) = false ∧ ∃ t, exec (.wrNR14 0x7F) playing = .next t :=
  ⟨rfl, rfl, _, rfl⟩

/-- A byte that a power-off changes. -/
theorem witness_RegisterWindowWriters :
    memWf playing.mem = true ∧ (run [.wrNR52 0x00] playing).reg 0xFF25 ≠ playing.reg 0xFF25 ∧
    (run [.wrNR52 0x00] playing).reg 0xFF26 ≠ playing.reg 0xFF26 := by decide

/-- Threshold 16: no firing at 16, one at 17 and at 32, three at 49 and at 64, with a nonzero and with a zero step. -/
theorem witness_EnvelopeTick :
    1 ≤ 16 ∧ 16 + 0 ≤ 16 ∧ (1 ≤ 1 ∧ 1 * 16 < 16 + 1 ∧ 16 + 16 ≤ (1 + 1) * 16) ∧
    (1 ≤ 3 ∧ 3 * 16 < 16 + 33 ∧ 16 + 48 ≤ (3 + 1) * 16) ∧ (7 : BitVec 3) ≠ 0 ∧ playing.square1.env.step = 0 := by decide

theorem witness_EnvelopeStepZeroNeverMoves : (playing.ch .square1).env.step = 0 := by decide

/-- The ends of no firing, of one and of two; a firing's result at the two sides of 2047; two firings of which both stay below,
the last is above, and, downwards, both are above; the sweep's three cases. -/
theorem witness_SweepTickOnce :
    memWf playing.mem = true ∧ 1 ≤ playing.params.thresh ∧
    16777216 + 0 ≤ playing.params.thresh ∧
    (1 ≤ 1 ∧ 1 * playing.params.thresh < 16777216 + 1 ∧ 16777216 + 16777216 ≤ (1 + 1) * playing.params.thresh) ∧
    (1 ≤ 2 ∧ 2 * playing.params.thresh < 16777216 + 16777217 ∧ 16777216 + 33554432 ≤ (2 + 1) * playing.params.thresh) ∧
    (1365 + 1 * (1365 / 2 ^ 1)) % 65536 = 2047 ∧ 2047 < (1366 + 1 * (1366 / 2 ^ 1)) % 65536 ∧
    (1000 + 2 * (1000 / 2 ^ 1)) % 65536 ≤ 2047 ∧ 2047 < (1024 + 2 * (1024 / 2 ^ 1)) % 65536 ∧
    (2047 < (0 + 1 * (65536 - 2000 / 2 ^ 1)) % 65536 ∧ 2047 < (0 + 2 * (65536 - 2000 / 2 ^ 1)) % 65536) ∧
    playing.sweep.shift = 0 ∧ playing.sweep.period = 0 ∧
    (s0 [.wrNR10 0x10, .wrNR14 0x80]).sweep.period ≠ 0 ∧ (s0 [.wrNR10 0x11, .wrNR14 0x80]).sweep.shift ≠ 0 := by decide

/-- Three steps left: a span of 2 does not end the length, one of 3 does. -/
theorem witness_LengthSpanCases :
    let s : State := { playing with square1 := { playing.square1 with
      len := { load := 0, enabled := true, counter := 16777216 - 3 * 2048, increment := 2048 } } }
    memWf s.mem = true ∧ (s.ch .square1).len.counter ≤ s.params.thresh ∧ (s.ch .square1).len.enabled = true ∧
    (s.ch .square1).len.increment ≠ 0 ∧
    2 < (s.params.thresh - (s.ch .square1).len.counter) / (s.ch .square1).len.increment ∧
    (s.params.thresh - (s.ch .square1).len.counter) / (s.ch .square1).len.increment ≤ 3 ∧
    (playing.ch .square2).len.enabled = false := by decide

theorem witness_LengthSpanSplits :
    let s : State := { playing with square1 := { playing.square1 with
      len := { load := 0, enabled := true, counter := 16777216 - 3 * 2048, increment := 2048 } } }
    (s.ch .square1).len.enabled = true ∧ (s.ch .square1).len.increment ≠ 0 ∧
    2 < (s.params.thresh - (s.ch .square1).len.counter) / (s.ch .square1).len.increment := by decide

theorem witness_PhaseStepWithoutCrossing : 6 + 10 ≤ 16 := by decide

/-- No crossing, one and two, each at both ends of its range. -/
theorem witness_PhaseStepCrossings :
    1 ≤ 16 ∧ 1 ≤ 1 ∧ 16 ≤ 16 ∧ (0 * 16 < 0 + 1 ∧ 0 + 16 ≤ (0 + 1) * 16) ∧
    (1 * 16 < 16 + 1 ∧ 16 + 16 ≤ (1 + 1) * 16) ∧ (2 * 16 < 16 + 17 ∧ 16 + 32 ≤ (2 + 1) * 16) := by
  decide

/-- Square1's levels at pattern 0x3C over a step of two crossings, with the counter below the threshold and at it. -/
theorem witness_PhaseMeanWithinLevels :
    1 ≤ 16 ∧ 16 ≤ 16 ∧ ¬ (16 < 16 ∨ 17 = 0) ∧ ((15 < 16 ∨ 18 = 0) ∧ (-32 : Int) ≤ -32 ∧ (-32 : Int) ≤ 32) ∧
    ∀ j, 1 ≤ j → j * 16 < 15 + 18 →
      -32 ≤ (advanced (squareAdvance Params.testConfig) { dutyPattern := 0x3C, dutyStep := 0 } (-32) j).2 ∧
      (advanced (squareAdvance Params.testConfig) { dutyPattern := 0x3C, dutyStep := 0 } (-32) j).2 ≤ 32 :=
  ⟨by decide, by decide, by decide, by decide, fun j h1 h2 => by
    obtain rfl | rfl : j = 1 ∨ j = 2 := by omega
    all_goals decide⟩

theorem witness_WaveAdvanceFetchesNibble : (3 : BitVec 4).toNat ≤ 3 := by decide

theorem witness_NoiseRecurrence :
    1 ≤ Params.testConfig.lvl ∧ State.reset.noiseVoice.widthMode = .wide ∧
    (s0 [.wrNR43 0x48]).noiseVoice.widthMode = .narrow := by decide

theorem witness_NoisePeriods : 1 ≤ Params.testConfig.lvl := by decide

theorem witness_GenerateBlocked :
    (run [.ctlEnable false] playing).hostEnable = false ∧ (run [.ctlLock true] playing).hostLocked = true := by decide

theorem witness_GenerateSilence :
    off.params.wf ∧ off.hostEnable = true ∧ off.hostLocked = false ∧ ∀ i, (off.ch i).enabled = false :=
  ⟨by decide, by decide, by decide, fun i => by cases i <;> decide⟩

theorem witness_GenerateFrame :
    playing.params.wf ∧ memWf playing.mem = true ∧ playing.hostEnable = true ∧ playing.hostLocked = false := by decide

/-- A disabled channel, and an enabled one whose DAC is off. -/
theorem witness_UnprocessedChannelIsFrozen :
    (playing.ch .wave).enabled = false ∧ ((s0 [.wrNR14 0x80]).ch .square1).powered = false := by decide

/-- The two guards at their ends: shift code 14; shift code 13 with an increment of 2048 below a least increment of 2049. -/
theorem witness_NoiseSilenceRegion :
    (let s := s0 [.wrNR42 0xF0, .wrNR43 0xE0, .wrNR44 0x80]
     s.params.wf ∧ memWf s.mem = true ∧ s.hostEnable = true ∧ s.hostLocked = false ∧ (1 : BitVec 24) ≠ 0 ∧
     s.noise.enabled = true ∧ s.noise.powered = true ∧ 14 ≤ s.noise.frequency.toNat) ∧
    (let t := s0 [.wrNR42 0xF0, .wrNR43 0xD7, .wrNR44 0x80]
     let s : State := { t with params := { t.params with noiseMinInc := 2049 } }
     s.params.wf ∧ s.noise.enabled = true ∧ s.noise.powered = true ∧ s.noise.frequency.toNat < 14 ∧
     4194304 / (16 * 7 * 2 ^ s.noise.frequency.toNat) * s.params.thresh / s.params.fs < s.params.noiseMinInc) := by decide

/-- The mixing of one value; Square1 playing through four steps; a sweep that stops it in its second one; a noise channel in the
silence region; the noise guards at their ends (shift codes 14 and 13, increment 2048 with a least increment of 2049 and of 2048); a
disabled channel and an enabled one with its DAC off. -/
theorem witness_MixAddsScaledValues :
    (([480] : List Int).length ≤ ([0, 0] : List Int).length ∧ 1 < ([0, 0] : List Int).length) ∧
    (playing.square1.enabled = true ∧ playing.square1.powered = true ∧ (List.replicate 4 (0 : Int)).length = 4 ∧
      (channelGuards .square1 (recomputeIncrement .square1 playing)).2 = true ∧
      (lengthSpan .square1 4 (recomputeIncrement .square1 playing)).2 = 4 ∧
      playsThrough .square1 (recomputeIncrement .square1 playing) 3 = true ∧
      valueAt .square1 (recomputeIncrement .square1 playing) 1 = some (-480)) ∧
    (let s : State := { playing with
       sweep := { shadowFrequency := 0, period := 1, direction := .increase, shift := 0, counter := 16777215, increment := 1 } }
     valueAt .square1 s 0 ≠ none ∧ valueAt .square1 s 1 = none ∧ playsThrough .square1 s 1 = false) ∧
    (channelGuards .noise (recomputeIncrement .noise (s0 [.wrNR42 0xF0, .wrNR43 0xE0, .wrNR44 0x80]))).2 = false ∧
    14 ≤ (s0 [.wrNR43 0xE0]).noise.frequency.toNat ∧
    (let u := recomputeIncrement .noise (s0 [.wrNR43 0xD7])
     u.noise.frequency.toNat = 13 ∧ u.noise.frequencyIncrement < 2049 ∧ 2048 ≤ u.noise.frequencyIncrement) ∧
    (playing.ch .wave).enabled = false ∧
    ((s0 [.wrNR14 0x80]).ch .square1).enabled = true ∧ ((s0 [.wrNR14 0x80]).ch .square1).powered = false := by decide

/-- The ends of the 16-bit range and the integers just outside. -/
theorem witness_SlotHoldsSampleOrDraw :
    (-32768 : Int) ≤ -32768 ∧ (32767 : Int) ≤ 32767 ∧ (-32769 : Int) < -32768 ∧ (32767 : Int) < 32768 := by decide

/-- One sub-block of 4 steps and 8 slots, its true samples inside the 16-bit range; with a level of 32767
and a divisor of 1 the second one is below it on the left and the third one above it on the right. -/
theorem witness_SubBlockStoresTrueSamples :
    playing.params.wf ∧ playing.hostEnable = true ∧ playing.hostLocked = false ∧
    0 ≤ playing.outL.length ∧ 0 ≤ playing.outR.length ∧ 7 < 8 ∧
    (processAll 4 { st := playing, left := List.replicate 4 0, right := List.replicate 4 0 }).left = [0, -420, 420, 420] ∧
    (let s : State := { playing with params := { playing.params with lvl := 32767, mixDiv := 1 } }
     let b := processAll 4 { st := s, left := List.replicate 4 0, right := List.replicate 4 0 }
     b.left.getD 1 0 < -32768 ∧ 32767 < b.right.getD 2 0) := by
  decide

theorem witness_ReplicationGroups :
    playing.params.wf ∧ playing.hostEnable = true ∧ playing.hostLocked = false ∧ (run [.gen 3] playing).draws = playing.draws ∧
    2 < (3 : BitVec 24).toNat := by decide

theorem witness_SwitchesGateGenerate : false = false ∧ true = true := by decide

theorem witness_StepKeepsInvariant :
    Invariant { playing with inbox := [0x2000008] } ∧ ∃ t, step { playing with inbox := [0x2000008] } = .next t :=
  ⟨{ params := by decide
     window := by decide
     unused := by decide
     status := by decide
     offBytes := fun e => absurd e (by decide)
     offChannels := fun e => absurd e (by decide)
     square1Frequency := fun _ => by decide
     square2Frequency := by decide
     waveFrequency := by decide
     shiftCode := by decide
     waveCode := by decide
     waveEnvStep := by decide
     loads := by decide
     counters := fun i => by cases i <;> decide
     sweepCounter := by decide
     levels := fun i _ => by cases i <;> decide
     waveLevels := by decide }, _, rfl⟩

end Sys2Proof.Tests
end

section
/-! PROOFS. The step of the machine, what every operation leaves of the host's side of the state, and the statements of
00_scope.md (R5, R12, R35). -/

namespace Sys2Proof.Machine

open Sys2Proof.Safety

/-! ### The step, by the queue's oldest word -/

theorem step_of_empty {s : State} (h : s.inbox = []) : step s = .next s := by
  simp only [step, fetch, h, idle]

theorem step_of_ok {s : State} {w : OpWord} {rest : List OpWord} {i : Instr} (h : s.inbox = w :: rest)
    (hd : decode w = .ok i) : step s = exec i { s with inbox := rest } := by
  simp only [step, fetch, h, hd]

theorem step_of_error {s : State} {w : OpWord} {rest : List OpWord} {r : RefuseReason} (h : s.inbox = w :: rest)
    (hd : decode w = .error r) : step s = .next (refuse r { s with inbox := rest }) := by
  simp only [step, fetch, h, hd]

/-! ### The operations, by what they run -/

/-- What an operation can leave of the state `s`: one case for each entry point of the block (R12). -/
inductive OpResult (s : State) : State → Prop where
  | read (a : Nat) : OpResult s (readReg a s)
  | write (a : Nat) (v : Byte) : OpResult s (writeReg a v s)
  | generate (n : Nat) : OpResult s (generate n s)
  | init : OpResult s (initUnit s)
  | enable (b : Bool) : OpResult s { s with hostEnable := b }
  | lock (b : Bool) : OpResult s { s with hostLocked := b }

/-- Every write row is the top-level `write` of its address and data byte (R101). -/
theorem exec_write {i : Instr} {a : Nat} {v : Byte} (ha : writeAddr i = some a) (hv : writeData i = some v) (s : State) :
    exec i s = .next (writeReg a v s) := by
  cases i <;> cases ha <;> cases hv <;> rfl

theorem exec_result (i : Instr) (s : State) : ∃ t, exec i s = .next t ∧ OpResult s t := by
  cases i with
  | rdFF1x a | rdFF2x a | rdWave a => exact ⟨_, rfl, .read a.toNat⟩
  | gen n => exact ⟨_, rfl, .generate n.toNat⟩
  | ctlInit => exact ⟨_, rfl, .init⟩
  | ctlEnable b => exact ⟨_, rfl, .enable b⟩
  | ctlLock b => exact ⟨_, rfl, .lock b⟩
  | _ => exact ⟨_, exec_write rfl rfl s, .write _ _⟩

/-- Everything a step can do: it waits, it refuses the oldest word, or it runs one operation with that word taken. -/
theorem step_cases {s t : State} (h : step s = .next t) :
    (s.inbox = [] ∧ t = s) ∨
    ∃ w rest, s.inbox = w :: rest ∧
      ((∃ r, decode w = .error r ∧ t = refuse r { s with inbox := rest }) ∨
        ∃ i, decode w = .ok i ∧ OpResult { s with inbox := rest } t) := by
  cases hq : s.inbox with
  | nil =>
    rw [step_of_empty hq] at h
    cases h
    exact .inl ⟨rfl, rfl⟩
  | cons w rest =>
    refine .inr ⟨w, rest, rfl, ?_⟩
    cases hd : decode w with
    | error r =>
      rw [step_of_error hq hd] at h
      cases h
      exact .inl ⟨r, rfl, rfl⟩
    | ok i =>
      obtain ⟨u, hu, hr⟩ := exec_result i { s with inbox := rest }
      rw [step_of_ok hq hd, hu] at h
      cases h
      exact .inr ⟨i, rfl, hr⟩

/-! ### What a register write may change -/

/-- From `s` to `t` only the block's own state (R21, R26 to R33) has changed: the parameters, the host's switches, the refusal
mark, the output port and the queue are as before. -/
def BlockOnly (s t : State) : Prop :=
  t = { s with
    mem := t.mem, square1 := t.square1, square2 := t.square2, wave := t.wave, noise := t.noise, duty1 := t.duty1,
    duty2 := t.duty2, samplePosition := t.samplePosition, noiseVoice := t.noiseVoice, sweep := t.sweep,
    volumeLeft := t.volumeLeft, volumeRight := t.volumeRight }

theorem BlockOnly.refl (s : State) : BlockOnly s s := rfl

theorem BlockOnly.trans {s u t : State} (h : BlockOnly s u) (k : BlockOnly u t) : BlockOnly s t := by
  unfold BlockOnly at h k ⊢
  rw [h] at k
  exact k

theorem BlockOnly.params {s t : State} (h : BlockOnly s t) : t.params = s.params := by
  rw [h]

theorem Moved.blockOnly {i : Ch} {s t : State} (h : Moved i s t) : BlockOnly s t := by
  unfold BlockOnly
  rw [h.fixed]

theorem BlockOnly.setReg (s : State) (a : Nat) (v : Byte) : BlockOnly s (s.setReg a v) := rfl

theorem BlockOnly.clearRegs (s : State) (a n : Nat) : BlockOnly s (s.clearRegs a n) := by
  unfold BlockOnly
  rw [State.clearRegs_eq]

theorem BlockOnly.modCh (s : State) (i : Ch) (f : Channel → Channel) : BlockOnly s (s.modCh i f) := by
  cases i <;> rfl

theorem BlockOnly.trigger (i : Ch) (s : State) : BlockOnly s (trigger i s) := by
  cases i <;> rfl

theorem BlockOnly.lengthEnableTrigger (i : Ch) (v : Byte) (s : State) : BlockOnly s (lengthEnableTrigger i v s) := by
  unfold Machine.lengthEnableTrigger
  simp only
  split
  · exact (BlockOnly.modCh s i _).trans (BlockOnly.trigger i _)
  · exact BlockOnly.modCh s i _

theorem BlockOnly.ctrlWrite (i : Ch) (v : Byte) (s : State) : BlockOnly s (ctrlWrite i v s) := by
  cases i with
  | noise => exact BlockOnly.lengthEnableTrigger .noise v s
  | square1 | square2 | wave => exact (BlockOnly.modCh s _ _).trans (BlockOnly.lengthEnableTrigger _ v _)

/-- The NR52 write, in either case of bit 7 (R102). -/
theorem BlockOnly.nr52Write (v : Byte) (s : State) : BlockOnly s (nr52Write v s) := by
  have off : ∀ i u, BlockOnly u (chanDisable i u) := fun i u => (Moved.chanDisable i u).blockOnly
  have store := BlockOnly.setReg s nr52 (v &&& 0x80)
  unfold Machine.nr52Write
  simp only
  split
  · exact store
  · exact store.trans <| (BlockOnly.clearRegs _ nr10 22).trans <| (off .square1 _).trans <| (off .square2 _).trans <|
      (off .wave _).trans (off .noise _)

/-- The procedures that run after the store of a data byte `v` (R103 to R132). -/
inductive WriteProcedure (v : Byte) : (State → State) → Prop where
  | noSideEffect : WriteProcedure v noSideEffect
  | dutyLength (q : Sq) : WriteProcedure v (dutyLenWrite q v)
  | lengthLoad (i : Ch) : WriteProcedure v (lengthLoadWrite i v)
  | envelope (i : Ch) : WriteProcedure v (envWrite i v)
  | frequencyLow (i : Ch) : WriteProcedure v (freqLowWrite i v)
  | control (i : Ch) : WriteProcedure v (ctrlWrite i v)
  | waveDac : WriteProcedure v (waveDacWrite v)
  | waveLength : WriteProcedure v (waveLengthWrite v)
  | waveVolume : WriteProcedure v (waveVolumeWrite v)
  | noiseFrequency : WriteProcedure v (noiseWrite v)
  | masterVolume : WriteProcedure v (masterVolumeWrite v)
  | pan : WriteProcedure v (panWrite v)

theorem WriteProcedure.blockOnly {v : Byte} {e : State → State} (h : WriteProcedure v e) (s : State) : BlockOnly s (e s) := by
  cases h with
  | dutyLength q => cases q <;> rfl
  | lengthLoad i | envelope i | frequencyLow i => exact BlockOnly.modCh s i _
  | control i => exact BlockOnly.ctrlWrite i v s
  | noSideEffect | waveDac | waveLength | waveVolume | noiseFrequency | masterVolume | pan => rfl

/-- Everything `write(a, v)` can be: a refusal, the NR52 write, or a procedure behind the power gate (R101). -/
theorem writeReg_cases (a : Nat) (v : Byte) (s : State) :
    (inWindow a = false ∧ writeReg a v s = refuse .addressOutOfRange s) ∨
    (a = nr52 ∧ writeReg a v s = nr52Write v s) ∨
    (inWindow a = true ∧ a ≠ nr52 ∧ ∃ e, WriteProcedure v e ∧ writeReg a v s = gatedWrite a v e s) := by
  cases hw : inWindow a with
  | false => exact .inl ⟨rfl, by simp only [writeReg, hw, if_true]⟩
  | true =>
    by_cases hn : a = nr52
    · subst hn; exact .inr (.inl ⟨rfl, rfl⟩)
    refine .inr (.inr ⟨rfl, hn, ?_⟩)
    have branch : ∀ (k : Nat) {e : State → State} {x y : State}, WriteProcedure v e → x = gatedWrite k v e s →
        (∃ e, WriteProcedure v e ∧ y = gatedWrite a v e s) →
        ∃ e, WriteProcedure v e ∧ (if a = k then x else y) = gatedWrite a v e s := fun k e x y he hx hy => by
      split
      next h => subst h; exact ⟨e, he, hx⟩
      next => exact hy
    unfold writeReg
    rw [if_neg (by simp [hw]), if_neg hn]
    refine branch _ .noSideEffect rfl ?_
    refine branch _ (.dutyLength .one) rfl ?_
    refine branch _ (.envelope .square1) rfl ?_
    refine branch _ (.frequencyLow .square1) rfl ?_
    refine branch _ (.control .square1) rfl ?_
    refine branch _ .noSideEffect rfl ?_
    refine branch _ (.dutyLength .two) rfl ?_
    refine branch _ (.envelope .square2) rfl ?_
    refine branch _ (.frequencyLow .square2) rfl ?_
    refine branch _ (.control .square2) rfl ?_
    refine branch _ .waveDac rfl ?_
    refine branch _ .waveLength rfl ?_
    refine branch _ .waveVolume rfl ?_
    refine branch _ (.frequencyLow .wave) rfl ?_
    refine branch _ (.control .wave) rfl ?_
    refine branch _ .noSideEffect rfl ?_
    refine branch _ (.lengthLoad .noise) rfl ?_
    refine branch _ (.envelope .noise) rfl ?_
    refine branch _ .noiseFrequency rfl ?_
    refine branch _ (.control .noise) rfl ?_
    refine branch _ .masterVolume rfl ?_
    refine branch _ .pan rfl ?_
    refine branch _ .noSideEffect rfl ?_
    exact ⟨_, .noSideEffect, rfl⟩

theorem BlockOnly.gatedWrite {a : Nat} {v : Byte} {e : State → State} (he : WriteProcedure v e) (s : State) :
    BlockOnly s (gatedWrite a v e s) := by
  unfold Machine.gatedWrite
  split
  · exact (BlockOnly.setReg s a v).trans (he.blockOnly _)
  · exact BlockOnly.refl s

/-- A write is refused, or changes the block's own state at most. -/
theorem writeReg_blockOnly (a : Nat) (v : Byte) (s : State) :
    writeReg a v s = refuse .addressOutOfRange s ∨ BlockOnly s (writeReg a v s) := by
  rcases writeReg_cases a v s with ⟨-, e⟩ | ⟨-, e⟩ | ⟨-, -, p, hp, e⟩
  · exact .inl e
  · rw [e]; exact .inr (BlockOnly.nr52Write v s)
  · rw [e]; exact .inr (BlockOnly.gatedWrite hp s)

/-! ### No operation writes the parameters -/

@[simp] theorem refuse_params (r : RefuseReason) (s : State) : (refuse r s).params = s.params := rfl

@[simp] theorem readReg_params (a : Nat) (s : State) : (readReg a s).params = s.params := by
  unfold readReg
  split <;> rfl

@[simp] theorem writeReg_params (a : Nat) (v : Byte) (s : State) : (writeReg a v s).params = s.params := by
  rcases writeReg_blockOnly a v s with e | h
  · rw [e, refuse_params]
  · exact h.params

@[simp] theorem initWrites_params (n a : Nat) (s : State) : (initWrites n a s).params = s.params := by
  induction n generalizing a s with
  | zero => rfl
  | succ n ih => rw [initWrites, ih, writeReg_params]

@[simp] theorem initUnit_params (s : State) : (initUnit s).params = s.params := by
  simp only [initUnit, initWrites_params, writeReg_params]
  rfl

theorem generateLoop_params (k j n : Nat) (s : State) : (generateLoop k j n s).params = s.params := by
  induction k generalizing j s with
  | zero => rfl
  | succ k ih =>
    simp only [generateLoop]
    split
    · rw [ih, subBlock_params]
    · rfl

@[simp] theorem generate_params (n : Nat) (s : State) : (generate n s).params = s.params := by
  unfold generate
  split
  · rfl
  · exact generateLoop_params n 0 n s

theorem OpResult.params {s t : State} (h : OpResult s t) : t.params = s.params := by
  cases h with
  | read a => exact readReg_params a s
  | write a v => exact writeReg_params a v s
  | generate n => exact generate_params n s
  | init => exact initUnit_params s
  | enable b | lock b => rfl

/-! ### The statements -/

/-- Settles O12: a step waits, refuses a word or runs an operation, and none of these writes the parameters. -/
theorem parametersNeverChange : Obligations.ParametersNeverChange := by
  intro s t h
  rcases step_cases h with ⟨-, rfl⟩ | ⟨w, rest, -, ⟨r, -, rfl⟩ | ⟨i, -, hr⟩⟩
  · rfl
  · rfl
  · exact hr.params

/-- Settles O7: `fetch` takes the head of the queue and `decode` names the operation. -/
theorem stepRunsDecodedOperation : Obligations.StepRunsDecodedOperation :=
  fun _ _ _ _ => step_of_ok

/-- Settles O9: with an empty queue `fetch` takes nothing. -/
theorem stepWaitsForTheHost : Obligations.StepWaitsForTheHost :=
  fun _ => step_of_empty

end Sys2Proof.Machine
end

section
/-! PROOFS. What one register write may change: the procedure of each address, what it leaves of the `enabled` bits and of the
register window, and the NR52 write with bit 7 clear (R38, R42, R101, R102). -/

namespace Sys2Proof.Machine

open Sys2Proof.Safety

/-! ### The procedure of each address -/

/-- The address of channel `i`'s control register, NRx4 or NR44 (R23). -/
def controlAddr : Ch → Nat
  | .square1 => nr14
  | .square2 => nr24
  | .wave => nr34
  | .noise => nr44

/-- The procedures that may run after the store of `v` at the address `a` (R103 to R132). Finer than `WriteProcedure` where the
invariant and the `enabled` bits need it: a control procedure runs at its own register only, and there is no envelope procedure
for Wave and no low frequency byte for Noise. -/
inductive ProcedureAt (v : Byte) (a : Nat) : (State → State) → Prop where
  | noSideEffect : ProcedureAt v a noSideEffect
  | dutyLength (q : Sq) : ProcedureAt v a (dutyLenWrite q v)
  | lengthLoad (i : Ch) : ProcedureAt v a (lengthLoadWrite i v)
  | envelope {i : Ch} (hi : i ≠ .wave) : ProcedureAt v a (envWrite i v)
  | frequencyLow {i : Ch} (hi : i ≠ .noise) : ProcedureAt v a (freqLowWrite i v)
  | control {i : Ch} (ha : a = controlAddr i) : ProcedureAt v a (ctrlWrite i v)
  | waveDac : ProcedureAt v a (waveDacWrite v)
  | waveLength : ProcedureAt v a (waveLengthWrite v)
  | waveVolume : ProcedureAt v a (waveVolumeWrite v)
  | noiseFrequency : ProcedureAt v a (noiseWrite v)
  | masterVolume : ProcedureAt v a (masterVolumeWrite v)
  | pan : ProcedureAt v a (panWrite v)

/-- A write into the window at another address than NR52's runs a procedure of its address behind the power gate (R101). -/
theorem writeReg_gated {a : Nat} (v : Byte) (s : State) (hw : inWindow a = true) (hn : a ≠ nr52) :
    ∃ e, ProcedureAt v a e ∧ writeReg a v s = gatedWrite a v e s := by
  have branch : ∀ (k : Nat) {e : State → State} {x y : State}, ProcedureAt v k e → x = gatedWrite k v e s →
      (∃ e, ProcedureAt v a e ∧ y = gatedWrite a v e s) →
      ∃ e, ProcedureAt v a e ∧ (if a = k then x else y) = gatedWrite a v e s := fun k e x y he hx hy => by
    split
    next h => subst h; exact ⟨e, he, hx⟩
    next => exact hy
  unfold writeReg
  rw [if_neg (by simp [hw]), if_neg hn]
  refine branch _ .noSideEffect rfl ?_
  refine branch _ (.dutyLength .one) rfl ?_
  refine branch _ (.envelope (i := .square1) (by decide)) rfl ?_
  refine branch _ (.frequencyLow (i := .square1) (by decide)) rfl ?_
  refine branch _ (.control (i := .square1) rfl) rfl ?_
  refine branch _ .noSideEffect rfl ?_
  refine branch _ (.dutyLength .two) rfl ?_
  refine branch _ (.envelope (i := .square2) (by decide)) rfl ?_
  refine branch _ (.frequencyLow (i := .square2) (by decide)) rfl ?_
  refine branch _ (.control (i := .square2) rfl) rfl ?_
  refine branch _ .waveDac rfl ?_
  refine branch _ .waveLength rfl ?_
  refine branch _ .waveVolume rfl ?_
  refine branch _ (.frequencyLow (i := .wave) (by decide)) rfl ?_
  refine branch _ (.control (i := .wave) rfl) rfl ?_
  refine branch _ .noSideEffect rfl ?_
  refine branch _ (.lengthLoad .noise) rfl ?_
  refine branch _ (.envelope (i := .noise) (by decide)) rfl ?_
  refine branch _ .noiseFrequency rfl ?_
  refine branch _ (.control (i := .noise) rfl) rfl ?_
  refine branch _ .masterVolume rfl ?_
  refine branch _ .pan rfl ?_
  refine branch _ .noSideEffect rfl ?_
  exact ⟨_, .noSideEffect, rfl⟩

/-! ### NR52 with bit 7 clear -/

/-- Everything an NR52 write with bit 7 clear does (R102): it clears 0xFF10..0xFF26 and disables every channel. -/
theorem nr52Write_off {v : Byte} {s : State} (hv : powerOf v = false) (w : memWf s.mem = true) :
    memWf (nr52Write v s).mem = true ∧
    (∀ b, (nr52Write v s).reg b = if 0xFF10 ≤ b ∧ b ≤ 0xFF26 then 0 else s.reg b) ∧
    nr52Write v s = { s with
      mem := (nr52Write v s).mem
      square1 := { s.square1 with enabled := false }
      square2 := { s.square2 with enabled := false }
      wave := { s.wave with enabled := false }
      noise := { s.noise with enabled := false } } := by
  have v0 : v &&& 0x80 = 0 := by
    have : ∀ v : Byte, powerOf v = false → v &&& 0x80 = 0 := by decide
    exact this v hv
  obtain ⟨w0, r0⟩ := State.clearRegs_spec 22 (State.setReg_memWf w inWindow_nr52 0) (a := nr10) (by decide) (by decide)
  generalize hu : (s.setReg nr52 0).clearRegs nr10 22 = u at w0 r0
  have eq : nr52Write v s = chanDisable .noise (chanDisable .wave (chanDisable .square2 (chanDisable .square1 u))) := by
    simp only [nr52Write, v0, hu, hv, Bool.false_eq_true, if_false]
  have eu : u = { s with mem := u.mem } := by
    have := State.clearRegs_eq 22 (s.setReg nr52 0) nr10
    rw [hu] at this
    exact this
  have off : ∀ u : State, chanDisable .noise (chanDisable .wave (chanDisable .square2 (chanDisable .square1 u))) = { u with
      mem := (chanDisable .noise (chanDisable .wave (chanDisable .square2 (chanDisable .square1 u)))).mem
      square1 := { u.square1 with enabled := false }
      square2 := { u.square2 with enabled := false }
      wave := { u.wave with enabled := false }
      noise := { u.noise with enabled := false } } := fun _ => rfl
  obtain ⟨w1, m1, -⟩ := chanDisable_spec w0 .square1
  obtain ⟨w2, m2, -⟩ := chanDisable_spec w1 .square2
  obtain ⟨w3, m3, -⟩ := chanDisable_spec w2 .wave
  obtain ⟨w4, m4, -⟩ := chanDisable_spec w3 .noise
  have m := mirrorsOnly_trans m1 (mirrorsOnly_trans m2 (mirrorsOnly_trans m3 m4))
  rw [eq]
  refine ⟨w4, fun b => ?_, ?_⟩
  · by_cases hb : b = 0xFF26
    · subst hb
      have r26 := r0 0xFF26
      rw [if_neg (by decide), State.reg_setReg w, if_pos rfl] at r26
      apply BitVec.eq_of_toNat_eq
      rw [if_pos (by decide), m.1, r26]
      rfl
    · have range : (nr10 ≤ b ∧ b < nr10 + 22) ↔ (0xFF10 ≤ b ∧ b ≤ 0xFF26) := by unfold nr10; omega
      rw [m.2 b hb, r0, State.reg_setReg w, if_neg (Ne.symm hb)]
      simp only [range]
  · refine (off u).trans ?_
    generalize (chanDisable .noise _).mem = m
    rw [eu]

end Sys2Proof.Machine
end

section
/-! PROOFS. What the driver's loop keeps (R230): a property of every sub-block, `generateKept`, and the sweep outside a generation
step. -/

namespace Sys2Proof.Machine

open Sys2Proof.Safety

/-! ### The sweep outside a generation step -/

theorem chanDisable_sweep (i : Ch) (s : State) : (chanDisable i s).sweep = s.sweep := by
  cases i <;> rfl

theorem lengthSpan_sweep (i : Ch) (n : Nat) (s : State) : (lengthSpan i n s).1.sweep = s.sweep := by
  unfold lengthSpan
  simp only
  split
  · rfl
  · split
    · rw [State.modCh_sweep]
    · rw [chanDisable_sweep, State.modCh_sweep]

theorem channelGuards_sweep (i : Ch) (s : State) : (channelGuards i s).1.sweep = s.sweep := by
  cases i with
  | square1 | square2 | wave => rfl
  | noise =>
    unfold channelGuards noiseGuards
    simp only
    split
    · exact chanDisable_sweep .noise s
    · split <;> rfl

/-! ### The driver's loop -/

/-- A property that every sub-block keeps, the driver's loop keeps (R230). -/
theorem generateLoop_induct {P : State → Prop} (hb : ∀ j size s, P s → P (subBlock j size s)) (k j n : Nat)
    {s : State} (h : P s) : P (generateLoop k j n s) := by
  induction k generalizing j s with
  | zero => exact h
  | succ k ih =>
    simp only [generateLoop]
    split
    · exact ih _ (hb _ _ _ h)
    · exact h

/-- What the driver's loop may change: what `generateKept` leaves open; draws are only taken (R230). -/
theorem generateLoop_kept (k : Nat) {j n : Nat} {s : State} (w : memWf s.mem = true) (hl : j ≤ s.outL.length)
    (hr : j ≤ s.outR.length) :
    generateKept s (generateLoop k j n s) ∧ s.draws ≤ (generateLoop k j n s).draws := by
  induction k generalizing j s with
  | zero => exact ⟨generateKept_refl s, Nat.le_refl _⟩
  | succ k ih =>
    simp only [generateLoop]
    split
    · obtain ⟨w', kept, -, draws, lenL, lenR, -⟩ := subBlock_spec j (min (n - j) (blockSize s.params)) w hl hr
      obtain ⟨kept', draws'⟩ := ih w' (j := j + min (n - j) (blockSize s.params)) (by omega) (by omega)
      exact ⟨generateKept_trans kept kept', Nat.le_trans draws draws'⟩
    · exact ⟨generateKept_refl s, Nat.le_refl _⟩

/-! ### `generate` -/

/-- `generate` with the host enabled and not locked. -/
theorem generate_unlocked {s : State} (n : Nat) (he : s.hostEnable = true) (hl : s.hostLocked = false) :
    generate n s = { generateLoop n 0 n s with returned := .produced true } := by
  simp only [generate, he, hl, Bool.true_eq_false, Bool.false_eq_true, or_self, if_false]

theorem blockSize_pos {p : Params} (hp : p.wf) : 1 ≤ blockSize p := by
  obtain ⟨-, -, -, -, -, -, hr, hs⟩ := hp
  exact Nat.mul_pos hs hr

/-- Of the window `generate` writes NR52's byte only. -/
theorem generate_reg (n : Nat) {s : State} (w : memWf s.mem = true) {a : Nat} (ha : a ≠ 0xFF26) :
    (generate n s).reg a = s.reg a := by
  unfold generate
  split
  · rfl
  · obtain ⟨⟨-, window, -⟩, -⟩ := generateLoop_kept n (j := 0) (n := n) w (Nat.zero_le _) (Nat.zero_le _)
    exact window a ha

end Sys2Proof.Machine
end

section
/-! PROOFS. The invariant (R39 to R41): it holds where no channel runs, every write, `init` and `generate` keep it, and so does
every step. -/

namespace Sys2Proof.Safety

open Sys2Proof.Machine

/-! ### States in which no channel runs -/

theorem ChannelOk.before (p : Params) (i : Ch) : ChannelOk p i Channel.before where
  square1 _ := nofun
  square2 _ := by decide
  wave _ := by decide
  noise _ := by decide
  load _ := by decide
  level _ := by simp [Channel.before]
  phase := Nat.zero_le _
  length := Nat.zero_le _
  envelope := Nat.zero_le _

/-- The invariant where every channel and the sweep are as before `init`: what is left to ask is about the window. -/
theorem Invariant.of_before {s : State} (hp : s.params.wf) (hc : ∀ i, s.ch i = Channel.before) (hs : s.sweep = Sweep.before)
    (hw : memWf s.mem = true) (h52 : s.reg 0xFF26 &&& 0x7F = 0) (ho : ∀ a, 0xFF10 ≤ a → a ≤ 0xFF25 → s.reg a = 0) :
    Invariant s := by
  have bits : ∀ x : Byte, x &&& 0x7F = 0 → x &&& 0x70 = 0 ∧ x &&& 0x0F = 0 := by decide
  obtain ⟨unused, status⟩ := bits _ h52
  rw [invariant_iff]
  refine ⟨⟨hp, hw, unused, .inr status, fun _ => ho, fun _ i => ?_, fun i => ?_⟩, ?_⟩
  · rw [hc]; rfl
  · rw [hc]; exact ChannelOk.before _ i
  · rw [hs]; exact Nat.zero_le _

theorem Invariant.reset : Invariant State.reset := by
  refine Invariant.of_before (by decide) (fun i => by cases i <;> rfl) rfl reset_memWf (by decide) fun a _ ha => ?_
  show (if 0xFF26 = a then (0x80 : Byte) else 0) = 0
  rw [if_neg (by omega)]

theorem Invariant.cleared {s : State} (hp : s.params.wf) : Invariant s.cleared :=
  Invariant.of_before hp (fun i => by cases i <;> rfl) rfl rfl BitVec.zero_and fun _ _ _ => rfl

/-! ### The parts of the trigger and of the control write -/

/-- A state that meets `Core` and has kept the sweep's counter and the parameters. -/
theorem Invariant.of_core {s t : State} (h : Invariant s) (c : Core t) (hs : t.sweep = s.sweep) (hp : t.params = s.params) :
    Invariant t :=
  (invariant_iff t).2 ⟨c, by rw [hs, hp]; exact h.sweepCounter⟩

theorem Invariant.sweepReload {s : State} (h : Invariant s) : Invariant (sweepReload s) := by
  rw [invariant_iff] at h ⊢
  exact ⟨h.1.of rfl rfl (fun i => by cases i <;> rfl) (fun i => by cases i <;> exact h.1.ok _), Nat.zero_le _⟩

theorem Invariant.envReload {s : State} (i : Ch) (h : Invariant s) : Invariant (envReload i s) :=
  h.modCh i rfl fun o => { o with envelope := Nat.zero_le _ }

theorem Invariant.lengthReload {s : State} (i : Ch) (h : Invariant s) : Invariant (lengthReload i s) :=
  h.modCh i rfl fun o => { o with length := Nat.zero_le _ }

theorem Invariant.volumeReload {s : State} (i : Ch) (h : Invariant s) :
    Invariant (s.modCh i fun c => { c with volume := c.volumeInit }) :=
  h.modCh i rfl fun o =>
    { o with
      wave := fun e => by
        obtain ⟨frequency, -, code, rest⟩ := o.wave e
        exact ⟨frequency, code, code, rest⟩ }

theorem Invariant.channelReset {s : State} (i : Ch) (h : Invariant s) : Invariant (channelReset i s) := by
  cases i with
  | square1 | square2 => exact h
  | wave => exact h.of rfl
  | noise =>
    have level : Invariant (s.modCh .noise fun c => { c with currentLevel := -(s.params.lvl : Int) }) :=
      h.modCh .noise rfl fun o => { o with wave := nofun, level := fun _ => levelOf_between s.params false }
    exact level.of rfl

theorem Invariant.trigger {s : State} (i : Ch) (h : Invariant s) (hp : powerOf (s.reg nr52) = true)
    (hf : i = .square1 → s.square1.frequency.toNat ≤ 2047) : Invariant (trigger i s) := by
  have reloaded := ((h.chanEnable i hp hf).volumeReload i).envReload i
  unfold Machine.trigger
  cases i with
  | square1 => exact (reloaded.sweepReload.channelReset .square1).lengthReload .square1
  | square2 | wave | noise => exact (reloaded.channelReset _).lengthReload _

theorem Invariant.lengthEnableTrigger {s : State} (i : Ch) (v : Byte) (h : Invariant s) (hp : powerOf (s.reg nr52) = true)
    (hf : i = .square1 → s.square1.frequency.toNat ≤ 2047) : Invariant (lengthEnableTrigger i v s) := by
  have enabled : Invariant (s.modCh i fun c => { c with len := { c.len with enabled := lengthEnableOf v } }) :=
    h.modCh i rfl fun o => { o with }
  unfold Machine.lengthEnableTrigger
  simp only
  split
  · exact enabled.trigger i (by rwa [State.reg_modCh]) fun e => by subst e; exact hf rfl
  · exact enabled

/-- A new frequency of a channel with an 11-bit period code. -/
theorem Invariant.frequency {s : State} {i : Ch} (hi : i ≠ .noise) (h : Invariant s) {f : BitVec 16 → BitVec 16}
    (hf : ∀ x, (f x).toNat ≤ 2047) : Invariant (s.modCh i fun c => { c with frequency := f c.frequency }) :=
  h.modCh i rfl fun o =>
    { o with
      square1 := fun _ _ => hf _
      square2 := fun _ => hf _
      wave := fun e => ⟨hf _, (o.wave e).2⟩
      noise := fun e => absurd e hi }

theorem Invariant.ctrlWrite {s : State} (i : Ch) (v : Byte) (h : Invariant s) (hp : powerOf (s.reg nr52) = true) :
    Invariant (ctrlWrite i v s) := by
  have le : ∀ f, (mergeFreqHigh f v).toNat ≤ 2047 := fun f => by rw [mergeFreqHigh_eq]; exact freqHigh_le f v
  have merged : ∀ {i : Ch}, i ≠ .noise → Invariant (Machine.lengthEnableTrigger i v
      (s.modCh i fun c => { c with frequency := mergeFreqHigh c.frequency v })) := fun {i} hi =>
    (h.frequency hi le).lengthEnableTrigger i v (by rwa [State.reg_modCh]) fun e => by subst e; exact le _
  cases i with
  | noise => exact h.lengthEnableTrigger .noise v hp nofun
  | square1 | square2 | wave => exact merged (by decide)

/-! ### The other write procedures -/

theorem Invariant.envWrite {s : State} {i : Ch} (hi : i ≠ .wave) (v : Byte) (h : Invariant s) : Invariant (envWrite i v s) :=
  h.modCh i rfl fun o => { o with wave := fun e => absurd e hi }

theorem Invariant.lengthLoadWrite {s : State} (i : Ch) (v : Byte) (h : Invariant s) : Invariant (lengthLoadWrite i v s) := by
  have le : ∀ v : Byte, (lengthLoadOf v).toNat ≤ 63 := by decide
  exact h.modCh i rfl fun o => { o with load := fun _ => le v }

theorem Invariant.freqLowWrite {s : State} {i : Ch} (hi : i ≠ .noise) (v : Byte) (h : Invariant s) :
    Invariant (freqLowWrite i v s) :=
  h.frequency hi (f := fun f => mergeFreqLow f v) fun f => by rw [mergeFreqLow_eq]; exact freqLow_le f v

theorem Invariant.dutyLenWrite {s : State} (q : Sq) (v : Byte) (h : Invariant s) : Invariant (dutyLenWrite q v s) := by
  refine (h.lengthLoadWrite q.ch v).of ?_
  cases q <;> rfl

theorem Invariant.waveDacWrite {s : State} (v : Byte) (h : Invariant s) : Invariant (waveDacWrite v s) :=
  h.modCh .wave rfl fun o => { o with }

theorem Invariant.waveLengthWrite {s : State} (v : Byte) (h : Invariant s) : Invariant (waveLengthWrite v s) :=
  h.modCh .wave rfl fun o => { o with load := fun e => absurd rfl e }

theorem Invariant.waveVolumeWrite {s : State} (v : Byte) (h : Invariant s) : Invariant (waveVolumeWrite v s) := by
  have le : ∀ v : Byte, (waveCodeOf v).toNat ≤ 3 := by decide
  refine h.modCh .wave rfl fun o => { o with wave := fun e => ?_ }
  obtain ⟨frequency, -, -, rest⟩ := o.wave e
  exact ⟨frequency, le v, le v, rest⟩

theorem Invariant.noiseWrite {s : State} (v : Byte) (h : Invariant s) : Invariant (noiseWrite v s) := by
  have le : ∀ v : Byte, (shiftCodeOf v).toNat ≤ 15 := by decide
  have shift : Invariant (s.modCh .noise fun c => { c with frequency := shiftCodeOf v }) :=
    h.modCh .noise rfl fun o => { o with square1 := nofun, square2 := nofun, wave := nofun, noise := fun _ => le v }
  exact shift.of rfl

theorem Invariant.panChannel {s : State} (v : Byte) (i : Ch) (h : Invariant s) : Invariant (panChannel v i s) :=
  h.modCh i rfl fun o => { o with }

theorem Invariant.procedureAt {s : State} {v : Byte} {a : Nat} {e : State → State} (he : ProcedureAt v a e) (h : Invariant s)
    (hp : powerOf (s.reg nr52) = true) : Invariant (e s) := by
  cases he with
  | noSideEffect => exact h
  | dutyLength q => exact h.dutyLenWrite q v
  | lengthLoad i => exact h.lengthLoadWrite i v
  | envelope hi => exact h.envWrite hi v
  | frequencyLow hi => exact h.freqLowWrite hi v
  | control _ => exact h.ctrlWrite _ v hp
  | waveDac => exact h.waveDacWrite v
  | waveLength => exact h.waveLengthWrite v
  | waveVolume => exact h.waveVolumeWrite v
  | noiseFrequency => exact h.noiseWrite v
  | masterVolume => exact h.of rfl
  | pan => exact (((h.panChannel v .square1).panChannel v .square2).panChannel v .wave).panChannel v .noise

/-! ### Every write and `init` -/

theorem Invariant.nr52Write {s : State} (v : Byte) (h : Invariant s) : Invariant (nr52Write v s) := by
  have c := ((invariant_iff s).1 h).1
  cases hv : powerOf v with
  | true =>
    have bits : ∀ v : Byte, powerOf v = true → v &&& 0x80 = 0x80 := by decide
    have e : Machine.nr52Write v s = s.setReg nr52 0x80 := by
      simp only [Machine.nr52Write, hv, if_true, bits v hv]
    have r : (s.setReg nr52 0x80).reg 0xFF26 = 0x80 := by rw [State.reg_setReg h.window, if_pos rfl]
    rw [e]
    refine h.of_core ⟨h.params, State.setReg_memWf h.window inWindow_nr52 _, ?_, .inr ?_, ?_, ?_, fun i => ?_⟩ rfl rfl
    · rw [r]; rfl
    · rw [r]; rfl
    · rw [r]; exact fun e => absurd e (by decide)
    · rw [r]; exact fun e => absurd e (by decide)
    · rw [State.setReg_ch]; exact c.ok i
  | false =>
    obtain ⟨w, r, e⟩ := nr52Write_off hv h.window
    have r26 := r 0xFF26
    rw [if_pos (by decide)] at r26
    have hch : ∀ i, (Machine.nr52Write v s).ch i = { s.ch i with enabled := false } := fun i => by
      rw [e]; cases i <;> rfl
    have hp : (Machine.nr52Write v s).params = s.params := by rw [e]
    refine h.of_core ⟨?_, w, ?_, .inr ?_, fun _ a ha hb => ?_, fun _ i => ?_, fun i => ?_⟩ (by rw [e]) hp
    · rw [hp]; exact h.params
    · rw [r26]; rfl
    · rw [r26]; rfl
    · rw [r, if_pos (by omega)]
    · rw [hch]
    · rw [hp, hch]; exact (c.ok i).disabled

theorem Invariant.writeReg {s : State} (a : Nat) (v : Byte) (h : Invariant s) : Invariant (writeReg a v s) := by
  cases hw : inWindow a with
  | false => rw [Machine.writeReg, if_pos hw]; exact h.of rfl
  | true =>
    by_cases hn : a = nr52
    · subst hn; exact h.nr52Write v
    · obtain ⟨e, he, hr⟩ := writeReg_gated v s hw hn
      simp only [inWindow, decide_eq_true_eq] at hw
      rw [hr]
      exact h.gatedWrite ⟨hw.1, hw.2, hn⟩ fun _ hp hu => hu.procedureAt he hp

theorem Invariant.initWrites (n a : Nat) {s : State} (h : Invariant s) : Invariant (initWrites n a s) := by
  induction n generalizing a s with
  | zero => exact h
  | succ n ih => exact ih (a + 1) (h.writeReg a _)

/-- After `init` the invariant holds whatever the state was, if the parameters are in their ranges (R280). -/
theorem Invariant.initUnit {s : State} (hp : s.params.wf) : Invariant (initUnit s) :=
  ((((Invariant.cleared hp).writeReg nr52 _).initWrites 22 0xFF10).initWrites 9 0xFF27).initWrites 16 0xFF30

/-! ### `generate` -/

/-- A generation step leaves the sweep's counter at most `P_THRESH`: Square1's ends its tick so, and no other moves it. -/
theorem channelStep_sweepCounter {s : State} (i : Ch) (h : Invariant s) :
    (channelStep i s).1.sweep.counter ≤ (channelStep i s).1.params.thresh := by
  by_cases hi : i = .square1
  · subst hi
    have tick := sweepTick_counter (s := envTick .square1 s) h.params.2.1
    cases k : (sweepTick (envTick .square1 s)).2 with
    | true => rw [channelStep_square1_stopped k]; exact tick
    | false => rw [channelStep_square1_plays k]; exact tick
  · have m := Moved.channelStep i s
    rw [(m.square1Only hi).2, m.blockOnly.params]
    exact h.sweepCounter

theorem Invariant.processChannel {i : Ch} (n : Nat) {b : Block} (h : Invariant b.st) : Invariant (processChannel i n b).st := by
  refine processChannel_induct (P := Invariant) (fun s h => ?_) (fun s h => ?_) (fun n s h => ?_) (fun s h => ?_) n h
  all_goals have c := ((invariant_iff s).1 h).1
  · exact h.of_core (c.recomputeIncrement i) (State.modCh_sweep s i _) (State.modCh_params s i _)
  · exact h.of_core (c.channelGuards i) (channelGuards_sweep i s) (Moved.channelGuards i s).blockOnly.params
  · exact h.of_core (c.lengthSpan i n) (lengthSpan_sweep i n s) (Moved.lengthSpan i n s).blockOnly.params
  · exact (invariant_iff _).2 ⟨c.channelStep i, channelStep_sweepCounter i h⟩

theorem Invariant.subBlock {s : State} (j size : Nat) (h : Invariant s) : Invariant (subBlock j size s) := by
  have all : ∀ n (b : Block), Invariant b.st → Invariant (processAll n b).st := fun n b h =>
    (((Invariant.processChannel n h).processChannel n).processChannel n).processChannel n
  exact (all (stepsOf s.params size) ⟨s, List.replicate _ 0, List.replicate _ 0⟩ h).of rfl

theorem Invariant.generate {s : State} (n : Nat) (h : Invariant s) : Invariant (generate n s) := by
  unfold Machine.generate
  split
  · exact h.of rfl
  · exact (generateLoop_induct (P := Invariant) (fun j size _ h => h.subBlock j size) n 0 n h).of rfl

/-! ### Every step -/

theorem Invariant.opResult {s t : State} (h : Invariant s) (ht : OpResult s t) : Invariant t := by
  cases ht with
  | read a =>
    unfold readReg
    split <;> exact h.of rfl
  | write a v => exact h.writeReg a v
  | generate n => exact h.generate n
  | init => exact Invariant.initUnit h.params
  | enable b | lock b => exact h.of rfl

/-- Settles O60: a step waits, refuses a word or runs an operation, and each keeps the invariant. -/
theorem stepKeepsInvariant : Obligations.StepKeepsInvariant := by
  intro s t h hstep
  have taken : ∀ rest, Invariant { s with inbox := rest } := fun _ => h.of rfl
  rcases step_cases hstep with ⟨-, rfl⟩ | ⟨w, rest, -, ⟨r, -, rfl⟩ | ⟨i, -, hr⟩⟩
  · exact h
  · exact h.of rfl
  · exact (taken rest).opResult hr

/-- Settles O59: at reset every channel is as before `init`, and of the window only NR52's power bit is not 0. -/
theorem invariantAtReset : Obligations.InvariantAtReset :=
  Invariant.reset

end Sys2Proof.Safety
end

section
/-! PROOFS. Who writes a channel's `enabled` bit and the register window (R21, R38, R42, R60). -/

namespace Sys2Proof.Machine

open Sys2Proof.Safety

/-! ### Writes without a trigger -/

theorem State.modCh_enabled (s : State) (i j : Ch) {f : Channel → Channel} (hf : (f (s.ch i)).enabled = (s.ch i).enabled) :
    ((s.modCh i f).ch j).enabled = (s.ch j).enabled := by
  by_cases h : j = i
  · subst h; rw [State.ch_modCh_same, hf]
  · rw [State.ch_modCh_ne s f h]

theorem ctrlWrite_untriggered (i : Ch) {v : Byte} (s : State) (hv : triggerOf v = false) :
    (ctrlWrite i v s).mem = s.mem ∧ ∀ j, ((ctrlWrite i v s).ch j).enabled = (s.ch j).enabled := by
  have key : ∀ u, (lengthEnableTrigger i v u).mem = u.mem ∧
      ∀ j, ((lengthEnableTrigger i v u).ch j).enabled = (u.ch j).enabled := fun u => by
    simp only [lengthEnableTrigger, hv, Bool.false_eq_true, if_false]
    exact ⟨State.modCh_mem u i _, fun j => u.modCh_enabled i j rfl⟩
  cases i with
  | noise => exact key s
  | square1 | square2 | wave =>
    obtain ⟨hm, he⟩ := key (s.modCh _ fun c => { c with frequency := mergeFreqHigh c.frequency v })
    exact ⟨hm, fun j => (he j).trans (s.modCh_enabled _ j rfl)⟩

/-- A procedure that does not trigger a channel writes neither the window nor an `enabled` bit. -/
theorem ProcedureAt.untriggered {v : Byte} {a : Nat} {e : State → State} (he : ProcedureAt v a e)
    (ht : ∀ i, a = controlAddr i → triggerOf v = false) (s : State) :
    (e s).mem = s.mem ∧ ∀ j, ((e s).ch j).enabled = (s.ch j).enabled := by
  have record : ∀ (i : Ch) (f : Channel → Channel), (f (s.ch i)).enabled = (s.ch i).enabled →
      (s.modCh i f).mem = s.mem ∧ ∀ j, ((s.modCh i f).ch j).enabled = (s.ch j).enabled := fun i f hf =>
    ⟨State.modCh_mem s i f, fun j => s.modCh_enabled i j hf⟩
  cases he with
  | dutyLength q =>
    obtain ⟨hm, hch⟩ := record q.ch (fun c => { c with len := { c.len with load := lengthLoadOf v } }) rfl
    exact ⟨(State.setDuty_mem _ q _).trans hm, fun j => by rw [← hch j, dutyLenWrite, State.setDuty_ch, lengthLoadWrite]⟩
  | lengthLoad i | envelope _ | frequencyLow _ => exact record _ _ rfl
  | control ha => exact ctrlWrite_untriggered _ s (ht _ ha)
  | waveDac | waveLength | waveVolume => exact record .wave _ rfl
  | noSideEffect | noiseFrequency | masterVolume | pan => exact ⟨rfl, fun j => by cases j <;> rfl⟩

/-- A write that is not NR52's and triggers no channel stores its byte at most, and keeps every `enabled` bit. -/
theorem writeReg_untriggered {a : Nat} {v : Byte} (s : State) (hn : a ≠ nr52)
    (ht : ∀ i, a = controlAddr i → triggerOf v = false) :
    ((writeReg a v s).mem = s.mem ∨ (writeReg a v s).mem = (s.setReg a v).mem) ∧
    ∀ j, ((writeReg a v s).ch j).enabled = (s.ch j).enabled := by
  cases hw : inWindow a with
  | false =>
    rw [writeReg, if_pos hw]
    exact ⟨.inl rfl, fun j => by cases j <;> rfl⟩
  | true =>
    obtain ⟨e, he, hr⟩ := writeReg_gated v s hw hn
    rw [hr, gatedWrite]
    split
    · obtain ⟨hm, hch⟩ := he.untriggered ht (s.setReg a v)
      exact ⟨.inr hm, fun j => by rw [hch, State.setReg_ch]⟩
    · exact ⟨.inl rfl, fun _ => rfl⟩

/-- A write that is not NR52's keeps every byte but its own and NR52's. -/
theorem writeReg_kept {a b : Nat} (v : Byte) {s : State} (w : memWf s.mem = true) (hn : a ≠ nr52) (hb : b ≠ a)
    (hb52 : b ≠ nr52) : (writeReg a v s).reg b = s.reg b := by
  cases hw : inWindow a with
  | false => rw [writeReg, if_pos hw]; rfl
  | true =>
    cases hp : (s.reg 0xFF26).getLsbD 7 with
    | true => exact (writeReg_written w hp hw hn).kept b hb hb52
    | false =>
      obtain ⟨e, -, hr⟩ := writeReg_gated v s hw hn
      rw [hr, gatedWrite_off hp]

/-! ### The operations that cannot change an `enabled` bit -/

theorem controlAddr_lt (c : Ch) : controlAddr c < 0xFF28 := by
  cases c <;> decide

/-- A write operation that may not change an `enabled` bit is not NR52's, and at a control register its bit 7 is clear. -/
theorem untriggered_of_mayEnable {i : Instr} {a : Nat} {v : Byte} (hwf : i.wf = true) (ha : writeAddr i = some a)
    (hv : writeData i = some v) (hm : mayEnable i = false) :
    a ≠ nr52 ∧ ∀ c, a = controlAddr c → triggerOf v = false := by
  have fixed : ∀ k : Nat, (k ≠ nr52 ∧ ∀ c, k ≠ controlAddr c) → a = k →
      a ≠ nr52 ∧ ∀ c, a = controlAddr c → triggerOf v = false := fun k hk e => by
    subst e; exact ⟨hk.1, fun c e => absurd e (hk.2 c)⟩
  have above : ∀ k : Nat, 0xFF28 ≤ k → k ≠ nr52 ∧ ∀ c, k ≠ controlAddr c := fun k hk =>
    ⟨by unfold nr52; omega, fun c => by have := controlAddr_lt c; omega⟩
  cases i with
  | wrNR52 x => cases hm
  | wrNR14 x | wrNR24 x | wrNR34 x | wrNR44 x =>
    cases ha; cases hv
    exact ⟨by decide, fun _ _ => hm⟩
  | wrFF28to2F b x | wrWave b x =>
    simp only [Instr.wf, Addr.within, decide_eq_true_eq] at hwf
    cases ha
    exact fixed _ (above _ (by omega)) rfl
  | rdFF1x b | rdFF2x b | rdWave b | gen n | ctlInit | ctlEnable b | ctlLock b => cases ha
  | _ => cases ha; exact fixed _ ⟨by decide, fun c => by cases c <;> decide⟩ rfl

/-- An operation that may not change an `enabled` bit keeps them all, and stores at its own address at most. -/
theorem exec_untriggered {i : Instr} {s t : State} (hwf : i.wf = true) (h : exec i s = .next t) (hm : mayEnable i = false) :
    (t.mem = s.mem ∨ ∃ a v, writeAddr i = some a ∧ t.mem = (s.setReg a v).mem) ∧
    ∀ j, (t.ch j).enabled = (s.ch j).enabled := by
  have write : ∀ {a v}, writeAddr i = some a → writeData i = some v →
      (t.mem = s.mem ∨ ∃ a v, writeAddr i = some a ∧ t.mem = (s.setReg a v).mem) ∧
      ∀ j, (t.ch j).enabled = (s.ch j).enabled := fun {a v} ha hv => by
    rw [exec_write ha hv] at h
    cases h
    obtain ⟨hn, ht⟩ := untriggered_of_mayEnable hwf ha hv hm
    obtain ⟨hmem, hch⟩ := writeReg_untriggered s hn ht
    exact ⟨hmem.imp id fun e => ⟨a, v, ha, e⟩, hch⟩
  have read : ∀ a : Nat, (readReg a s).mem = s.mem ∧ ∀ j, ((readReg a s).ch j).enabled = (s.ch j).enabled := fun a => by
    unfold readReg
    split <;> exact ⟨rfl, fun j => by cases j <;> rfl⟩
  cases i with
  | rdFF1x a | rdFF2x a | rdWave a => cases h; exact ⟨.inl (read _).1, (read _).2⟩
  | ctlEnable b | ctlLock b => cases h; exact ⟨.inl rfl, fun j => by cases j <;> rfl⟩
  | gen n | ctlInit => cases hm
  | _ => exact write rfl rfl

/-- Settles O34: outside `mayEnable` no operation reaches `ChanEnable`, `ChanDisable` or `init`. -/
theorem enabledWriters : Obligations.EnabledWriters :=
  fun _ _ _ hwf h hm => (exec_untriggered hwf h hm).2

/-! ### The writers of the register window -/

/-- What an NR52 write stores: its own byte, and 0 in 0xFF10..0xFF25 where its bit 7 is clear. -/
theorem nr52Write_writes {v : Byte} {s : State} (w : memWf s.mem = true) {a : Nat} (h : (nr52Write v s).reg a ≠ s.reg a) :
    a = nr52 ∨ (0xFF10 ≤ a ∧ a ≤ 0xFF25 ∧ powerOf v = false) := by
  by_contra hne
  rw [not_or] at hne
  obtain ⟨h52, hoff⟩ := hne
  cases hv : powerOf v with
  | true =>
    simp only [nr52Write, hv, if_true] at h
    rw [State.reg_setReg w, if_neg (Ne.symm h52)] at h
    exact h rfl
  | false =>
    have outside : ¬ (0xFF10 ≤ a ∧ a ≤ 0xFF26) := fun ⟨h1, h2⟩ => hoff ⟨h1, by unfold nr52 at h52; omega, hv⟩
    rw [(nr52Write_off hv w).2.1, if_neg outside] at h
    exact h rfl

/-- Settles O35: without a trigger only the operation's own byte changes; `generate` and a trigger write the NR52 mirror beside
it, and a power-off clears 0xFF10..0xFF25. -/
theorem registerWindowWriters : Obligations.RegisterWindowWriters := by
  intro i s t a hwf w h hne
  cases hm : mayEnable i with
  | false =>
    obtain ⟨e | ⟨b, v, hb, e⟩, -⟩ := exec_untriggered hwf h hm
    · exact absurd (by unfold State.reg; rw [e]) hne
    · by_cases hab : a = b
      · subst hab; exact .inl hb
      · exact absurd ((storesOnly_of_mem w e).2 a hab) hne
  | true =>
    by_cases h52 : a = 0xFF26
    · exact .inr (.inr (.inl ⟨h52, rfl⟩))
    have write : ∀ {b v}, writeAddr i = some b → writeData i = some v → b ≠ nr52 → writeAddr i = some a :=
      fun {b v} hb hv hn => by
        rw [exec_write hb hv] at h
        cases h
        by_cases hab : a = b
        · subst hab; exact hb
        · exact absurd (writeReg_kept v w hn hab h52) hne
    cases i with
    | ctlInit => exact .inr (.inl rfl)
    | gen n => cases h; exact absurd (generate_reg _ w h52) hne
    | wrNR52 v =>
      cases h
      rcases nr52Write_writes w hne with e | ⟨h1, h2, hv⟩
      · exact absurd e h52
      · exact .inr (.inr (.inr ⟨h1, h2, v, rfl, hv⟩))
    | wrNR14 v | wrNR24 v | wrNR34 v | wrNR44 v => exact .inl (write rfl rfl (by decide))
    | _ => cases hm

end Sys2Proof.Machine
end

section
/-! PROOFS. The frame of `generate`: the slots it overwrites and the buffers it does not read (R230, R236). -/

namespace Sys2Proof.Machine

open Sys2Proof.Safety

/-! ### The output buffers are only overwritten -/

theorem writeSlots_nil (buf : List Slot) (j : Nat) : writeSlots buf j [] = buf := by
  simp [writeSlots]

/-- Two writes that meet are one write. -/
theorem writeSlots_append {buf : List Slot} {j : Nat} (xs ys : List Slot) (hj : j ≤ buf.length) :
    writeSlots (writeSlots buf j xs) (j + xs.length) ys = writeSlots buf j (xs ++ ys) := by
  have hl : (buf.take j ++ xs).length = j + xs.length := by simp [hj]
  simp only [writeSlots]
  rw [← hl, List.take_left, ← List.drop_drop, List.drop_left, List.drop_drop, hl, List.length_append, Nat.add_assoc]
  simp only [List.append_assoc]

/-- From `s` on, `f` overwrites the slots `j` to `n - 1` with values that do not depend on what the buffers hold, and nothing
else it does depends on them (R236). -/
def Overwrites (j n : Nat) (f : State → State) (s : State) : Prop :=
  ∃ xs ys : List Slot, xs.length = n - j ∧ ys.length = n - j ∧ ∀ l r, j ≤ l.length → j ≤ r.length →
    f (s.withBuffers l r) = (f s).withBuffers (writeSlots l j xs) (writeSlots r j ys)

theorem Overwrites.nothing {j n : Nat} (s : State) (h : n ≤ j) : Overwrites j n (fun u => u) s :=
  ⟨[], [], by simp; omega, by simp; omega, fun l r _ _ => by rw [writeSlots_nil, writeSlots_nil]⟩

theorem Overwrites.subBlock (j size : Nat) (s : State) : Overwrites j (j + size) (subBlock j size) s := by
  obtain ⟨xs, ys, hx, hy, e⟩ := subBlock_buffers j size s
  exact ⟨xs, ys, by omega, by omega, fun l r _ _ => e l r⟩

theorem Overwrites.trans {j m n : Nat} {f g : State → State} {s : State} (hf : Overwrites j m f s)
    (hg : Overwrites m n g (f s)) (hj : j ≤ m) (hm : m ≤ n) : Overwrites j n (fun u => g (f u)) s := by
  obtain ⟨xs, ys, hx, hy, ef⟩ := hf
  obtain ⟨xs', ys', hx', hy', eg⟩ := hg
  refine ⟨xs ++ xs', ys ++ ys', by rw [List.length_append]; omega, by rw [List.length_append]; omega, fun l r hl hr => ?_⟩
  have meet : ∀ {buf zs zs' : List Slot}, j ≤ buf.length → zs.length = m - j →
      m ≤ (writeSlots buf j zs).length ∧ writeSlots (writeSlots buf j zs) m zs' = writeSlots buf j (zs ++ zs') :=
    fun {buf zs zs'} hb hz => by
      have e : m = j + zs.length := by omega
      rw [writeSlots_length buf zs hb, e]
      exact ⟨by omega, writeSlots_append zs zs' hb⟩
  simp only
  rw [ef l r hl hr, eg _ _ (meet (zs' := xs') hl hx).1 (meet (zs' := ys') hr hy).1, (meet hl hx).2, (meet hr hy).2]

theorem Overwrites.congr {j n : Nat} {f g : State → State} {s : State}
    (h : ∀ l r, f (s.withBuffers l r) = g (s.withBuffers l r)) (hg : Overwrites j n g s) : Overwrites j n f s := by
  obtain ⟨xs, ys, hx, hy, e⟩ := hg
  have same : f s = g s := h s.outL s.outR
  exact ⟨xs, ys, hx, hy, fun l r hl hr => by rw [h, e l r hl hr, same]⟩

/-- The driver's loop from slot `j` overwrites the slots `j` to `n - 1` (R230). -/
theorem generateLoop_overwrites (k : Nat) {s : State} {j n : Nat} (hb : 1 ≤ blockSize s.params) (hk : n ≤ j + k) :
    Overwrites j n (generateLoop k j n) s := by
  induction k generalizing s j with
  | zero => exact Overwrites.nothing s (by omega)
  | succ k ih =>
    by_cases h : j < n
    · let size := min (n - j) (blockSize s.params)
      have rest := ih (s := subBlock j size s) (j := j + size) (by rw [subBlock_params]; exact hb) (by omega)
      refine ((Overwrites.subBlock j size s).trans rest (by omega) (by omega)).congr fun l r => ?_
      rw [generateLoop, if_pos h]
      rfl
    · refine (Overwrites.nothing s (by omega)).congr fun l r => ?_
      rw [generateLoop, if_neg h]

/-- Settles O51: the loop ends with every slot written, what it writes is `generateLoop_kept`'s, and what the slots hold does not
depend on the buffers. -/
theorem generateFrame : Obligations.GenerateFrame := by
  intro s n hp w he hl
  obtain ⟨kept, draws⟩ := generateLoop_kept n.toNat (j := 0) (n := n.toNat) w (Nat.zero_le _) (Nat.zero_le _)
  obtain ⟨xs, ys, hx, hy, buffers⟩ := generateLoop_overwrites n.toNat (j := 0) (n := n.toNat) (blockSize_pos hp)
    (by omega)
  have first : ∀ (buf zs : List Slot), zs.length = n.toNat - 0 → writeSlots buf 0 zs = zs ++ buf.drop n.toNat := by
    intro buf zs hz
    simp [writeSlots, hz]
  have run : ∀ l r, exec (.gen n) { s with outL := l, outR := r } = .next { generateLoop n.toNat 0 n.toNat s with
      returned := .produced true, outL := xs ++ l.drop n.toNat, outR := ys ++ r.drop n.toNat } := by
    intro l r
    rw [← first l xs hx, ← first r ys hy]
    have loop := buffers l r (Nat.zero_le _) (Nat.zero_le _)
    show Host.Outcome.next (generate n.toNat (s.withBuffers l r)) = _
    rw [generate_unlocked _ (by exact he) (by exact hl), loop]
    rfl
  refine ⟨_, run s.outL s.outR, rfl, kept, draws, ?_, ?_, fun l r => ?_⟩
  · simp [hx]
  · simp [hy]
  · have cut : ∀ zs buf : List Slot, zs.length = n.toNat - 0 → (zs ++ buf).take n.toNat = zs := fun zs buf hz => by
      rw [← Nat.sub_zero n.toNat, ← hz, List.take_left]
    rw [run, cut xs _ hx, cut ys _ hy]

end Sys2Proof.Machine
end

section
/-! PROOFS. The two guards of the noise channel over `generate` (R213, R265). -/

namespace Sys2Proof.Machine

open Sys2Proof.Safety

/-! ### The guards of the noise channel -/

/-- A channel that its guards refuse: nothing but the recomputed increment and the guards (R213, R233). -/
theorem processChannel_refused {i : Ch} {n : Nat} {b : Block} (he : (b.st.ch i).enabled = true) (hp : (b.st.ch i).powered = true)
    (hg : (channelGuards i (recomputeIncrement i b.st)).2 = false) :
    processChannel i n b = { b with st := (channelGuards i (recomputeIncrement i b.st)).1 } := by
  unfold processChannel
  simp only
  rw [if_neg (by simp [he, hp]), if_pos hg]

/-- A noise channel in the silence region is disabled, and keeps the rest of its record but for its increment. -/
theorem processChannel_silent {n : Nat} {b : Block} (he : b.st.noise.enabled = true) (hp : b.st.noise.powered = true)
    (hf : 14 ≤ b.st.noise.frequency.toNat) :
    (processChannel .noise n b).st.noise =
      { b.st.noise with enabled := false, frequencyIncrement := incrementOf .noise b.st } ∧
    (processChannel .noise n b).st.noiseVoice = b.st.noiseVoice := by
  have g : channelGuards .noise (recomputeIncrement .noise b.st) =
      (chanDisable .noise (recomputeIncrement .noise b.st), false) := if_pos hf
  rw [processChannel_refused (i := .noise) (b := b) he hp (by rw [g]), g]
  exact ⟨rfl, rfl⟩

/-- A noise channel below the silence region with an increment below `P_NOISE_MIN_INC` keeps its record but for that increment. -/
theorem processChannel_skipped {n : Nat} {b : Block} (he : b.st.noise.enabled = true) (hp : b.st.noise.powered = true)
    (hf : b.st.noise.frequency.toNat < 14) (hi : incrementOf .noise b.st < b.st.params.noiseMinInc) :
    (processChannel .noise n b).st.noise = { b.st.noise with frequencyIncrement := incrementOf .noise b.st } ∧
    (processChannel .noise n b).st.noiseVoice = b.st.noiseVoice := by
  have g : channelGuards .noise (recomputeIncrement .noise b.st) = (recomputeIncrement .noise b.st, false) :=
    (if_neg (show ¬ 14 ≤ b.st.noise.frequency.toNat by omega)).trans (if_pos hi)
  rw [processChannel_refused (i := .noise) (b := b) he hp (by rw [g]), g]
  exact ⟨rfl, rfl⟩

/-- What a sub-block does to the noise channel is its own processing, from a state that agrees in what that processing looks
at (R232). -/
theorem subBlock_noise (j size : Nat) (s : State) : ∃ n b, b.st.noise = s.noise ∧ b.st.noiseVoice = s.noiseVoice ∧
    b.st.params = s.params ∧ (subBlock j size s).noise = (processChannel .noise n b).st.noise ∧
    (subBlock j size s).noiseVoice = (processChannel .noise n b).st.noiseVoice := by
  let n := stepsOf s.params size
  let b : Block := { st := s, left := List.replicate n 0, right := List.replicate n 0 }
  have other : ∀ i (b : Block), i ≠ .noise → (processChannel i n b).st.noise = b.st.noise ∧
      (processChannel i n b).st.noiseVoice = b.st.noiseVoice ∧ (processChannel i n b).st.params = b.st.params :=
    fun i b hi => by
      have m := Moved.processChannel i n b
      exact ⟨m.others .noise (Ne.symm hi), m.noiseOnly hi, m.blockOnly.params⟩
  obtain ⟨r1, v1, p1⟩ := other .wave b (by decide)
  obtain ⟨r2, v2, p2⟩ := other .square1 (processChannel .wave n b) (by decide)
  obtain ⟨r3, v3, p3⟩ := other .square2 (processChannel .square1 n (processChannel .wave n b)) (by decide)
  exact ⟨n, _, r3.trans (r2.trans r1), v3.trans (v2.trans v1), p3.trans (p2.trans p1), rfl, rfl⟩

/-- From `s` to `t` the noise channel has got the record `c`, and what its processing looks at beside it is as before. -/
def NoiseAt (c : Channel) (s t : State) : Prop :=
  t.noise = c ∧ t.noiseVoice = s.noiseVoice ∧ t.params = s.params

/-- If every sub-block takes the noise channel from `s`'s record or `c` to `c`, so does `generate` of at least one slot. -/
theorem generate_noiseAt {c : Channel} {s : State} {n : Nat} (hn : 1 ≤ n) (he : s.hostEnable = true) (hl : s.hostLocked = false)
    (hb : ∀ j size t, NoiseAt s.noise s t ∨ NoiseAt c s t → NoiseAt c s (subBlock j size t)) :
    NoiseAt c s (generate n s) := by
  rw [generate_unlocked n he hl]
  obtain ⟨k, rfl⟩ : ∃ k, n = k + 1 := ⟨n - 1, by omega⟩
  have first := hb 0 (min (k + 1 - 0) (blockSize s.params)) s (.inl ⟨rfl, rfl, rfl⟩)
  have loop := generateLoop_induct (P := NoiseAt c s) (fun j size t h => hb j size t (.inr h)) k
    (0 + min (k + 1 - 0) (blockSize s.params)) (k + 1) first
  rw [generateLoop, if_pos (by omega)]
  exact loop

/-- The noise channel's increment as a number (R192). -/
theorem incrementOf_noise (s : State) : incrementOf .noise s =
    4194304 / ((if s.noiseVoice.divisorCode.toNat = 0 then 8 else 16 * s.noiseVoice.divisorCode.toNat) *
      2 ^ s.noise.frequency.toNat) * s.params.thresh / s.params.fs := by
  have z : s.noiseVoice.divisorCode = 0 ↔ s.noiseVoice.divisorCode.toNat = 0 := by
    rw [← BitVec.toNat_inj]
    rfl
  simp only [incrementOf, noiseInc, conv, noiseHz, noiseDiv, Nat.shiftLeft_eq, z]
  rfl

/-- In the silence region `generate` of at least one slot disables the noise channel and runs nothing of it. -/
theorem generate_silent {s : State} {n : Nat} (hn : 1 ≤ n) (hh : s.hostEnable = true) (hl : s.hostLocked = false)
    (he : s.noise.enabled = true) (hp : s.noise.powered = true) (hf : 14 ≤ s.noise.frequency.toNat) :
    NoiseAt { s.noise with enabled := false, frequencyIncrement := incrementOf .noise s } s (generate n s) := by
  refine generate_noiseAt hn hh hl fun j size t h => ?_
  obtain ⟨m, b, hr, hv, hq, er, ev⟩ := subBlock_noise j size t
  rcases h with ⟨tr, tv, tq⟩ | ⟨tr, tv, tq⟩
  · obtain ⟨pr, pv⟩ := processChannel_silent (n := m) (b := b) (by rw [hr, tr, he]) (by rw [hr, tr, hp])
      (by rw [hr, tr]; exact hf)
    have inc : incrementOf .noise b.st = incrementOf .noise s := by
      simp only [incrementOf, hr, tr, hv, tv, hq, tq]
    exact ⟨by rw [er, pr, inc, hr, tr], by rw [ev, pv, hv, tv], by rw [subBlock_params, tq]⟩
  · have off : processChannel .noise m b = b := processChannel_off (.inl (by rw [State.ch_noise, hr, tr]))
    rw [off] at er ev
    exact ⟨by rw [er, hr, tr], by rw [ev, hv, tv], by rw [subBlock_params, tq]⟩

/-- Below the silence region and with an increment below `P_NOISE_MIN_INC`, `generate` of at least one slot leaves the noise
channel's record but for that increment. -/
theorem generate_skipped {s : State} {n : Nat} (hn : 1 ≤ n) (hh : s.hostEnable = true) (hl : s.hostLocked = false)
    (he : s.noise.enabled = true) (hp : s.noise.powered = true) (hf : s.noise.frequency.toNat < 14)
    (hi : incrementOf .noise s < s.params.noiseMinInc) :
    NoiseAt { s.noise with frequencyIncrement := incrementOf .noise s } s (generate n s) := by
  refine generate_noiseAt hn hh hl fun j size t h => ?_
  obtain ⟨m, b, hr, hv, hq, er, ev⟩ := subBlock_noise j size t
  obtain ⟨x, hx⟩ : ∃ x, b.st.noise = { s.noise with frequencyIncrement := x } :=
    h.elim (fun h => ⟨_, hr.trans h.1⟩) (fun h => ⟨_, hr.trans h.1⟩)
  obtain ⟨tv, tq⟩ : t.noiseVoice = s.noiseVoice ∧ t.params = s.params := h.elim (·.2) (·.2)
  have inc : incrementOf .noise b.st = incrementOf .noise s := by
    simp only [incrementOf, hx, hv, tv, hq, tq]
  obtain ⟨pr, pv⟩ := processChannel_skipped (n := m) (b := b) (by rw [hx, he]) (by rw [hx, hp]) (by rw [hx]; exact hf)
    (by rw [inc, hq, tq]; exact hi)
  exact ⟨by rw [er, pr, inc, hx], by rw [ev, pv, hv, tv], by rw [subBlock_params, tq]⟩

/-- A mirrored NR52 byte shows a disabled noise channel in bit 3. -/
theorem mirrors_noise_off {s t : State} (h : mirrors s t) (hn : t.noise.enabled = false) : (t.reg 0xFF26).getLsbD 3 = false := by
  have bit3 : ∀ x : Byte, x.getLsbD 3 = decide (8 ≤ x.toNat % 16) := by decide
  have b := fun b : Bool => Bool.toNat_le b
  have := b t.wave.enabled; have := b t.square2.enabled; have := b t.square1.enabled
  rw [bit3, h, hn, decide_eq_false_iff_not, Bool.toNat_false]
  omega

/-- Settles O53: the first sub-block meets the guard, and every later one finds the channel off or meets the same guard again. -/
theorem noiseSilenceRegion : Obligations.NoiseSilenceRegion := by
  intro s n _ w hh hl hn0 he hp r inc
  have hinc : incrementOf .noise s = inc := incrementOf_noise s
  have hn : 1 ≤ n.toNat := Nat.pos_of_ne_zero fun e => hn0 (BitVec.eq_of_toNat_eq e)
  constructor
  · intro hf
    obtain ⟨tr, tv, -⟩ := generate_silent hn hh hl he hp hf
    have off : (generate n.toNat s).noise.enabled = false := by rw [tr]
    have mirrored : mirrors s (generate n.toNat s) := by
      rw [generate_unlocked _ hh hl] at off ⊢
      obtain ⟨⟨-, -, ⟨-, same⟩ | m, -⟩, -⟩ :=
        generateLoop_kept n.toNat (j := 0) (n := n.toNat) w (Nat.zero_le _) (Nat.zero_le _)
      · have := same .noise
        rw [State.ch_noise, State.ch_noise, he] at this
        exact absurd (this.symm.trans off) (by decide)
      · exact m
    rw [hinc] at tr
    exact ⟨_, rfl, tv, tr, mirrored, mirrors_noise_off mirrored off⟩
  · intro hf hi
    rw [← hinc] at hi
    obtain ⟨tr, tv, -⟩ := generate_skipped hn hh hl he hp hf hi
    rw [hinc] at tr
    exact ⟨_, rfl, tv, tr⟩

end Sys2Proof.Machine
end

section
/-! PROOFS. Which operation words the decoder refuses, by kind and field (R62, R80, R83). -/

namespace Sys2Proof

/-! ### The fields of a word, as numbers and of a packed word (R80) -/

theorem opKind_toNat (w : OpWord) : (opKind w).toNat = w.toNat / 2 ^ 24 := by
  rw [opKind, BitVec.extractLsb'_toNat, Nat.shiftRight_eq_div_pow, Nat.mod_eq_of_lt (by omega)]

theorem opAddr_toNat (w : OpWord) : (opAddr w).toNat = w.toNat / 2 ^ 8 % 2 ^ 16 := by
  rw [opAddr, BitVec.extractLsb'_toNat, Nat.shiftRight_eq_div_pow]

theorem opData_toNat (w : OpWord) : (opData w).toNat = w.toNat % 2 ^ 8 := by
  rw [opData, BitVec.extractLsb'_toNat, Nat.shiftRight_zero]

theorem packOp_toNat (k : BitVec 2) (a : Addr) (d : Byte) :
    (packOp k a d).toNat = 2 ^ 24 * k.toNat + 2 ^ 8 * a.toNat + d.toNat := by
  have := a.isLt
  have := d.isLt
  rw [packOp, BitVec.toNat_append, BitVec.toNat_append, ← Nat.shiftLeft_add_eq_or_of_lt (by omega),
    ← Nat.shiftLeft_add_eq_or_of_lt (by omega), Nat.shiftLeft_eq, Nat.shiftLeft_eq]
  omega

@[simp] theorem opKind_packOp (k : BitVec 2) (a : Addr) (d : Byte) : opKind (packOp k a d) = k := by
  apply BitVec.eq_of_toNat_eq
  rw [opKind_toNat, packOp_toNat]
  omega

@[simp] theorem opAddr_packOp (k : BitVec 2) (a : Addr) (d : Byte) : opAddr (packOp k a d) = a := by
  apply BitVec.eq_of_toNat_eq
  rw [opAddr_toNat, packOp_toNat]
  omega

@[simp] theorem opData_packOp (k : BitVec 2) (a : Addr) (d : Byte) : opData (packOp k a d) = d := by
  apply BitVec.eq_of_toNat_eq
  rw [opData_toNat, packOp_toNat]
  omega

/-! ### The decoder of each kind -/

theorem decode_of_kind_read {w : OpWord} (h : opKind w = 0) : decode w = decodeRead (opAddr w) (opData w) :=
  if_pos h

theorem decode_of_kind_write {w : OpWord} (h : opKind w = 1) : decode w = decodeWrite (opAddr w) (opData w) := by
  rw [decode, if_neg (by rw [h]; decide), if_pos h]

theorem decode_of_kind_generate {w : OpWord} (h : opKind w = 2) : decode w = .ok (.gen (opCount w)) := by
  rw [decode, if_neg (by rw [h]; decide), if_neg (by rw [h]; decide), if_pos h]

theorem decode_of_kind_control {w : OpWord} (h : opKind w = 3) : decode w = decodeControl (opAddr w) (opData w) := by
  rw [decode, if_neg (by rw [h]; decide), if_neg (by rw [h]; decide), if_neg (by rw [h]; decide)]

/-! ### What each kind refuses -/

theorem Addr.within_iff {lo hi : Nat} {a : Addr} : Addr.within lo hi a = true ↔ lo ≤ a.toNat ∧ a.toNat ≤ hi :=
  decide_eq_true_iff

/-- A row of a decoder that accepts refuses nothing: the word falls through to the next row. -/
theorem acceptedRow_eq_error {c : Prop} [Decidable c] {i : Instr} {x : Except RefuseReason Instr} {r : RefuseReason} :
    (if c then .ok i else x) = .error r ↔ ¬c ∧ x = .error r := by
  by_cases hc : c <;> simp [hc]

/-- A format check refuses the word for its own reason, or leaves it to the rows below. -/
theorem formatCheck_eq_error {c : Prop} [Decidable c] {q r : RefuseReason} {x : Except RefuseReason Instr} :
    (if c then .error q else x) = .error r ↔ (c ∧ r = q) ∨ (¬c ∧ x = .error r) := by
  by_cases hc : c <;> simp [hc, eq_comm]

/-- A read word is refused for data bits that are not 0, and else for an address outside the window. -/
theorem decodeRead_error_iff {a : Addr} {d : Byte} {r : RefuseReason} : decodeRead a d = .error r ↔
    (d ≠ 0 ∧ r = .badOperationWord) ∨ (d = 0 ∧ (a.toNat < 0xFF10 ∨ 0xFF3F < a.toNat) ∧ r = .addressOutOfRange) := by
  have rows : ((¬ (0xFF10 ≤ a.toNat ∧ a.toNat ≤ 0xFF1F) ∧ ¬ (0xFF20 ≤ a.toNat ∧ a.toNat ≤ 0xFF2F)) ∧
      ¬ (0xFF30 ≤ a.toNat ∧ a.toNat ≤ 0xFF3F)) ↔ (a.toNat < 0xFF10 ∨ 0xFF3F < a.toNat) := by omega
  simp only [decodeRead, formatCheck_eq_error, acceptedRow_eq_error, Addr.within_iff, Except.error.injEq,
    ← and_assoc, eq_comm (b := r), rows, ne_eq, not_not]

/-- A write word is refused for an address outside the window. -/
theorem decodeWrite_error_iff {a : Addr} {v : Byte} {r : RefuseReason} : decodeWrite a v = .error r ↔
    (a.toNat < 0xFF10 ∨ 0xFF3F < a.toNat) ∧ r = .addressOutOfRange := by
  simp only [decodeWrite, acceptedRow_eq_error, Addr.within_iff, Except.error.injEq, ← and_assoc, eq_comm (b := r)]
  refine and_congr_left' ?_
  bv_omega

/-- A control word is refused for a bit of `op[7:1]` that is not 0, or a sub-operation code above 2. -/
theorem decodeControl_error_iff {code : Addr} {d : Byte} {r : RefuseReason} : decodeControl code d = .error r ↔
    (2 < code.toNat ∨ d.toNat / 2 ≠ 0) ∧ r = .badOperationWord := by
  have bits : d >>> 1 = 0 ↔ d.toNat / 2 = 0 := by bv_omega
  have codes : (¬ code = 0 ∧ ¬ code = 1) ∧ ¬ code = 2 ↔ 2 < code.toNat := by bv_omega
  simp only [decodeControl, formatCheck_eq_error, acceptedRow_eq_error, Except.error.injEq, ← and_assoc,
    eq_comm (b := r), bits, codes, ne_eq, not_not]
  rw [← or_and_right]
  refine and_congr_left' ?_
  omega

/-! ### The statement -/

/-- Settles O5: each kind's decoder refuses for its own reasons, and `generate` for none. -/
theorem refusedWords : Obligations.RefusedWords := by
  intro w kind a d
  have hk : (opKind w).toNat = kind := opKind_toNat w
  have ha : (opAddr w).toNat = a := opAddr_toNat w
  have hd : (opData w).toNat = d := opData_toNat w
  have data : opData w = 0#8 ↔ d = 0 := by rw [← hd, ← BitVec.toNat_inj]; rfl
  clear_value kind a d
  have kinds : ∀ k : BitVec 2, k = 0 ∨ k = 1 ∨ k = 2 ∨ k = 3 := by decide
  rcases kinds (opKind w) with h | h | h | h <;> rw [h] at hk <;> subst hk
  · simp [decode_of_kind_read h, decodeRead_error_iff, data, ha]
  · simp [decode_of_kind_write h, decodeWrite_error_iff, ha]
  · simp [decode_of_kind_generate h]
  · simp [decode_of_kind_control h, decodeControl_error_iff, ha, hd]

end Sys2Proof
end

section
/-! PROOFS. The register window behind `read` and `write`: what a read returns, the address check, and the power gate (R62, R67,
R69, R100, R101). -/

namespace Sys2Proof.Machine

open Sys2Proof.Safety

/-! ### `read` (R100) -/

theorem inWindow_iff {a : Nat} : inWindow a = true ↔ 0xFF10 ≤ a ∧ a ≤ 0xFF3F :=
  decide_eq_true_iff

/-- A read in the window returns its byte and changes nothing else. -/
theorem readReg_inside {a : Nat} (s : State) (h : inWindow a = true) :
    readReg a s = { s with returned := .byte (readValue s a) } := by
  rw [readReg, if_neg (by rw [h]; decide)]

/-- An address outside the window is refused (R100). -/
theorem readReg_outside {a : Nat} (s : State) (h : a < 0xFF10 ∨ 0xFF3F < a) :
    readReg a s = refuse .addressOutOfRange s := by
  rw [readReg, if_pos (by rw [← Bool.not_eq_true, inWindow_iff]; omega)]

theorem readValue_masked {a : Nat} (s : State) (h : a ≤ 0xFF26) : readValue s a = s.reg a ||| readMask a :=
  if_pos h

theorem readValue_plain {a : Nat} (s : State) (h : 0xFF26 < a) : readValue s a = s.reg a :=
  if_neg (Nat.not_le.mpr h)

/-- Settles O16: the three rows' addresses lie in the window, the first below the mask's end and the last above it. -/
theorem readReturnsStoredOrMask : Obligations.ReadReturnsStoredOrMask := by
  intro s a
  have read : 0xFF10 ≤ a.toNat → a.toNat ≤ 0xFF3F →
      readReg a.toNat s = { s with returned := .byte (readValue s a.toNat) } := fun lo hi =>
    readReg_inside s (inWindow_iff.mpr ⟨lo, hi⟩)
  refine ⟨fun lo hi => ?_, fun lo hi => ?_, fun lo hi => ?_⟩
  · rw [← readValue_masked s (by omega), ← read lo (by omega)]
    rfl
  · exact congrArg Host.Outcome.next (read (by omega) (by omega))
  · rw [← readValue_plain s (by omega), ← read (by omega) hi]
    rfl

/-! ### Addresses outside the window (R62) -/

/-- Settles O18: the decoder refuses the two words, and `read` and `write` the five terms, for the address. -/
theorem outOfWindowAddressIsRefused : Obligations.OutOfWindowAddressIsRefused := by
  intro s a v out t
  have read : exec (.rdFF1x a) s = .next t := congrArg _ (readReg_outside s out)
  have write : exec (.wrFF28to2F a v) s = .next t := congrArg _ (writeReg_outside v s out)
  refine ⟨fun rest hq => ?_, read, read, read, write, write⟩
  have refused : decode (packOp 0 a 0) = .error .addressOutOfRange ∧ decode (packOp 1 a v) = .error .addressOutOfRange := by
    rw [decode_of_kind_read (opKind_packOp ..), decode_of_kind_write (opKind_packOp ..), decodeRead_error_iff,
      decodeWrite_error_iff]
    simp [out]
  exact hq.elim (step_of_error · refused.1) (step_of_error · refused.2)

/-! ### The power gate (R69) -/

/-- The rows of an address range lie in the window. -/
theorem inWindow_of_within {lo hi : Nat} {a : Addr} (h : Addr.within lo hi a = true) (hlo : 0xFF10 ≤ lo) (hhi : hi ≤ 0xFF3F) :
    inWindow a.toNat = true := by
  rw [Addr.within_iff] at h
  rw [inWindow_iff]
  omega

/-- A write operation of the table writes into the window (R60, R81). -/
theorem inWindow_of_writeAddr {i : Instr} {a : Nat} (hwf : i.wf = true) (ha : writeAddr i = some a) : inWindow a = true := by
  cases i with
  | wrFF28to2F b v | wrWave b v => cases ha; exact inWindow_of_within hwf (by decide) (by decide)
  | rdFF1x b | rdFF2x b | rdWave b | gen n | ctlInit | ctlEnable b | ctlLock b => cases ha
  | _ => cases ha; rfl

/-- A write operation carries a data byte. -/
theorem writeData_of_writeAddr {i : Instr} {a : Nat} (ha : writeAddr i = some a) : ∃ v, writeData i = some v := by
  cases i with
  | rdFF1x b | rdFF2x b | rdWave b | gen n | ctlInit | ctlEnable b | ctlLock b => cases ha
  | _ => exact ⟨_, rfl⟩

/-- While power is off a write into the window at another address than NR52's changes nothing. -/
theorem writeReg_off {a : Nat} (v : Byte) {s : State} (hp : (s.reg 0xFF26).getLsbD 7 = false) (hw : inWindow a = true)
    (hn : a ≠ nr52) : writeReg a v s = s := by
  obtain ⟨e, -, hr⟩ := writeReg_gated v s hw hn
  rw [hr, gatedWrite_off hp]

/-- Settles O19: every write but NR52's stands behind the power gate, and `read` does not look at it. -/
theorem poweredOffWriteIsIgnored : Obligations.PoweredOffWriteIsIgnored := by
  intro s i a hp hwf
  refine ⟨fun ha hn => ?_, fun b hb => ?_⟩
  · obtain ⟨v, hv⟩ := writeData_of_writeAddr ha
    rw [exec_write ha hv, writeReg_off v hp (inWindow_of_writeAddr hwf ha) hn]
  · have read : inWindow b.toNat = true → Host.Outcome.next (readReg b.toNat s) =
        (.next { s with returned := .byte (readValue s b.toNat) } : Host.Outcome State Fault Refusal) :=
      fun h => congrArg _ (readReg_inside s h)
    rcases hb with rfl | rfl | rfl <;> exact read (inWindow_of_within hwf (by decide) (by decide))

end Sys2Proof.Machine
end

section
/-! PROOFS. The decoder, the encoder and the rows of the opcode table: what each kind accepts, the round trip, and that the rows are
the decoder's (R80 to R83). -/

namespace Sys2Proof

/-! ### A word from its fields, and the fields of a generate word (R80) -/

theorem packOp_fields (w : OpWord) : packOp (opKind w) (opAddr w) (opData w) = w := by
  apply BitVec.eq_of_toNat_eq
  rw [packOp_toNat, opKind_toNat, opAddr_toNat, opData_toNat]
  omega

theorem opCount_toNat (w : OpWord) : (opCount w).toNat = w.toNat % 2 ^ 24 := by
  rw [opCount, BitVec.extractLsb'_toNat, Nat.shiftRight_zero]

theorem encode_gen_toNat (n : BitVec 24) : (encode (.gen n)).toNat = 2 ^ 25 + n.toNat := by
  rw [encode, BitVec.toNat_append, ← Nat.shiftLeft_add_eq_or_of_lt n.isLt]
  rfl

theorem opKind_encode_gen (n : BitVec 24) : opKind (encode (.gen n)) = 2 := by
  have := n.isLt
  apply BitVec.eq_of_toNat_eq
  rw [opKind_toNat, encode_gen_toNat]
  change _ = 2
  omega

theorem opCount_encode_gen (n : BitVec 24) : opCount (encode (.gen n)) = n := by
  apply BitVec.eq_of_toNat_eq
  rw [opCount_toNat, encode_gen_toNat]
  omega

theorem encode_gen_opCount {w : OpWord} (h : opKind w = 2) : encode (.gen (opCount w)) = w := by
  have kind : w.toNat / 2 ^ 24 = 2 := by rw [← opKind_toNat, h]; rfl
  apply BitVec.eq_of_toNat_eq
  rw [encode_gen_toNat, opCount_toNat]
  omega

/-! ### The decoder on packed words -/

theorem decode_packOp_read (a : Addr) (d : Byte) : decode (packOp 0 a d) = decodeRead a d := by
  rw [decode_of_kind_read (opKind_packOp ..), opAddr_packOp, opData_packOp]

theorem decode_packOp_write (a : Addr) (v : Byte) : decode (packOp 1 a v) = decodeWrite a v := by
  rw [decode_of_kind_write (opKind_packOp ..), opAddr_packOp, opData_packOp]

/-! ### What each kind accepts -/

theorem decodeRead_rdFF1x {a : Addr} (h : Addr.within 0xFF10 0xFF1F a = true) : decodeRead a 0 = .ok (.rdFF1x a) := by
  rw [decodeRead, if_neg (by decide), if_pos h]

theorem decodeRead_rdFF2x {a : Addr} (h : Addr.within 0xFF20 0xFF2F a = true) : decodeRead a 0 = .ok (.rdFF2x a) := by
  rw [decodeRead, if_neg (by decide), if_neg (by rw [Addr.within_iff] at *; omega), if_pos h]

theorem decodeRead_rdWave {a : Addr} (h : Addr.within 0xFF30 0xFF3F a = true) : decodeRead a 0 = .ok (.rdWave a) := by
  rw [decodeRead, if_neg (by decide), if_neg (by rw [Addr.within_iff] at *; omega),
    if_neg (by rw [Addr.within_iff] at *; omega), if_pos h]

/-- From 0xFF28 on no row of a single address applies. -/
theorem decodeWrite_of_ge {a : Addr} (v : Byte) (h : 0xFF28 ≤ a.toNat) : decodeWrite a v =
    if Addr.within 0xFF28 0xFF2F a then .ok (.wrFF28to2F a v)
    else if Addr.within 0xFF30 0xFF3F a then .ok (.wrWave a v)
    else .error .addressOutOfRange := by
  have single : ∀ k : Addr, k.toNat < 0xFF28 → a ≠ k := fun k hk e => by subst e; omega
  unfold decodeWrite
  iterate 24 rw [if_neg (single _ (by decide))]

theorem decodeWrite_wrFF28to2F {a : Addr} (v : Byte) (h : Addr.within 0xFF28 0xFF2F a = true) :
    decodeWrite a v = .ok (.wrFF28to2F a v) := by
  rw [decodeWrite_of_ge v (Addr.within_iff.mp h).1, if_pos h]

theorem decodeWrite_wrWave {a : Addr} (v : Byte) (h : Addr.within 0xFF30 0xFF3F a = true) :
    decodeWrite a v = .ok (.wrWave a v) := by
  rw [Addr.within_iff] at h
  rw [decodeWrite_of_ge v (by omega), if_neg (by rw [Addr.within_iff]; omega), if_pos (Addr.within_iff.mpr h)]

/-- Settles O1: the fields of a packed word are the ones it was packed from, and each kind's decoder reads its own rows back. -/
theorem decodeEncodeRoundTrip : Obligations.DecodeEncodeRoundTrip := by
  intro i hwf
  cases i with
  | rdFF1x a => exact (decode_packOp_read a 0).trans (decodeRead_rdFF1x hwf)
  | rdFF2x a => exact (decode_packOp_read a 0).trans (decodeRead_rdFF2x hwf)
  | rdWave a => exact (decode_packOp_read a 0).trans (decodeRead_rdWave hwf)
  | wrFF28to2F a v => exact (decode_packOp_write a v).trans (decodeWrite_wrFF28to2F v hwf)
  | wrWave a v => exact (decode_packOp_write a v).trans (decodeWrite_wrWave v hwf)
  | gen n => rw [decode_of_kind_generate (opKind_encode_gen n), opCount_encode_gen]
  | ctlInit => rfl
  | ctlEnable b | ctlLock b => cases b <;> rfl
  | _ => exact decode_packOp_write _ _

/-- Settles O6: each word is the encoding of the operation beside it. -/
theorem sampleWordsDecode : Obligations.SampleWordsDecode :=
  ⟨decodeEncodeRoundTrip (.wrNR50 0x77) rfl, decodeEncodeRoundTrip (.wrNR14 0xC7) rfl,
    decodeEncodeRoundTrip (.rdFF2x 0xFF26) rfl, decodeEncodeRoundTrip (.rdFF1x 0xFF14) rfl,
    decodeEncodeRoundTrip (.wrWave 0xFF3B 0x98) rfl, decodeEncodeRoundTrip (.gen 512) rfl,
    decodeEncodeRoundTrip .ctlInit rfl, decodeEncodeRoundTrip (.ctlEnable true) rfl,
    decodeEncodeRoundTrip (.ctlLock false) rfl⟩

/-! ### What an accepted word says -/

/-- An operation accepted by a decoder of rows is the one of the first row, or one of the rows below. -/
theorem acceptedRow_ok {P : Instr → Prop} {c : Prop} [Decidable c] {j : Instr} {x : Except RefuseReason Instr}
    (row : c → P j) (below : ∀ i, x = .ok i → P i) : ∀ i, (if c then .ok j else x) = .ok i → P i := by
  intro i h
  by_cases hc : c
  · rw [if_pos hc] at h
    cases h
    exact row hc
  · rw [if_neg hc] at h
    exact below i h

/-- A format check that refuses accepts nothing; an accepted word has passed it. -/
theorem formatCheck_ok {P : Instr → Prop} {c : Prop} [Decidable c] {r : RefuseReason} {x : Except RefuseReason Instr}
    (below : ¬c → ∀ i, x = .ok i → P i) : ∀ i, (if c then .error r else x) = .ok i → P i := by
  intro i h
  by_cases hc : c
  · rw [if_pos hc] at h
    cases h
  · rw [if_neg hc] at h
    exact below hc i h

theorem decodeRead_ok {a : Addr} {d : Byte} : ∀ i, decodeRead a d = .ok i → i.wf = true ∧ encode i = packOp 0 a d := by
  unfold decodeRead
  refine formatCheck_ok fun hd => ?_
  rw [not_not.mp hd]
  exact acceptedRow_ok (⟨·, rfl⟩) (acceptedRow_ok (⟨·, rfl⟩) (acceptedRow_ok (⟨·, rfl⟩) nofun))

theorem decodeWrite_ok {a : Addr} {v : Byte} : ∀ i, decodeWrite a v = .ok i → i.wf = true ∧ encode i = packOp 1 a v := by
  unfold decodeWrite
  iterate 24 refine acceptedRow_ok (by rintro rfl; exact ⟨rfl, rfl⟩) ?_
  exact acceptedRow_ok (⟨·, rfl⟩) (acceptedRow_ok (⟨·, rfl⟩) nofun)

/-- A control word's data byte is its value bit B; that of `init` may be 1 (log 9). -/
theorem decodeControl_ok {code : Addr} {d : Byte} : ∀ i, decodeControl code d = .ok i →
    i.wf = true ∧ (encode i = packOp 3 code d ∨ (i = .ctlInit ∧ packOp 3 code d = 0x3000001)) := by
  have value : ∀ d : Byte, d >>> 1 = 0 → d = bitByte (d.getLsbD 0) := by decide
  unfold decodeControl
  refine formatCheck_ok fun hd => ?_
  replace value := value d (not_not.mp hd)
  generalize d.getLsbD 0 = b at value ⊢
  subst value
  refine acceptedRow_ok ?_ (acceptedRow_ok ?_ (acceptedRow_ok ?_ nofun))
  · rintro rfl
    cases b with
    | false => exact ⟨rfl, .inl rfl⟩
    | true => exact ⟨rfl, .inr ⟨rfl, rfl⟩⟩
  · rintro rfl
    exact ⟨rfl, .inl rfl⟩
  · rintro rfl
    exact ⟨rfl, .inl rfl⟩

/-- Settles O2: every kind's decoder accepts only words packed from its own operations, and `init`'s with B = 1. -/
theorem acceptedWordIsItsEncoding : Obligations.AcceptedWordIsItsEncoding := by
  intro w i h
  have packed := packOp_fields w
  have kinds : ∀ k : BitVec 2, k = 0 ∨ k = 1 ∨ k = 2 ∨ k = 3 := by decide
  rcases kinds (opKind w) with hk | hk | hk | hk
  · rw [decode_of_kind_read hk] at h
    obtain ⟨wf, e⟩ := decodeRead_ok i h
    exact ⟨wf, .inl (by rw [e, ← hk, packed])⟩
  · rw [decode_of_kind_write hk] at h
    obtain ⟨wf, e⟩ := decodeWrite_ok i h
    exact ⟨wf, .inl (by rw [e, ← hk, packed])⟩
  · rw [decode_of_kind_generate hk] at h
    cases h
    exact ⟨rfl, .inl (encode_gen_opCount hk)⟩
  · rw [decode_of_kind_control hk] at h
    have ok := decodeControl_ok i h
    rwa [← hk, packed] at ok

/-! ### The rows of the opcode table (R81) -/

/-- The word of every well-formed operation matches its row. -/
theorem encode_matches_row (i : Instr) : Laws.TableRow.Statement i := by
  cases i with
  | rdFF1x a => exact Laws.TableRow.rdFF1x a
  | rdFF2x a => exact Laws.TableRow.rdFF2x a
  | rdWave a => exact Laws.TableRow.rdWave a
  | wrFF28to2F a v => exact Laws.TableRow.wrFF28to2F a v
  | wrWave a v => exact Laws.TableRow.wrWave a v
  | gen n => exact Laws.TableRow.gen n
  | ctlInit => exact Laws.TableRow.ctlInit
  | ctlEnable b => exact Laws.TableRow.ctlEnable b
  | ctlLock b => exact Laws.TableRow.ctlLock b
  | _ => exact fun _ => Laws.TableRow.fixed_address _ _

/-- A word that matches a row, all of which fix the kind, has the row's kind and matches it in the other two fields. -/
theorem fields_of_match {w : OpWord} {ma a : Addr} {md d : Byte} {kind : BitVec 2}
    (h : w &&& packOp 3 ma md = packOp kind a d) : opKind w = kind ∧ opAddr w &&& ma = a ∧ opData w &&& md = d := by
  rw [← packOp_fields w, Laws.TableRow.packOp_and] at h
  have hk := congrArg opKind h
  have ha := congrArg opAddr h
  have hd := congrArg opData h
  simp only [opKind_packOp, opAddr_packOp, opData_packOp] at hk ha hd
  exact ⟨BitVec.and_allOnes.symm.trans hk, ha, hd⟩

/-- A mask that clears the low `k` bits of an address selects the block of `2 ^ k` addresses from `b` on. -/
theorem within_of_blockMask {a b : Addr} {k : Nat} (h : a &&& (BitVec.allOnes 16 <<< k) = b) :
    Addr.within b.toNat (b.toNat + (2 ^ k - 1)) a = true := by
  have hb : b.toNat = a.toNat / 2 ^ k * 2 ^ k := by
    rw [← h, ← BitVec.shiftLeft_ushiftRight, BitVec.toNat_shiftLeft, BitVec.toNat_ushiftRight, Nat.shiftRight_eq_div_pow,
      Nat.shiftLeft_eq]
    exact Nat.mod_eq_of_lt (Nat.lt_of_le_of_lt (Nat.div_mul_le_self ..) a.isLt)
  have parts := Nat.div_add_mod' a.toNat (2 ^ k)
  have low := Nat.mod_lt a.toNat (Nat.two_pow_pos k)
  rw [Addr.within_iff, hb]
  omega

theorem decode_of_match_read {w : OpWord} {b : Addr} (h : w &&& 0x3FFF0FF = packOp 0 b 0) :
    decode w = decodeRead (opAddr w) 0 ∧ Addr.within b.toNat (b.toNat + 15) (opAddr w) = true := by
  obtain ⟨hk, ha, hd⟩ := fields_of_match (ma := 0xFFF0) (md := 0xFF) h
  rw [decode_of_kind_read hk, BitVec.and_allOnes.symm.trans hd]
  exact ⟨rfl, within_of_blockMask (k := 4) ha⟩

/-- A row of a single address: the word is a write to that address. -/
theorem decode_of_match_fixed {w x : OpWord} (hx : packOp 1 (opAddr x) 0 = x) (h : w &&& 0x3FFFF00 = x) :
    decode w = decodeWrite (opAddr x) (opData w) := by
  obtain ⟨hk, ha, -⟩ := fields_of_match (ma := 0xFFFF) (md := 0) (h.trans hx.symm)
  rw [decode_of_kind_write hk, BitVec.and_allOnes.symm.trans ha]

theorem decode_of_match_switch {w : OpWord} {code : Addr} (h : w &&& 0x3FFFFFE = packOp 3 code 0) :
    decode w = decodeControl code (opData w) ∧ opData w >>> 1 = 0 := by
  have value : ∀ d : Byte, d &&& 0xFE = 0 → d >>> 1 = 0 := by decide
  obtain ⟨hk, ha, hd⟩ := fields_of_match (ma := 0xFFFF) (md := 0xFE) h
  rw [decode_of_kind_control hk, BitVec.and_allOnes.symm.trans ha]
  exact ⟨rfl, value _ hd⟩

/-- A word that matches a row is accepted as an operation of that row. -/
theorem decode_of_match {w : OpWord} {j : Instr} (h : w &&& (tableRow j).2 = (tableRow j).1) :
    ∃ i, decode w = .ok i ∧ tableRow i = tableRow j := by
  cases j with
  | rdFF1x a =>
    obtain ⟨hw, ha⟩ := decode_of_match_read (b := 0xFF10) h
    exact ⟨_, hw.trans (decodeRead_rdFF1x ha), rfl⟩
  | rdFF2x a =>
    obtain ⟨hw, ha⟩ := decode_of_match_read (b := 0xFF20) h
    exact ⟨_, hw.trans (decodeRead_rdFF2x ha), rfl⟩
  | rdWave a =>
    obtain ⟨hw, ha⟩ := decode_of_match_read (b := 0xFF30) h
    exact ⟨_, hw.trans (decodeRead_rdWave ha), rfl⟩
  | wrFF28to2F a v =>
    obtain ⟨hk, ha, -⟩ := fields_of_match (ma := 0xFFF8) (md := 0) (kind := 1) (a := 0xFF28) (d := 0) h
    exact ⟨_, (decode_of_kind_write hk).trans (decodeWrite_wrFF28to2F _ (within_of_blockMask (k := 3) ha)), rfl⟩
  | wrWave a v =>
    obtain ⟨hk, ha, -⟩ := fields_of_match (ma := 0xFFF0) (md := 0) (kind := 1) (a := 0xFF30) (d := 0) h
    exact ⟨_, (decode_of_kind_write hk).trans (decodeWrite_wrWave _ (within_of_blockMask (k := 4) ha)), rfl⟩
  | gen n =>
    obtain ⟨hk, -⟩ := fields_of_match (ma := 0) (md := 0) (kind := 2) (a := 0) (d := 0) h
    exact ⟨_, decode_of_kind_generate hk, rfl⟩
  | ctlInit =>
    obtain rfl : w = 0x3000000 := BitVec.and_allOnes.symm.trans h
    exact ⟨.ctlInit, rfl, rfl⟩
  | ctlEnable b =>
    obtain ⟨hw, hd⟩ := decode_of_match_switch (code := 1) h
    exact ⟨.ctlEnable _, hw.trans (if_neg (not_not.mpr hd)), rfl⟩
  | ctlLock b =>
    obtain ⟨hw, hd⟩ := decode_of_match_switch (code := 2) h
    exact ⟨.ctlLock _, hw.trans (if_neg (not_not.mpr hd)), rfl⟩
  | _ =>
    dsimp only [tableRow] at h
    exact ⟨_, decode_of_match_fixed rfl h, rfl⟩

/-- Settles O3: an accepted word is its operation's word, which matches the row, or the one of `init` with B = 1. -/
theorem decoderFollowsOpcodeTable : Obligations.DecoderFollowsOpcodeTable := by
  refine ⟨fun w i h => ?_, fun _ _ => decode_of_match⟩
  obtain ⟨wf, rfl | value⟩ := acceptedWordIsItsEncoding w i h
  · exact .inl (encode_matches_row i wf)
  · exact .inr value

/-- Settles O4: a word that matches two rows is accepted as an operation of each, and `decode` answers one operation. -/
theorem tableRowsDisjoint : Obligations.TableRowsDisjoint := by
  intro w i j hi hj
  obtain ⟨i', di, ri⟩ := decode_of_match hi
  obtain ⟨j', dj, rj⟩ := decode_of_match hj
  obtain rfl : i' = j' := Except.ok.inj (di.symm.trans dj)
  exact ri.symm.trans rj

end Sys2Proof
end

section
/-! PROOFS. A refused word's mark, and what the masked addresses read after a power-off (R84, R102, R261). -/

namespace Sys2Proof.Machine

/-- Settles O8: `refuse` sets the mark of the decoder's reason on the state with the word taken. -/
theorem stepMarksRefusedWord : Obligations.StepMarksRefusedWord :=
  fun _ _ _ hq => ⟨step_of_error hq, step_of_error hq⟩

/-- The 23 masks of R84, in the order of their addresses 0xFF10..0xFF26. -/
def maskTable : List Byte :=
  [0x80, 0x3F, 0x00, 0xFF, 0xBF, 0xFF, 0x3F, 0x00, 0xFF, 0xBF, 0x7F, 0xFF, 0x9F, 0xFF, 0xBF, 0xFF, 0xFF, 0x00, 0x00, 0xBF,
    0x00, 0x00, 0x70]

theorem readMask_eq_maskTable {a : Nat} (lo : 0xFF10 ≤ a) (hi : a ≤ 0xFF26) : readMask a = maskTable.getD (a - 0xFF10) 0 := by
  have masks : ∀ k < 23, readMask (0xFF10 + k) = maskTable.getD k 0 := by decide
  obtain ⟨k, rfl⟩ := Nat.exists_eq_add_of_le lo
  rw [masks k (by omega), Nat.add_sub_cancel_left]

/-- Settles O17: a power-off clears the bytes 0xFF10..0xFF26, and a cleared byte reads as its mask. -/
theorem powerOffReadsAsMask : Obligations.PowerOffReadsAsMask := by
  intro s v a w hv lo hi
  obtain ⟨-, cleared, -⟩ := nr52Write_off hv w
  have value : readValue (nr52Write v s) a.toNat = readMask a.toNat := by
    rw [readValue_masked _ hi, cleared, if_pos ⟨lo, hi⟩]
    exact BitVec.zero_or
  refine ⟨nr52Write v s, readReg a.toNat (nr52Write v s), rfl, by split <;> rfl, ?_⟩
  rw [readReg_inside _ (inWindow_iff.mpr ⟨lo, by omega⟩), value, readMask_eq_maskTable lo hi]
  rfl

end Sys2Proof.Machine
end

section
/-! PROOFS. The fields of a register's data byte as numbers (R85 to R98). -/

namespace Sys2Proof.Machine

/-- A field of `len` bits from bit `start` on. -/
theorem field_eq (v : Byte) (start len : Nat) :
    v.extractLsb' start len = BitVec.ofNat len (v.toNat / 2 ^ start % 2 ^ len) := by
  apply BitVec.eq_of_toNat_eq
  rw [BitVec.extractLsb'_toNat, BitVec.toNat_ofNat, Nat.mod_mod, Nat.shiftRight_eq_div_pow]

/-- A field of `len` bits held in a field of `w` bits. -/
theorem field_setWidth (v : Byte) (start len w : Nat) :
    (v.extractLsb' start len).setWidth w = BitVec.ofNat w (v.toNat / 2 ^ start % 2 ^ len) := by
  rw [← BitVec.ofNat_toNat, BitVec.extractLsb'_toNat, Nat.shiftRight_eq_div_pow]

theorem bit_eq (v : Byte) (i : Nat) : bit v i = decide (v.toNat / 2 ^ i % 2 = 1) :=
  Nat.testBit_eq_decide_div_mod_eq

theorem bit_seven_eq (v : Byte) : bit v 7 = decide (128 ≤ v.toNat) := by
  have := v.isLt
  rw [bit_eq, decide_eq_decide]
  omega

/-- The field in bits 2..0. -/
theorem lowField_eq (v : Byte) : v.extractLsb' 0 3 = BitVec.ofNat 3 (v.toNat % 8) := by
  rw [field_eq, pow_zero, Nat.div_one]
  rfl

theorem sweepPeriodOf_eq (v : Byte) : sweepPeriodOf v = BitVec.ofNat 3 (v.toNat / 16 % 8) := field_eq v 4 3

theorem sweepShiftOf_eq (v : Byte) : sweepShiftOf v = BitVec.ofNat 3 (v.toNat % 8) := lowField_eq v

theorem lengthLoadOf_eq (v : Byte) : lengthLoadOf v = BitVec.ofNat 8 (v.toNat % 64) := by
  apply BitVec.eq_of_toNat_eq
  have low : v.toNat &&& 63 = v.toNat % 64 := Nat.and_two_pow_sub_one_eq_mod v.toNat 6
  rw [BitVec.toNat_ofNat, Nat.mod_eq_of_lt (by omega), ← low]
  rfl

theorem dutyTable_eq (d : BitVec 2) : dutyTable d = ([0x10, 0x30, 0x3C, 0xCF] : List Byte).getD d.toNat 0 := by
  revert d
  decide

theorem dutyCodeOf_toNat (v : Byte) : (dutyCodeOf v).toNat = v.toNat / 64 := by
  have := v.isLt
  rw [dutyCodeOf, BitVec.extractLsb'_toNat, Nat.shiftRight_eq_div_pow]
  omega

theorem volumeInitOf_eq (v : Byte) : volumeInitOf v = BitVec.ofNat 4 (v.toNat / 16) := by
  have := v.isLt
  exact (field_eq v 4 4).trans (congrArg _ (Nat.mod_eq_of_lt (by omega)))

theorem dacOf_eq (v : Byte) : dacOf v = decide (v.toNat / 8 ≠ 0) := by
  rw [dacOf, decide_eq_decide, ne_eq, ← BitVec.toNat_inj, BitVec.toNat_ushiftRight, Nat.shiftRight_eq_div_pow]
  rfl

theorem envStepOf_eq (v : Byte) : envStepOf v = BitVec.ofNat 3 (v.toNat % 8) := lowField_eq v

theorem waveCodeOf_eq (v : Byte) : waveCodeOf v = BitVec.ofNat 4 (v.toNat / 32 % 4) := field_setWidth v 5 2 4

theorem shiftCodeOf_eq (v : Byte) : shiftCodeOf v = BitVec.ofNat 16 (v.toNat / 16) := by
  have := v.isLt
  exact (field_setWidth v 4 4 16).trans (congrArg _ (Nat.mod_eq_of_lt (by omega)))

theorem widthOf_eq (v : Byte) : widthOf v = if v.toNat / 8 % 2 = 0 then .wide else .narrow := by
  rcases Nat.mod_two_eq_zero_or_one (v.toNat / 8) with h | h <;> simp [widthOf, bit_eq, h]

theorem divisorOf_eq (v : Byte) : divisorOf v = BitVec.ofNat 3 (v.toNat % 8) := lowField_eq v

theorem volumeLeftOf_eq (v : Byte) : volumeLeftOf v = BitVec.ofNat 3 (v.toNat / 16 % 8) := field_eq v 4 3

theorem volumeRightOf_eq (v : Byte) : volumeRightOf v = BitVec.ofNat 3 (v.toNat % 8) := lowField_eq v

end Sys2Proof.Machine
end

section
/-! PROOFS. What a register write without a trigger does with master power on: its byte behind the gate, and the fields of its
procedure (R101, R103 to R132). -/

namespace Sys2Proof.Machine

open Sys2Proof.Safety

/-! ### The store behind the gate (R101) -/

/-- A write whose procedure leaves the window stores its byte, and then its procedure runs. -/
theorem exec_stores {i : Instr} {a : Nat} {v : Byte} {e : State → State} {s : State} {P : State → Prop}
    (w : memWf s.mem = true) (hp : (s.reg 0xFF26).getLsbD 7 = true) (hi : exec i s = .next (gatedWrite a v e s))
    (he : (e (s.setReg a v)).mem = (s.setReg a v).mem) (h : P (e (s.setReg a v))) :
    ∃ t, exec i s = .next t ∧ storesOnly s t a v ∧ P t :=
  ⟨_, hi.trans (by rw [gatedWrite_on hp]), storesOnly_of_mem w he, h⟩

/-- Settles O21: these writes run no procedure behind the gate. -/
theorem storedOnlyWrites : Obligations.StoredOnlyWrites := by
  intro s v w hp
  have stores : ∀ (i : Instr) (a : Nat), exec i s = .next (gatedWrite a v noSideEffect s) →
      ∃ t, exec i s = .next t ∧ t = { s with mem := t.mem } ∧ storesOnly s t a v := fun i a hi => by
    obtain ⟨t, ht, hs, rfl⟩ := exec_stores (P := (· = s.setReg a v)) w hp hi rfl rfl
    exact ⟨_, ht, rfl, hs⟩
  exact ⟨stores _ _ rfl, stores _ _ rfl, stores _ _ rfl, stores _ _ rfl,
    fun a lo hi => stores _ _ (congrArg _ (writeReg_plain v s lo (by omega))),
    fun a lo hi => stores _ _ (congrArg _ (writeReg_plain v s (by omega) hi))⟩

/-- Settles O22: the load is bits 5..0 and the duty code bits 7..6 of the byte. -/
theorem dutyLengthWrites : Obligations.DutyLengthWrites := by
  intro s v w hp
  rw [← lengthLoadOf_eq, ← dutyCodeOf_toNat, ← dutyTable_eq]
  exact ⟨exec_stores w hp rfl rfl rfl, exec_stores w hp rfl rfl rfl, exec_stores w hp rfl rfl rfl⟩

/-- The envelope write by the spec's formulas, zombie mode included (R104). -/
theorem envWriteChannel_written (v : Byte) (c : Channel) : envWritten v c (envWriteChannel v c) := by
  refine ⟨?_, ?_⟩
  · rw [← volumeInitOf_eq, ← dacOf_eq, ← envStepOf_eq]
    rfl
  · have zombie : (zombieVolume c v).toNat = if c.env.step = 0 ∧ c.env.increment ≠ 0 then
        (c.volume.toNat + if v.getLsbD 3 then 1 else 2) % 16 else (16 - c.volume.toNat) % 16 := by
      unfold zombieVolume
      split
      · rw [BitVec.toNat_add, bit]
        split <;> rfl
      · exact BitVec.toNat_neg _
    simp only [envWriteChannel, dacOf_eq, ← zombie, Bool.and_eq_true, decide_eq_true_eq]
    split <;> rfl

/-- Settles O23: the procedure rewrites the channel's record by R104's formulas. -/
theorem envelopeWrites : Obligations.EnvelopeWrites := fun _ v w hp =>
  ⟨exec_stores w hp rfl rfl ⟨envWriteChannel_written v _, rfl⟩, exec_stores w hp rfl rfl ⟨envWriteChannel_written v _, rfl⟩,
    exec_stores w hp rfl rfl ⟨envWriteChannel_written v _, rfl⟩⟩

/-- Settles O24: the merge of R106 as numbers. -/
theorem frequencyLowWrites : Obligations.FrequencyLowWrites := by
  intro s v w hp
  simp only [← mergeFreqLow_eq]
  exact ⟨exec_stores w hp rfl rfl rfl, exec_stores w hp rfl rfl rfl, exec_stores w hp rfl rfl rfl⟩

/-- Settles O30: NR30's DAC is bit 7, NR32's code bits 6..5. -/
theorem waveRegisterWrites : Obligations.WaveRegisterWrites := by
  intro s v w hp
  rw [← bit_seven_eq, ← waveCodeOf_eq]
  exact ⟨exec_stores w hp rfl rfl rfl, exec_stores w hp rfl rfl rfl, exec_stores w hp rfl rfl rfl⟩

/-- Settles O31: the three fields of NR43. -/
theorem noiseFrequencyWrite : Obligations.NoiseFrequencyWrite := by
  intro s v w hp
  rw [← shiftCodeOf_eq, ← widthOf_eq, ← divisorOf_eq]
  exact exec_stores w hp rfl rfl rfl

/-- Settles O32: the two fields of NR50, and the pan bits of each channel's number. -/
theorem mixerWrites : Obligations.MixerWrites := by
  intro s v w hp
  rw [← volumeLeftOf_eq, ← volumeRightOf_eq]
  exact ⟨exec_stores w hp rfl rfl rfl, exec_stores w hp rfl rfl rfl⟩

end Sys2Proof.Machine
end

section
/-! PROOFS. The control writes, with and without a trigger (R107, R150 to R155), the NR52 write (R102), and what every write leaves
of the register window (R101). -/

namespace Sys2Proof.Machine

open Sys2Proof.Safety

/-! ### The trigger (R150 to R155) -/

theorem sweepInc_sweepPeriodOf (p : Params) (b : Byte) : sweepInc p (sweepPeriodOf b) =
    if b.toNat / 16 % 8 = 0 then 0 else p.thresh * 128 / (b.toNat / 16 % 8 * p.fs) := by
  have period : (sweepPeriodOf b).toNat = b.toNat / 16 % 8 := by
    rw [sweepPeriodOf_eq, BitVec.toNat_ofNat]
    exact Nat.mod_mod _ _
  have zero : sweepPeriodOf b = 0 ↔ b.toNat / 16 % 8 = 0 := by
    rw [← BitVec.toNat_inj, period]
    rfl
  simp only [sweepInc, zero, period, pSweepHz]

/-- The sweep reload latches the stored NR10 byte and the channel's frequency (R152). -/
theorem sweepReload_eq (s : State) :
    sweepReload s = { s with sweep := sweepLatched s.params (s.reg nr10) s.square1.frequency } := by
  rw [sweepLatched, ← sweepInc_sweepPeriodOf, ← sweepPeriodOf_eq, ← sweepShiftOf_eq]
  rfl

/-- What a trigger of Square1 leaves beside the window; the NR52 mirror is not the NR10 byte that the sweep latches. -/
theorem trigger_square1 {s : State} (w : memWf s.mem = true) : trigger .square1 s = { s with
    mem := (trigger .square1 s).mem
    square1 := triggered s.params 64 s.square1
    sweep := sweepLatched s.params (s.reg nr10) s.square1.frequency } := by
  obtain ⟨-, ⟨-, kept⟩, -⟩ := chanEnable_spec w .square1
  rw [← kept nr10 (by decide), trigger]
  simp only [sweepReload_eq]
  rfl

theorem trigger_square2 (s : State) : trigger .square2 s = { s with
    mem := (trigger .square2 s).mem, square2 := triggered s.params 64 s.square2 } := rfl

theorem trigger_wave (s : State) : trigger .wave s = { s with
    mem := (trigger .wave s).mem, wave := triggered s.params 256 s.wave, samplePosition := 0 } := rfl

theorem trigger_noise (s : State) : trigger .noise s = { s with
    mem := (trigger .noise s).mem
    noise := { triggered s.params 64 s.noise with currentLevel := -(s.params.lvl : Int) }
    noiseVoice := { s.noiseVoice with lfsr := 0xFFFF } } := rfl

/-- The trigger mirrors the channels into NR52 and keeps every other byte (R42, R150). -/
theorem trigger_mirrorsOnly (i : Ch) {s : State} (w : memWf s.mem = true) : mirrorsOnly s (trigger i s) := by
  refine mirrorsOnly_congr (trigger_mem i s) (fun j => ?_) (chanEnable_spec w i).2.1
  cases i <;> cases j <;> rfl

/-! ### The control writes (R107) -/

/-- The record of channel `i` after the merge, which noise does not have, and the length enable of `CtrlWrite(i, v)` (R107). -/
def controlled (v : Byte) : Ch → Channel → Channel
  | .noise => lengthEnabled v
  | .square1 | .square2 | .wave => ctrlMerged v

/-- A control write rewrites the channel's record and then triggers where bit 7 is set. -/
theorem ctrlWrite_eq (i : Ch) (v : Byte) (s : State) : ctrlWrite i v s =
    if v.getLsbD 7 then trigger i (s.modCh i (controlled v i)) else s.modCh i (controlled v i) := by
  cases i with
  | noise => rfl
  | square1 | square2 | wave =>
    simp only [ctrlWrite, mergeFreqHigh_eq]
    rfl

/-- Settles O25: with bit 7 clear only the channel's record is rewritten. -/
theorem controlWritesWithoutTrigger : Obligations.ControlWritesWithoutTrigger := by
  intro s v w hp hv
  have record : ∀ i u, ctrlWrite i v u = u.modCh i (controlled v i) := fun i u => by
    rw [ctrlWrite_eq, if_neg (by rw [hv]; decide)]
  have mem : ∀ i u, (ctrlWrite i v u).mem = u.mem := fun i u => by rw [record, State.modCh_mem]
  exact ⟨exec_stores w hp rfl (mem _ _) (by rw [record]; rfl), exec_stores w hp rfl (mem _ _) (by rw [record]; rfl),
    exec_stores w hp rfl (mem _ _) (by rw [record]; rfl), exec_stores w hp rfl (mem _ _) (by rw [record]; rfl)⟩

/-- A mirror after a store at another address than NR52's. -/
theorem storesAndMirrors_of_mirrorsOnly {s t : State} {a : Nat} {v : Byte} (w : memWf s.mem = true) (hn : a ≠ nr52)
    (h : mirrorsOnly (s.setReg a v) t) : storesAndMirrors s t a v := by
  obtain ⟨mirror, kept⟩ := h
  obtain ⟨byte, others⟩ := storesOnly_of_mem w rfl
  refine ⟨(kept a hn).trans byte, ?_, fun b hb h52 => (kept b h52).trans (others b hb)⟩
  unfold mirrors at mirror ⊢
  rwa [← others nr52 hn.symm]

theorem writeReg_control (i : Ch) (v : Byte) (s : State) :
    writeReg (controlAddr i) v s = gatedWrite (controlAddr i) v (ctrlWrite i v) s := by
  cases i <;> rfl

/-- A control write with bit 7 set stores its byte, rewrites the channel's record and triggers it. -/
theorem writeReg_triggered (i : Ch) {v : Byte} {s : State} (hp : (s.reg 0xFF26).getLsbD 7 = true)
    (hv : v.getLsbD 7 = true) : writeReg (controlAddr i) v s =
      trigger i ((s.setReg (controlAddr i) v).modCh i (controlled v i)) := by
  rw [writeReg_control, gatedWrite_on hp, ctrlWrite_eq, if_pos hv]

/-- The register window after a control write with bit 7 set. -/
theorem writeReg_storesAndMirrors (i : Ch) {v : Byte} {s : State} (w : memWf s.mem = true)
    (hp : (s.reg 0xFF26).getLsbD 7 = true) (hv : v.getLsbD 7 = true) :
    storesAndMirrors s (writeReg (controlAddr i) v s) (controlAddr i) v := by
  have inside : inWindow (controlAddr i) = true := by cases i <;> rfl
  have other : controlAddr i ≠ nr52 := by cases i <;> decide
  have wf : memWf ((s.setReg (controlAddr i) v).modCh i (controlled v i)).mem = true := by
    rw [State.modCh_mem]
    exact State.setReg_memWf w inside v
  rw [writeReg_triggered i hp hv]
  exact storesAndMirrors_of_mirrorsOnly w other (mirrorsOnly_of_mem (State.modCh_mem ..) (trigger_mirrorsOnly i wf))

/-- A write operation at channel `i`'s control register, with bit 7 set, by the state its trigger leaves. -/
theorem exec_triggers (i : Ch) {x : Instr} {v : Byte} {s : State} {P : State → Prop} (w : memWf s.mem = true)
    (hp : (s.reg 0xFF26).getLsbD 7 = true) (hv : v.getLsbD 7 = true)
    (hx : exec x s = .next (writeReg (controlAddr i) v s))
    (h : P (trigger i ((s.setReg (controlAddr i) v).modCh i (controlled v i)))) :
    ∃ t, exec x s = .next t ∧ storesAndMirrors s t (controlAddr i) v ∧ P t :=
  ⟨_, hx, writeReg_storesAndMirrors i w hp hv, by rwa [writeReg_triggered i hp hv]⟩

/-- Settles O26: the NR14 write keeps the NR10 byte that its trigger latches. -/
theorem triggerSquare1 : Obligations.TriggerSquare1 := by
  intro s v w hp hv
  refine exec_triggers .square1 w hp hv rfl ?_
  have nr10Kept : (s.setReg nr14 v).reg nr10 = s.reg nr10 := (storesOnly_of_mem w rfl).2 nr10 (by decide)
  refine (trigger_square1 (s := (s.setReg nr14 v).modCh .square1 (ctrlMerged v)) ?_).trans ?_
  · exact State.setReg_memWf w (by decide) v
  · rw [State.reg_modCh, nr10Kept]
    rfl

/-- Settles O27: Square2's trigger. -/
theorem triggerSquare2 : Obligations.TriggerSquare2 := fun _ _ w hp hv =>
  exec_triggers .square2 w hp hv rfl (trigger_square2 _)

/-- Settles O28: Wave's trigger. -/
theorem triggerWave : Obligations.TriggerWave := fun _ _ w hp hv =>
  exec_triggers .wave w hp hv rfl (trigger_wave _)

/-- Settles O29: Noise's trigger, on a record without a merged frequency. -/
theorem triggerNoise : Obligations.TriggerNoise := fun _ _ w hp hv =>
  exec_triggers .noise w hp hv rfl (trigger_noise _)

/-! ### NR52 (R102) -/

theorem nr52Write_on {v : Byte} (hv : powerOf v = true) (s : State) : nr52Write v s = s.setReg nr52 0x80 := by
  have power : ∀ v : Byte, powerOf v = true → v &&& 0x80 = 0x80 := by decide
  rw [nr52Write, if_pos hv, power v hv]

/-- Settles O33: with bit 7 set NR52 is stored and nothing else; with bit 7 clear it is the power-off. -/
theorem powerWrite : Obligations.PowerWrite := by
  refine fun s v w => ⟨fun hv => ?_, fun hv => ?_⟩
  · exact ⟨_, congrArg Host.Outcome.next (nr52Write_on hv s), rfl, storesOnly_of_mem w rfl⟩
  · exact ⟨_, rfl, (nr52Write_off hv w).2⟩

/-! ### Every write -/

/-- The operations other than NR52's that name an address and may change an `enabled` bit are the triggering control writes. -/
theorem control_of_mayEnable {x : Instr} {a : Nat} {v : Byte} (ha : writeAddr x = some a) (hv : writeData x = some v)
    (hn : a ≠ nr52) (hm : mayEnable x = true) : ∃ i, a = controlAddr i ∧ v.getLsbD 7 = true := by
  cases x with
  | wrNR52 y => cases ha; exact absurd rfl hn
  | wrNR14 y => cases ha; cases hv; exact ⟨.square1, rfl, hm⟩
  | wrNR24 y => cases ha; cases hv; exact ⟨.square2, rfl, hm⟩
  | wrNR34 y => cases ha; cases hv; exact ⟨.wave, rfl, hm⟩
  | wrNR44 y => cases ha; cases hv; exact ⟨.noise, rfl, hm⟩
  | gen n | ctlInit => cases ha
  | _ => cases hm

/-- Settles O20: every write stores behind the gate; one that triggers mirrors NR52, and one that does not leaves it. -/
theorem writeStoresItsByte : Obligations.WriteStoresItsByte := by
  intro s x a v w hp hwf ha hv hn
  have written := writeReg_written (v := v) w hp (inWindow_of_writeAddr hwf ha) hn
  refine ⟨_, exec_write ha hv s, written.byte, written.kept, fun hm => ?_, fun hm => ?_⟩
  · obtain ⟨-, untriggered⟩ := untriggered_of_mayEnable hwf ha hv hm
    obtain ⟨e | e, -⟩ := writeReg_untriggered s hn untriggered
    · exact congrArg (memRead · _) e
    · exact (storesOnly_of_mem w e).2 _ (Ne.symm hn)
  · obtain ⟨i, rfl, bit7⟩ := control_of_mayEnable ha hv hn hm
    obtain ⟨-, mirror, -⟩ := writeReg_storesAndMirrors i w hp bit7
    exact mirror

end Sys2Proof.Machine
end

section
/-! PROOFS. The three timers' statements of 41_trigger_timers.md (R160 to R171). -/

namespace Sys2Proof.Machine

open Sys2Proof.Safety

/-! ### Envelope (R160) -/

/-- The envelope's tick is as many firings as its counter passes the threshold. -/
theorem envTickChannel_fires {thresh k : Nat} {c : Channel} (ht : 1 ≤ thresh)
    (h1 : k * thresh < c.env.counter + c.env.increment) (h2 : c.env.counter + c.env.increment ≤ (k + 1) * thresh) :
    envTickChannel thresh c =
      envLoop thresh k { c with env := { c.env with counter := c.env.counter + c.env.increment } } := by
  rw [← firings_eq ht h1 h2]
  rfl

/-- With step 0 the envelope's loop moves its counter only, whatever the threshold. -/
theorem envLoop_stepZero (thresh k : Nat) {c : Channel} (hs : c.env.step = 0) :
    (envLoop thresh k c).volume = c.volume ∧ (envLoop thresh k c).env.increment = c.env.increment := by
  induction k generalizing c with
  | zero => exact ⟨rfl, rfl⟩
  | succ k ih =>
    have fire : envFire c = c := if_pos hs
    simp only [envLoop, fire]
    split
    · exact ih (c := { c with env := { c.env with counter := c.env.counter - thresh } }) hs
    · exact ⟨rfl, rfl⟩

theorem envTickChannel_stepZero (thresh : Nat) {c : Channel} (hs : c.env.step = 0) :
    (envTickChannel thresh c).volume = c.volume ∧ (envTickChannel thresh c).env.increment = c.env.increment :=
  envLoop_stepZero thresh _ (c := { c with env := { c.env with counter := c.env.counter + c.env.increment } }) hs

theorem envTickChannel_step (thresh : Nat) (c : Channel) : (envTickChannel thresh c).env.step = c.env.step := by
  rw [envTickChannel_frame]

/-- Settles O36: the tick is `k` firings of the loop, and `k` firings of either kind of step are known in closed form. -/
theorem envelopeTick : Obligations.EnvelopeTick := by
  intro thresh c k ht x nv
  refine ⟨fun hx => ?_, fun hk h1 h2 => ⟨fun hs => ?_, fun hs => ?_⟩, envTickChannel_stepZero thresh,
    envTickChannel_counter ht c⟩
  · exact envLoop_of_le _ hx
  · rw [envTickChannel_fires ht h1 h2, envLoop_moves hs k c.volume _ c.env.increment h1]
    simp only [show k ≠ 0 by omega, ne_eq, not_false_eq_true, true_and]
    rfl
  · rw [envTickChannel_fires ht h1 h2, envLoop_rests hs k _ h1]

/-- Settles O37, by induction on the number of ticks. -/
theorem envelopeStepZeroNeverMoves : Obligations.EnvelopeStepZeroNeverMoves := by
  intro i n s hs
  induction n with
  | zero => exact ⟨rfl, hs⟩
  | succ n ih =>
    obtain ⟨volume, step⟩ := ih
    rw [Function.iterate_succ_apply', envTick, State.ch_modCh_same, envTickChannel_step]
    exact ⟨(envTickChannel_stepZero _ step).1.trans volume, step⟩

/-! ### Sweep (R161 to R163) -/

/-- The sweep's tick is as many firings as its counter passes the threshold. -/
theorem sweepTick_fires {s : State} {k : Nat} (ht : 1 ≤ s.params.thresh)
    (h1 : k * s.params.thresh < s.sweep.counter + s.sweep.increment)
    (h2 : s.sweep.counter + s.sweep.increment ≤ (k + 1) * s.params.thresh) :
    sweepTick s =
      sweepLoop k { s with sweep := { s.sweep with counter := s.sweep.counter + s.sweep.increment } } false := by
  rw [← firings_eq ht h1 h2]
  rfl

/-- The increment of a square channel as a number (R191). -/
theorem squareInc_eq (p : Params) (f : Nat) :
    squareInc p f = 8 * (4194304 / ((2048 - f) * 32) * p.thresh / p.fs) := by
  simp only [squareInc, conv, pClk, Nat.shiftLeft_eq, Nat.reducePow]

/-- Settles O38: the tick is `k` firings of the loop, taken in the loop's three cases. -/
theorem sweepTickOnce : Obligations.SweepTickOnce := by
  intro s k w ht x fired delta f inc
  refine ⟨fun hx => sweepLoop_of_le _ _ hx, fun hk h1 h2 => ⟨fun hs hp => ?_, fun hs hp => ?_, fun hs => ?_⟩⟩
  all_goals rw [sweepTick_fires ht h1 h2]
  · exact sweepLoop_idle k (s := { s with sweep := { s.sweep with counter := x } }) hs hp false h1
  · obtain ⟨killed, mirrored, frame⟩ :=
      sweepLoop_stops k (s := { s with sweep := { s.sweep with counter := x } }) w hs hp false h1
    have hk0 : k ≠ 0 := by omega
    simp only [hk0, decide_false, Bool.and_false] at frame
    refine ⟨_, Prod.ext rfl ?_, mirrored hk0, frame⟩
    simpa [hk0] using killed
  · obtain ⟨stopped, hstop, hkilled, mirrored, kept, frame, last, none⟩ :=
      sweepLoop_shifts k (s := { s with sweep := { s.sweep with counter := x } }) w hs false h1
    simp only [squareInc_eq] at last
    exact ⟨_, stopped, Prod.ext rfl hkilled, hstop, mirrored, kept, frame, last, none⟩

/-! ### Length (R170, R171) -/

section
variable {i : Ch} {n : Nat} {s : State}

/-- No length runs: the whole span is played. -/
theorem lengthSpan_off (h : (s.ch i).len.enabled = false ∨ (s.ch i).len.increment = 0) : lengthSpan i n s = (s, n) :=
  if_pos h

/-- The length lasts longer than the span. -/
theorem lengthSpan_lasts (he : (s.ch i).len.enabled = true) (hi : (s.ch i).len.increment ≠ 0)
    (hn : n < (s.params.thresh - (s.ch i).len.counter) / (s.ch i).len.increment) :
    lengthSpan i n s = (s.modCh i fun c => { c with
      len := { (s.ch i).len with counter := (s.ch i).len.counter + n * (s.ch i).len.increment } }, n) :=
  (if_neg (by simp [he, hi])).trans (if_pos hn)

/-- The length ends within the span. -/
theorem lengthSpan_ends (he : (s.ch i).len.enabled = true) (hi : (s.ch i).len.increment ≠ 0)
    (hn : (s.params.thresh - (s.ch i).len.counter) / (s.ch i).len.increment ≤ n) :
    lengthSpan i n s = (chanDisable i (s.modCh i fun c => { c with len := { (s.ch i).len with counter := 0 } }),
      (s.params.thresh - (s.ch i).len.counter) / (s.ch i).len.increment) :=
  (if_neg (by simp [he, hi])).trans (if_neg (by omega))

end

/-- Two changes of one channel's record in a row are one. -/
theorem State.modCh_modCh (s : State) (i : Ch) (f g : Channel → Channel) :
    (s.modCh i f).modCh i g = s.modCh i fun c => g (f c) := by
  cases i <;> rfl

/-- A length counter set to 0 and the channel disabled: the whole record. -/
theorem chanDisable_length (i : Ch) {s : State} (w : memWf s.mem = true) :
    let t := chanDisable i (s.modCh i fun c => { c with len := { (s.ch i).len with counter := 0 } })
    mirrorsOnly s t ∧ t.ch i = { s.ch i with enabled := false, len := { (s.ch i).len with counter := 0 } } ∧
    (∀ j, j ≠ i → t.ch j = s.ch j) ∧
    t = { s with mem := t.mem, square1 := t.square1, square2 := t.square2, wave := t.wave, noise := t.noise } := by
  obtain ⟨-, mirrored, -⟩ := chanDisable_spec
    (s := s.modCh i fun c => { c with len := { (s.ch i).len with counter := 0 } }) (by rwa [State.modCh_mem]) i
  refine ⟨mirrorsOnly_of_mem (State.modCh_mem _ _ _) mirrored, ?_, fun j hj => ?_, ?_⟩
  · cases i <;> rfl
  · exact ((Moved.chanDisable i _).others j hj).trans (State.ch_modCh_ne s _ hj)
  · cases i <;> rfl

/-- Settles O39, by the three cases of the span. -/
theorem lengthSpanCases : Obligations.LengthSpanCases := by
  intro i n s w _ c k
  refine ⟨lengthSpan_off, fun he hi => ⟨lengthSpan_lasts he hi, fun hk => ?_⟩⟩
  exact ⟨_, lengthSpan_ends he hi hk, chanDisable_length i w⟩

/-- Settles O40: after `m` steps the length has `m` steps less to go, so the second span meets its end, or passes without it, where
the single span does. -/
theorem lengthSpanSplits : Obligations.LengthSpanSplits := by
  intro i m n s he hi hm
  obtain ⟨t, ht⟩ : ∃ t, t = (lengthSpan i m s).1 := ⟨_, rfl⟩
  rw [← ht]
  rw [lengthSpan_lasts he hi hm] at ht
  have len : (t.ch i).len =
      { (s.ch i).len with counter := (s.ch i).len.counter + m * (s.ch i).len.increment } := by
    rw [ht, State.ch_modCh_same]
  have params : t.params = s.params := by rw [ht, State.modCh_params]
  have left : (t.params.thresh - (t.ch i).len.counter) / (t.ch i).len.increment =
      (s.params.thresh - (s.ch i).len.counter) / (s.ch i).len.increment - m := by
    rw [len, params, Nat.mul_comm, ← Nat.sub_sub, Nat.sub_mul_div]
  have te : (t.ch i).len.enabled = true := by rw [len]; exact he
  have ti : (t.ch i).len.increment ≠ 0 := by rw [len]; exact hi
  rcases Nat.lt_or_ge (m + n) ((s.params.thresh - (s.ch i).len.counter) / (s.ch i).len.increment) with h | h
  · rw [lengthSpan_lasts te ti (by rw [left]; omega), lengthSpan_lasts he hi h]
    refine ⟨?_, rfl⟩
    simp only [len]
    rw [ht, State.modCh_modCh, Nat.add_mul, Nat.add_assoc]
  · rw [lengthSpan_ends te ti (by rw [left]; omega), lengthSpan_ends he hi h]
    refine ⟨?_, by simp only [left]; omega⟩
    simp only [len]
    rw [ht, State.modCh_modCh]

end Sys2Proof.Machine
end

section
/-! PROOFS. The noise sequence (R210, R211): the recurrence of its output bits, and from it the least periods of both widths.

An output bit is the XNOR of two earlier ones. A recurrence of this kind doubles: if every bit is the XNOR of the bits `q` and `r`
behind it, the same holds with all distances doubled. So the bits at the distances 1, 2, 4, ... from any bit satisfy a short
recurrence themselves, and come back after 7 doublings (narrow) or 15 (wide). -/

namespace Sys2Proof.Machine

open Sys2Proof.Safety

/-! ### One crossing -/

theorem levelOf_pos {p : Params} (hp : 1 ≤ p.lvl) (b : Bool) : 0 < levelOf p b ↔ b = true := by
  cases b
  · simp [levelOf]
  · simp only [levelOf, if_true, iff_true]
    omega

theorem noiseTap_wide {v : NoiseVoice} (h : v.widthMode = .wide) : noiseTap v = (v.lfsr.getLsbD 14 == v.lfsr.getLsbD 13) := by
  rw [noiseTap, h]

theorem noiseTap_narrow {v : NoiseVoice} (h : v.widthMode = .narrow) : noiseTap v = (v.lfsr.getLsbD 6 == v.lfsr.getLsbD 5) := by
  rw [noiseTap, h]

section
variable {p : Params} {v : NoiseVoice} {level : Int}

theorem noiseAfter_widthMode (n : Nat) : (noiseAfter p v level n).1.widthMode = v.widthMode := by
  induction n with
  | zero => rfl
  | succ n ih => exact ih

/-- A crossing's output bit is the XNOR of the taps of its register. -/
theorem noiseBit_succ (hp : 1 ≤ p.lvl) (n : Nat) : noiseBit p v level (n + 1) = noiseTap (noiseAfter p v level (n + 1)).1 := by
  rw [Bool.eq_iff_iff, noiseBit, decide_eq_true_iff]
  exact levelOf_pos hp _

/-- A crossing shifts the register and puts the previous output bit into place 0. -/
theorem noiseAfter_lfsr_succ (n : Nat) : (noiseAfter p v level (n + 1)).1.lfsr =
    (noiseAfter p v level n).1.lfsr <<< 1 ||| if noiseBit p v level n then 1 else 0 := by
  simp only [noiseAfter, noiseAdvance, noiseBit, decide_eq_true_eq, gt_iff_lt]

/-- Place `i` holds the output bit of `i + 1` crossings ago. -/
theorem noiseAfter_lfsr (n : Nat) {i : Nat} (hi : i < 16) :
    (noiseAfter p v level (n + i + 1)).1.lfsr.getLsbD i = noiseBit p v level n := by
  induction i with
  | zero =>
    rw [noiseAfter_lfsr_succ]
    cases noiseBit p v level n <;> simp
  | succ i ih =>
    rw [noiseAfter_lfsr_succ, BitVec.getLsbD_or, BitVec.getLsbD_shiftLeft, ← ih (by omega)]
    cases noiseBit p v level (n + (i + 1)) <;> simp [hi, Nat.add_assoc]

/-- With taps at the places `i` and `i + 1`, an output bit is the XNOR of those `i + 1` and `i + 2` crossings ago. -/
theorem noiseBit_xnor (hp : 1 ≤ p.lvl) {i : Nat} (hi : i + 1 < 16)
    (tap : ∀ w : NoiseVoice, w.widthMode = v.widthMode → noiseTap w = (w.lfsr.getLsbD (i + 1) == w.lfsr.getLsbD i))
    (n : Nat) : noiseBit p v level (n + (i + 2)) = (noiseBit p v level (n + 1) == noiseBit p v level n) := by
  have far := noiseAfter_lfsr (p := p) (v := v) (level := level) n hi
  have near := noiseAfter_lfsr (p := p) (v := v) (level := level) (n + 1) (i := i) (by omega)
  rw [Nat.add_right_comm n 1 i] at near
  rw [← Nat.add_assoc, noiseBit_succ hp, tap _ (noiseAfter_widthMode _), ← far, ← near, Bool.beq_comm]
  rfl

/-- The recurrence of the wide output bits (R211). -/
theorem noiseBit_wide (hp : 1 ≤ p.lvl) (hw : v.widthMode = .wide) (n : Nat) :
    noiseBit p v level (n + 15) = (noiseBit p v level (n + 1) == noiseBit p v level n) :=
  noiseBit_xnor hp (i := 13) (by decide) (fun _ h => noiseTap_wide (h.trans hw)) n

/-- The recurrence of the narrow output bits (R211). -/
theorem noiseBit_narrow (hp : 1 ≤ p.lvl) (hw : v.widthMode = .narrow) (n : Nat) :
    noiseBit p v level (n + 7) = (noiseBit p v level (n + 1) == noiseBit p v level n) :=
  noiseBit_xnor hp (i := 5) (by decide) (fun _ h => noiseTap_narrow (h.trans hw)) n

end

/-- From one sign of the level the output bits depend on the register and the width alone. -/
theorem noiseBit_congr {p q : Params} (hp : 1 ≤ p.lvl) (hq : 1 ≤ q.lvl) {v w : NoiseVoice} (hr : v.lfsr = w.lfsr)
    (hw : v.widthMode = w.widthMode) (b : Bool) (n : Nat) :
    noiseBit p v (levelOf p b) n = noiseBit q w (levelOf q b) n := by
  have start : noiseBit p v (levelOf p b) 0 = noiseBit q w (levelOf q b) 0 := by
    simp only [noiseBit, noiseAfter, levelOf_pos hp, levelOf_pos hq]
  have both : (noiseAfter p v (levelOf p b) n).1.lfsr = (noiseAfter q w (levelOf q b) n).1.lfsr ∧
      noiseBit p v (levelOf p b) n = noiseBit q w (levelOf q b) n := by
    induction n with
    | zero => exact ⟨hr, start⟩
    | succ n ih =>
      obtain ⟨lfsr, bit⟩ := ih
      have next : (noiseAfter p v (levelOf p b) (n + 1)).1.lfsr = (noiseAfter q w (levelOf q b) (n + 1)).1.lfsr := by
        rw [noiseAfter_lfsr_succ, noiseAfter_lfsr_succ, lfsr, bit]
      refine ⟨next, ?_⟩
      simp only [noiseBit_succ hp, noiseBit_succ hq, noiseTap, noiseAfter_widthMode, next, hw]
  exact both.2

/-! ### XNOR recurrences -/

/-- Every bit `p` places on is the XNOR of the bits `q` and `r` places on. -/
def XnorShift (b : Nat → Bool) (p q r : Nat) : Prop := ∀ n, b (n + p) = (b (n + q) == b (n + r))

theorem XnorShift.succ {b : Nat → Bool} {p q r : Nat} (h : XnorShift b p q r) : XnorShift b (p + 1) (q + 1) (r + 1) := fun n => by
  simpa only [Nat.add_assoc, Nat.add_comm 1] using h (n + 1)

/-- The two middle terms cancel. -/
theorem XnorShift.double {b : Nat → Bool} {p q r : Nat} (h : XnorShift b p q r) : XnorShift b (2 * p) (2 * q) (2 * r) := fun n => by
  have cancel : ∀ x y z : Bool, ((x == y) == (y == z)) = (x == z) := by decide
  calc b (n + 2 * p) = b (n + p + p) := by rw [Nat.two_mul, Nat.add_assoc]
    _ = (b (n + q + p) == b (n + r + p)) := by rw [h, Nat.add_right_comm n p q, Nat.add_right_comm n p r]
    _ = ((b (n + q + q) == b (n + q + r)) == (b (n + q + r) == b (n + r + r))) := by rw [h, h, Nat.add_right_comm n r q]
    _ = (b (n + 2 * q) == b (n + 2 * r)) := by rw [cancel, Nat.two_mul, Nat.two_mul, Nat.add_assoc, Nat.add_assoc]

theorem XnorShift.doubles {b : Nat → Bool} {d : Nat} (h : XnorShift b (2 ^ d) 2 1) (k : Nat) :
    XnorShift b (2 ^ (k + d)) (2 ^ (k + 1)) (2 ^ k) := by
  induction k with
  | zero => simpa using h
  | succ k ih => simpa only [Nat.add_right_comm k 1, Nat.pow_succ'] using ih.double

theorem XnorShift.returns_seven {c : Nat → Bool} (h : XnorShift c 3 1 0) : c 7 = c 0 := by
  have cancel : ∀ x y : Bool, ((y == x) == y) = x := by decide
  have h3 : c 3 = (c 1 == c 0) := h 0
  have h7 : c 7 = (c 3 == c 1) := h.double 1
  rw [h7, h3, cancel]

theorem XnorShift.returns_fifteen {c : Nat → Bool} (h : XnorShift c 4 1 0) : c 15 = c 0 := by
  have cancel : ∀ x y z : Bool, ((z == y) == ((y == x) == z)) = x := by decide
  have h4 : c 4 = (c 1 == c 0) := h 0
  have h7 : c 7 = (c 4 == c 3) := h 3
  have h9 : c 9 = (c 3 == c 1) := h.double 1
  have h15 : c 15 = (c 9 == c 7) := h.double 7
  rw [h15, h9, h7, h4, cancel]

/-- If the distances 1, 2, 4, ... return to 1 after `k` doublings, the bits have the period `2 ^ k - 1`. -/
theorem XnorShift.periodic {b : Nat → Bool} {p d k : Nat} (hd : p + 2 = 2 ^ d) (h : XnorShift b (p + 1) 1 0)
    (returns : ∀ c, XnorShift c d 1 0 → c k = c 0) (n : Nat) : b (n + (2 ^ k - 1)) = b n := by
  have cancel : ∀ x y z : Bool, (x == y) = (x == z) → y = z := by decide
  have base : XnorShift b (2 ^ d) 2 1 := hd ▸ h.succ
  have after : ∀ m, b (m + 1 + (2 ^ k - 1)) = b (m + 1) := fun m => by
    have back : b (m + 2 ^ k) = b (m + 2 ^ 0) := returns (fun j => b (m + 2 ^ j)) fun j => base.doubles j m
    have := Nat.one_le_two_pow (n := k)
    rwa [show m + 2 ^ k = m + 1 + (2 ^ k - 1) by omega] at back
  refine cancel (b (n + 1)) _ _ ?_
  calc (b (n + 1) == b (n + (2 ^ k - 1)))
    _ = (b (n + (2 ^ k - 1) + 1) == b (n + (2 ^ k - 1))) := by rw [Nat.add_right_comm, after]
    _ = b (n + (2 ^ k - 1) + (p + 1)) := (h _).symm
    _ = b (n + p + 1) := by rw [Nat.add_right_comm, ← Nat.add_assoc, after]
    _ = (b (n + 1) == b n) := h n

/-! ### Least periods -/

/-- The sequence without its first bit. -/
def dropFirst (b : Nat → Bool) : Nat → Bool := fun n => b (n + 1)

theorem isPeriodicPt_dropFirst {b : Nat → Bool} {d : Nat} : Function.IsPeriodicPt dropFirst d b ↔ ∀ n, b (n + d) = b n := by
  have drop : dropFirst^[d] b = fun n => b (n + d) := by
    induction d with
    | zero => rfl
    | succ d ih => rw [Function.iterate_succ_apply', ih]; funext n; exact congrArg b (by omega)
  rw [Function.IsPeriodicPt, Function.IsFixedPt, drop, funext_iff]

/-- A period that no prime divides into a shorter one is the least. -/
theorem not_isPeriodicPt_of_lt {α : Type} {f : α → α} {x : α} {n d : Nat} (hn : Function.IsPeriodicPt f n x)
    (hp : ∀ p, p.Prime → p ∣ n → ¬ Function.IsPeriodicPt f (n / p) x) (h0 : 0 < d) (hd : d < n) :
    ¬ Function.IsPeriodicPt f d x := by
  intro h
  obtain ⟨m, hm⟩ := Nat.gcd_dvd_right d n
  have hm1 : m ≠ 1 := by
    rintro rfl
    have := Nat.gcd_le_left n h0
    omega
  obtain ⟨p, prime, e, rfl⟩ := Nat.exists_prime_and_dvd hm1
  have short : n / p = d.gcd n * e := Nat.div_eq_of_eq_mul_left prime.pos (by linarith)
  refine hp p prime ⟨d.gcd n * e, by linarith⟩ ?_
  rw [short]
  exact (h.gcd hn).mul_const e

/-! ### The sequence from the trigger seed (R153) -/

theorem testConfig_lvl : 1 ≤ Params.testConfig.lvl := by decide

/-- The output bits of one width from the trigger seed. -/
def seedBit (m : WidthMode) : Nat → Bool :=
  noiseBit Params.testConfig { lfsr := 0xFFFF, widthMode := m, divisorCode := 0 } (levelOf Params.testConfig false)

/-- The parameters and the divisor do not change the bits. -/
theorem noiseBit_seed {p : Params} (hp : 1 ≤ p.lvl) (m : WidthMode) (r : BitVec 3) :
    noiseBit p { lfsr := 0xFFFF, widthMode := m, divisorCode := r } (-(p.lvl : Int)) = seedBit m :=
  funext fun n => noiseBit_congr hp testConfig_lvl (by rfl) (by rfl) false n

theorem seedBit_narrow : XnorShift (seedBit .narrow) 7 1 0 := noiseBit_narrow testConfig_lvl rfl

theorem seedBit_wide : XnorShift (seedBit .wide) 15 1 0 := noiseBit_wide testConfig_lvl rfl

theorem seedBit_narrow_periodic : Function.IsPeriodicPt dropFirst 127 (seedBit .narrow) :=
  isPeriodicPt_dropFirst.2 (seedBit_narrow.periodic (d := 3) (k := 7) rfl fun _ => XnorShift.returns_seven)

theorem seedBit_wide_periodic : Function.IsPeriodicPt dropFirst 32767 (seedBit .wide) :=
  isPeriodicPt_dropFirst.2 (seedBit_wide.periodic (d := 4) (k := 15) rfl fun _ => XnorShift.returns_fifteen)

/-- 127 is a prime, and the narrow bits are not all equal. -/
theorem seedBit_narrow_least {d : Nat} (h0 : 0 < d) (hd : d < 127) : ¬ Function.IsPeriodicPt dropFirst d (seedBit .narrow) := by
  refine not_isPeriodicPt_of_lt seedBit_narrow_periodic (fun p prime hp => ?_) h0 hd
  obtain rfl : p = 127 := (Nat.prime_dvd_prime_iff_eq prime (by norm_num)).1 hp
  rw [isPeriodicPt_dropFirst]
  intro h
  exact absurd (h 0) (by decide)

/-- A jump of `2 ^ (k + 8)` crossings on the wide bits, as two short ones. -/
theorem seedBit_wide_jump (k n : Nat) :
    seedBit .wide (n + 2 ^ (k + 8)) = (seedBit .wide (n + 2 ^ (k + 2)) == seedBit .wide (n + 2 ^ k)) := by
  have base : XnorShift (fun j => seedBit .wide (n + 2 ^ j)) 4 1 0 := fun j =>
    XnorShift.doubles (b := seedBit .wide) (d := 4) seedBit_wide.succ j n
  exact base.double k

theorem seedBit_wide_values :
    seedBit .wide 0 = false ∧ seedBit .wide 42 = false ∧ seedBit .wide (3 + 2 ^ 8) = true ∧ seedBit .wide (33 + 2 ^ 10) = true ∧
    seedBit .wide (585 + 2 ^ 12) = true := by
  refine ⟨by decide, by decide +kernel, ?_, ?_, ?_⟩
  · rw [seedBit_wide_jump 0]
    decide
  · rw [seedBit_wide_jump 2]
    decide +kernel
  · rw [seedBit_wide_jump 4, show 585 + 2 ^ (4 + 2) = 137 + 2 ^ (1 + 8) from rfl, show 585 + 2 ^ 4 = 89 + 2 ^ (1 + 8) from rfl,
      seedBit_wide_jump, seedBit_wide_jump]
    decide +kernel

/-- 32767 is 7 * 31 * 151, and none of its three quotients is a period of the wide bits. -/
theorem seedBit_wide_least {d : Nat} (h0 : 0 < d) (hd : d < 32767) : ¬ Function.IsPeriodicPt dropFirst d (seedBit .wide) := by
  refine not_isPeriodicPt_of_lt seedBit_wide_periodic (fun p prime hp => ?_) h0 hd
  obtain ⟨b0, b42, b259, b1057, b4681⟩ := seedBit_wide_values
  rw [isPeriodicPt_dropFirst]
  intro h
  rw [show 32767 = 7 * (31 * 151) from rfl, prime.dvd_mul, prime.dvd_mul, Nat.prime_dvd_prime_iff_eq prime (by norm_num),
    Nat.prime_dvd_prime_iff_eq prime (by norm_num), Nat.prime_dvd_prime_iff_eq prime (by norm_num)] at hp
  rcases hp with rfl | rfl | rfl
  · exact absurd (b4681.symm.trans ((h 0).trans b0)) (by decide)
  · exact absurd (b1057.symm.trans ((h 0).trans b0)) (by decide)
  · exact absurd (b259.symm.trans ((h 42).trans b42)) (by decide)

/-- Settles O48: both widths return after 7 or 15 doublings, and no shorter period is left. -/
theorem noisePeriods : Obligations.NoisePeriods := by
  intro p r hp narrow wide
  have en : narrow = seedBit .narrow := noiseBit_seed hp .narrow r
  have ew : wide = seedBit .wide := noiseBit_seed hp .wide r
  rw [en, ew]
  refine ⟨isPeriodicPt_dropFirst.1 seedBit_narrow_periodic, fun d h0 hd => ?_,
    isPeriodicPt_dropFirst.1 seedBit_wide_periodic, fun d h0 hd => ?_⟩
  · exact not_forall.1 (mt isPeriodicPt_dropFirst.2 (seedBit_narrow_least h0 hd))
  · exact not_forall.1 (mt isPeriodicPt_dropFirst.2 (seedBit_wide_least h0 hd))

end Sys2Proof.Machine
end

section
/-! PROOFS. What a channel adds to a sub-block (R233, R235): the statement of the mixer. -/

namespace Sys2Proof.Machine

open Sys2Proof.Safety

/-! ### The mixer (R235) -/

theorem addPrefix_getD (acc ms : List Int) {g : Nat} (hg : g < acc.length) :
    (addPrefix acc ms).getD g 0 = acc.getD g 0 + ms.getD g 0 := by
  induction acc generalizing ms g with
  | nil => exact absurd hg (Nat.not_lt_zero g)
  | cons a acc ih =>
    cases ms with
    | nil => simp [addPrefix]
    | cons m ms =>
      cases g with
      | zero => rfl
      | succ g => exact ih ms (Nat.lt_of_succ_lt_succ hg)

/-- What one side's true sample `g` gains from a channel's values `ms`; a value that is not there counts as 0. -/
theorem mixSide_getD (on : Bool) (volume : BitVec 3) (d : Nat) (ms acc : List Int) {g : Nat} (hg : g < acc.length) :
    (mixSide on volume d ms acc).getD g 0 =
      acc.getD g 0 + if on = true then Int.tdiv (ms.getD g 0 * volume.toNat) d else 0 := by
  cases on with
  | false => simp [mixSide]
  | true =>
    have scaled : (ms.map fun m => tdiv (m * volume.toNat) d).getD g 0 = Int.tdiv (ms.getD g 0 * volume.toNat) d := by
      cases h : ms[g]? <;> simp [h, tdiv]
    rw [mixSide, if_pos rfl, if_pos rfl, addPrefix_getD _ _ hg, scaled]

/-- The gain of R235: only the steps that have a value add one. -/
theorem mixSide_gain (on : Bool) (volume : BitVec 3) (d : Nat) (ms acc : List Int) {g : Nat} (hg : g < acc.length) :
    (mixSide on volume d ms acc).getD g 0 = acc.getD g 0 +
      if on = true ∧ g < ms.length then Int.tdiv (ms.getD g 0 * volume.toNat) d else 0 := by
  rw [mixSide_getD on volume d ms acc hg]
  by_cases h : g < ms.length
  · simp only [h, and_true]
  · simp [h]

/-! ### The generation steps (R200) -/

/-- Square1's phase step, by its parameters and its duty generator. -/
theorem squarePhase_one {t : State} {p : Params} {d : SquareVoice} (hp : t.params = p) (hd : t.duty1 = d) :
    let r := phaseStep p.thresh t.square1.frequencyIncrement (squareAdvance p) t.square1.frequencyCounter
      t.square1.currentLevel d
    squarePhase .one t = ({ t with square1 := t.square1.withPhase r.counter r.level, duty1 := r.voice },
      r.mean * t.square1.volume.toNat) := by
  subst hp hd
  rfl

/-- A playing generation step of Square1: its sweep tick leaves the parameters and the duty generator to the phase step. -/
theorem channelStep_square1_phase {s : State} (h : (sweepTick (envTick .square1 s)).2 = false) :
    let t := (sweepTick (envTick .square1 s)).1
    let r := phaseStep s.params.thresh t.square1.frequencyIncrement (squareAdvance s.params) t.square1.frequencyCounter
      t.square1.currentLevel s.duty1
    channelStep .square1 s = ({ t with square1 := t.square1.withPhase r.counter r.level, duty1 := r.voice },
      some (r.mean * t.square1.volume.toNat)) := by
  have params : (sweepTick (envTick .square1 s)).1.params = s.params := by rw [sweepTick_fixed]; rfl
  have duty : (sweepTick (envTick .square1 s)).1.duty1 = s.duty1 := by rw [sweepTick_fixed]; rfl
  rw [channelStep_square1_plays h, squarePhase_one params duty]

/-! ### The guards (R213, R233) -/

theorem channelGuards_silent {u : State} (h : 14 ≤ u.noise.frequency.toNat) :
    channelGuards .noise u = (chanDisable .noise u, false) := if_pos h

theorem channelGuards_skipped {u : State} (h : u.noise.frequency.toNat < 14)
    (hi : u.noise.frequencyIncrement < u.params.noiseMinInc) : channelGuards .noise u = (u, false) :=
  (if_neg (show ¬ 14 ≤ u.noise.frequency.toNat by omega)).trans (if_pos hi)

theorem channelGuards_pass {u : State} (h : u.noise.frequency.toNat < 14)
    (hi : u.params.noiseMinInc ≤ u.noise.frequencyIncrement) : channelGuards .noise u = (u, true) :=
  (if_neg (show ¬ 14 ≤ u.noise.frequency.toNat by omega)).trans (if_neg (by omega))

/-! ### The processing of a channel (R233) -/

/-- What the mixer looks at beside a channel's values stays over the channel's processing. -/
theorem Moved.mixer {i : Ch} {s t : State} (h : Moved i s t) :
    (t.ch i).onLeft = (s.ch i).onLeft ∧ (t.ch i).onRight = (s.ch i).onRight ∧ t.volumeLeft = s.volumeLeft ∧
    t.volumeRight = s.volumeRight ∧ t.params = s.params := by
  obtain ⟨-, -, left, right, -⟩ := h.kept
  exact ⟨left, right, by rw [h.fixed], by rw [h.fixed], by rw [h.fixed]⟩

/-- A channel that its guards let pass: its generation steps, mixed with the pan bits, volumes and divisor of before. -/
theorem processChannel_plays {i : Ch} {n : Nat} {b : Block} (he : (b.st.ch i).enabled = true) (hp : (b.st.ch i).powered = true)
    (hg : (channelGuards i (recomputeIncrement i b.st)).2 = true) :
    let span := lengthSpan i n (channelGuards i (recomputeIncrement i b.st)).1
    let steps := runSteps i span.2 span.1
    processChannel i n b = {
      st := steps.1
      left := mixSide (b.st.ch i).onLeft b.st.volumeLeft b.st.params.mixDiv steps.2 b.left
      right := mixSide (b.st.ch i).onRight b.st.volumeRight b.st.params.mixDiv steps.2 b.right } := by
  intro span steps
  have run : processChannel i n b = {
      st := steps.1
      left := mixSide (steps.1.ch i).onLeft steps.1.volumeLeft steps.1.params.mixDiv steps.2 b.left
      right := mixSide (steps.1.ch i).onRight steps.1.volumeRight steps.1.params.mixDiv steps.2 b.right } := by
    unfold processChannel
    simp only
    rw [if_neg (by simp [he, hp]), if_neg (by simp [hg])]
  have moved := Moved.processChannel i n b
  rw [run] at moved
  obtain ⟨left, right, volumeLeft, volumeRight, params⟩ := moved.mixer
  rw [run, left, right, volumeLeft, volumeRight, params]

/-- What a side's true sample gains from a channel's generation steps: step `g`'s value, if the steps come to it. -/
theorem mixSide_runSteps (on : Bool) (volume : BitVec 3) (d : Nat) (i : Ch) (k : Nat) (u : State) {acc : List Int} {g : Nat}
    (hg : g < acc.length) :
    (mixSide on volume d (runSteps i k u).2 acc).getD g 0 = acc.getD g 0 +
      if on = true ∧ g < k ∧ playsThrough i u g = true then Int.tdiv ((valueAt i u g).getD 0 * volume.toNat) d else 0 := by
  have value : (runSteps i k u).2.getD g 0 =
      if g < k ∧ playsThrough i u g = true then (valueAt i u g).getD 0 else 0 := by
    rw [List.getD_eq_getElem?_getD, (runSteps_spec i k u).2 g]
    split <;> rfl
  rw [mixSide_getD on volume d _ acc hg, value]
  by_cases h : g < k ∧ playsThrough i u g = true
  · simp only [h, and_self, if_true, and_true]
  · simp [h]

/-- Settles O54: the mixer's gain, each channel's step, the guards, and the processing as its played steps. -/
theorem mixAddsScaledValues : Obligations.MixAddsScaledValues := by
  refine ⟨fun on volume d ms acc _ => ⟨mixSide_length on volume d ms acc, fun g hg => mixSide_gain on volume d ms acc hg⟩,
    fun s => ⟨channelStep_square1_stopped, channelStep_square1_phase, rfl, rfl, rfl⟩,
    fun u => ⟨rfl, rfl, rfl, channelGuards_silent, channelGuards_skipped, channelGuards_pass⟩,
    fun i n b => processChannel_off, fun i n b he hp hl hr => ⟨processChannel_refused he hp, fun hg => ?_⟩⟩
  rw [processChannel_plays he hp hg]
  refine ⟨(runSteps_spec i _ _).1, (mixSide_length _ _ _ _ _).trans hl, (mixSide_length _ _ _ _ _).trans hr, fun g hn => ⟨?_, ?_⟩⟩
  · exact mixSide_runSteps _ _ _ i _ _ (by omega)
  · exact mixSide_runSteps _ _ _ i _ _ (by omega)

end Sys2Proof.Machine
end

section
/-! PROOFS. The phase step's statements (R193, R194): its crossings, its mean, and the bounds of the mean.

The crossings cut the step into intervals, each with the level held on it; the mean is the sum of the levels weighted by the lengths
of their intervals, and the lengths add up to the increment. -/

namespace Sys2Proof.Machine

open Sys2Proof.Safety

/-! ### The crossings' positions (R194 (2)) -/

section
variable {thresh inc k : Nat} {pos : Int} {counter : Nat}

theorem crossingAt_start : crossingAt thresh inc k pos counter 0 = pos := if_pos rfl

theorem crossingAt_crossing {j : Nat} (h : j + 1 ≤ k) :
    crossingAt thresh inc k pos counter (j + 1) = pos + (j + 1) * thresh - counter := by
  rw [crossingAt, if_neg j.succ_ne_zero, if_pos h, Nat.cast_succ]

theorem crossingAt_end : crossingAt thresh inc k pos counter (k + 1) = inc :=
  (if_neg k.succ_ne_zero).trans (if_neg (by omega))

/-- The positions rise from the start of the step to its end. -/
theorem crossingAt_le_succ (hc : counter ≤ thresh) (h : k * thresh < counter + inc) {j : Nat} (hj : j ≤ k) :
    crossingAt thresh inc k 0 counter j ≤ crossingAt thresh inc k 0 counter (j + 1) := by
  have last : (k * thresh : Int) < counter + inc := by exact_mod_cast h
  rcases j with _ | j <;> rcases hj.eq_or_lt with rfl | hlt
  · rw [crossingAt_start, crossingAt_end]
    omega
  · rw [crossingAt_start, crossingAt_crossing hlt]
    push_cast
    omega
  · rw [crossingAt_crossing le_rfl, crossingAt_end]
    push_cast at last
    omega
  · rw [crossingAt_crossing hj, crossingAt_crossing hlt]
    push_cast
    linarith

/-- With the counter at the threshold the first crossing stands at position 0. -/
theorem crossingAt_one_of_full (hi : 1 ≤ inc) (h : thresh + inc ≤ (k + 1) * thresh) :
    crossingAt thresh inc k 0 thresh 1 = 0 := by
  have hk : 0 + 1 ≤ k := by
    rcases k with _ | k <;> omega
  rw [crossingAt_crossing hk]
  push_cast
  ring

end

/-! ### The mean (R193) -/

/-- A sum of levels weighted by the lengths of the intervals they are held on lies between two bounds of the levels that are held
for some length, each times the whole length. -/
theorem heldSum_between {edge level : Nat → Int} {lo hi : Int} {n : Nat} (rises : ∀ j < n, edge j ≤ edge (j + 1))
    (held : ∀ j < n, edge j < edge (j + 1) → lo ≤ level j ∧ level j ≤ hi) :
    lo * (edge n - edge 0) ≤ ∑ j ∈ Finset.range n, (edge (j + 1) - edge j) * level j ∧
    ∑ j ∈ Finset.range n, (edge (j + 1) - edge j) * level j ≤ hi * (edge n - edge 0) := by
  have each : ∀ j ∈ Finset.range n, lo * (edge (j + 1) - edge j) ≤ (edge (j + 1) - edge j) * level j ∧
      (edge (j + 1) - edge j) * level j ≤ hi * (edge (j + 1) - edge j) := by
    intro j hj
    rcases (rises j (Finset.mem_range.1 hj)).eq_or_lt with e | e
    · simp [e]
    · obtain ⟨low, high⟩ := held j (Finset.mem_range.1 hj) e
      rw [mul_comm (_ - _)]
      constructor <;> gcongr
  rw [← Finset.sum_range_sub, Finset.mul_sum, Finset.mul_sum]
  exact ⟨Finset.sum_le_sum fun j hj => (each j hj).1, Finset.sum_le_sum fun j hj => (each j hj).2⟩

section
variable {α : Type} {thresh inc counter k : Nat} (advance : α → Int → α × Int) (level : Int) (voice : α)

theorem phaseStep_zero : phaseStep thresh 0 advance counter level voice = ⟨level, counter, level, voice⟩ := if_pos rfl

/-- The mean of a phase step with `k` crossings: each level times the length it is held, over the increment. -/
theorem phaseStep_mean (ht : 1 ≤ thresh) (hi : 1 ≤ inc) (h1 : k * thresh < counter + inc)
    (h2 : counter + inc ≤ (k + 1) * thresh) :
    (phaseStep thresh inc advance counter level voice).mean =
      tdiv (∑ j ∈ Finset.range (k + 1), (crossingAt thresh inc k 0 counter (j + 1) - crossingAt thresh inc k 0 counter j) *
        (advanced advance voice level j).2) inc := by
  have bound : k ≤ (inc + counter - 1) / thresh := (Nat.le_div_iff_mul_le ht).2 (by omega)
  have loop := phaseLoop_mean (advance := advance) (acc := 0) (level := level) (voice := voice) bound (Int.natCast_nonneg inc)
    (.inr (by rw [sub_zero]; exact_mod_cast h1)) (by rw [sub_zero]; exact_mod_cast h2)
  rw [phaseStep, if_neg (by omega), loop, zero_add]

end

/-! ### The statements -/

/-- Settles O42: the step has no crossing, and its one level is held for the whole increment. -/
theorem phaseStepWithoutCrossing : Obligations.PhaseStepWithoutCrossing := by
  intro α thresh inc advance counter level voice h r
  rcases Nat.eq_zero_or_pos inc with rfl | hi
  · exact ⟨rfl, rfl, rfl, rfl⟩
  · have ht : 1 ≤ thresh := by omega
    have noneBelow : 0 * thresh < counter + inc := by omega
    have oneAbove : counter + inc ≤ (0 + 1) * thresh := by omega
    obtain ⟨fields, hcounter⟩ := phaseStep_spec (advance := advance) (level := level) (voice := voice) ht hi.ne'
      (.inr noneBelow) oneAbove
    obtain ⟨hvoice, hlevel⟩ := Prod.mk.inj fields
    refine ⟨?_, by simpa only [Nat.zero_mul, Nat.sub_zero] using hcounter, hlevel, hvoice⟩
    rw [phaseStep_mean advance level voice ht hi noneBelow oneAbove, Finset.sum_range_one, crossingAt_end, crossingAt_start,
      sub_zero]
    exact Int.mul_tdiv_cancel_left level (by omega)

/-- Settles O43: the loop's crossings are the step's, and `edge` is where they stand. -/
theorem phaseStepCrossings : Obligations.PhaseStepCrossings := by
  intro α thresh inc advance counter level voice k ht hi hc h1 h2 r edge
  obtain ⟨fields, hcounter⟩ := phaseStep_spec (advance := advance) (level := level) (voice := voice) ht (by omega) (.inr h1) h2
  have edges : edge = crossingAt thresh inc k 0 counter := by
    funext j
    simp only [edge, crossingAt, zero_add]
  refine ⟨fields, hcounter, phaseStep_counter advance level voice ht hc, ?_⟩
  rw [edges]
  exact phaseStep_mean advance level voice ht hi h1 h2

/-- Settles O44: the increment is the sum of the lengths, and only a level held for some length counts. -/
theorem phaseMeanWithinLevels : Obligations.PhaseMeanWithinLevels := by
  intro α thresh inc advance counter level voice lo hi ht hc before crossing
  rcases Nat.eq_zero_or_pos inc with rfl | hinc
  · rw [phaseStep_zero]
    exact before (.inr rfl)
  obtain ⟨k, h1, h2⟩ := crossings_exists ht (counter + inc)
  replace h1 : k * thresh < counter + inc := h1.elim (by rintro rfl; omega) id
  have held : ∀ j < k + 1, crossingAt thresh inc k 0 counter j < crossingAt thresh inc k 0 counter (j + 1) →
      lo ≤ (advanced advance voice level j).2 ∧ (advanced advance voice level j).2 ≤ hi := by
    intro j hj hlt
    rcases j with _ | j
    · refine before (.inl (lt_of_le_of_ne hc ?_))
      rintro rfl
      rw [crossingAt_start, crossingAt_one_of_full hinc h2] at hlt
      exact absurd hlt (lt_irrefl 0)
    · exact crossing (j + 1) (by omega) ((Nat.mul_le_mul_right thresh (by omega)).trans_lt h1)
  obtain ⟨low, high⟩ := heldSum_between (edge := crossingAt thresh inc k 0 counter)
    (fun j hj => crossingAt_le_succ hc h1 (Nat.le_of_lt_succ hj)) held
  rw [crossingAt_end, crossingAt_start, sub_zero] at low high
  rw [phaseStep_mean advance level voice ht hinc h1 h2]
  exact tdiv_between (by omega) low high

end Sys2Proof.Machine
end

section
/-! PROOFS. The increments (R190 to R192) and one crossing of each kind of channel (R197, R203, R210), by arithmetic. -/

namespace Sys2Proof.Machine

open Sys2Proof.Safety

/-! ### Increments (R190 to R192) -/

/-- The increment of the wave channel as a number (R192). -/
theorem waveInc_eq (p : Params) (f : Nat) : waveInc p f = 32 * (65536 / (2048 - f) * p.thresh / p.fs) := rfl

theorem noiseDiv_eq (r : BitVec 3) : noiseDiv r = if r.toNat = 0 then 8 else 16 * r.toNat := by
  revert r
  decide

/-- The increment of the noise channel as a number (R192). -/
theorem noiseInc_eq (p : Params) (r : BitVec 3) (shift : Nat) :
    noiseInc p r shift = 4194304 / ((if r.toNat = 0 then 8 else 16 * r.toNat) * 2 ^ shift) * p.thresh / p.fs := by
  rw [noiseInc, conv, noiseHz, noiseDiv_eq, Nat.shiftLeft_eq, pClk]

/-- Settles O41: a channel's increment is its formula's, and the update is of that one field. -/
theorem channelIncrements : Obligations.ChannelIncrements := by
  intro s conv square r
  simp only [square, conv, r, ← squareInc_eq, ← waveInc_eq, ← noiseInc_eq]
  exact ⟨rfl, rfl, rfl, rfl⟩

/-! ### One crossing -/

theorem levelOf_decide (p : Params) (P : Prop) [Decidable P] :
    levelOf p (decide P) = if P then (p.lvl : Int) else -(p.lvl : Int) := by
  simp only [levelOf, decide_eq_true_eq]

theorem getLsbD_eq_decide {w : Nat} (x : BitVec w) (i : Nat) : x.getLsbD i = decide (x.toNat / 2 ^ i % 2 = 1) :=
  Nat.testBit_eq_decide_div_mod_eq

/-- Settles O45: the duty step counts in three bits, and the level's bit of the pattern is a quotient's parity. -/
theorem squareAdvanceFollowsDuty : Obligations.SquareAdvanceFollowsDuty := by
  intro p d level r
  have step : (d.dutyStep + 1).toNat = (d.dutyStep.toNat + 1) % 8 := BitVec.toNat_add d.dutyStep 1
  refine ⟨rfl, step, ?_⟩
  simp only [r, squareAdvance]
  rw [step, getLsbD_eq_decide, levelOf_decide]

/-- The nibble of a position as a number (R65). -/
theorem waveNibble_toNat (m : List Host.Cell) (n : BitVec 5) :
    (waveNibble m n).toNat = if n.toNat % 2 = 0 then (memRead m (0xFF30 + n.toNat / 2)).toNat / 16
      else (memRead m (0xFF30 + n.toNat / 2)).toNat % 16 := by
  have := (memRead m (0xFF30 + n.toNat / 2)).isLt
  rw [waveNibble, waveBase]
  split
  · rw [BitVec.extractLsb'_toNat, Nat.shiftRight_eq_div_pow]
    omega
  · rw [BitVec.extractLsb'_toNat, Nat.shiftRight_zero]

/-- The level of a nibble as a number (R205). -/
theorem waveLevel_eq (nib code : BitVec 4) :
    waveLevel nib code = if code = 0 then 0 else ((nib.toNat / 2 ^ (code.toNat - 1) : Nat) : Int) - 8 := by
  rw [waveLevel, BitVec.toNat_ushiftRight, Nat.shiftRight_eq_div_pow]

/-- Settles O46: the position counts in five bits, and the nibble is fetched at the new one. -/
theorem waveAdvanceFetchesNibble : Obligations.WaveAdvanceFetchesNibble := by
  intro m code position level _ n byte nib r
  have next : (position + 1).toNat = n := BitVec.toNat_add position 1
  refine ⟨next, ?_⟩
  simp only [r, waveAdvance]
  rw [waveLevel_eq, waveNibble_toNat, next]

/-! ### The noise crossing (R210) -/

/-- The shifted register with the previous bit as a number. -/
theorem noiseAdvance_lfsr (p : Params) (v : NoiseVoice) (level : Int) :
    (noiseAdvance p v level).1.lfsr.toNat = (2 * v.lfsr.toNat + if 0 < level then 1 else 0) % 65536 := by
  have entering : (if level > 0 then 1 else 0 : BitVec 16).toNat = if 0 < level then 1 else 0 := by
    split <;> rfl
  have shifted : (v.lfsr <<< 1).toNat = 2 ^ 1 * (v.lfsr.toNat % 32768) := by
    rw [BitVec.toNat_shiftLeft]
    omega
  rw [noiseAdvance, BitVec.toNat_or, entering, shifted, ← Nat.two_pow_add_eq_or_of_lt (by split <;> omega)]
  split <;> omega

/-- The XNOR of two bits as an equation of parities. -/
theorem getLsbD_beq_getLsbD {w : Nat} (x : BitVec w) (i j : Nat) :
    (x.getLsbD i == x.getLsbD j) = decide (x.toNat / 2 ^ i % 2 = x.toNat / 2 ^ j % 2) := by
  rw [getLsbD_eq_decide, getLsbD_eq_decide, Bool.beq_eq_decide_eq, decide_eq_decide, decide_eq_decide]
  omega

theorem noiseAdvance_level_wide (p : Params) {v : NoiseVoice} (level : Int) (h : v.widthMode = .wide) :
    let n := (noiseAdvance p v level).1.lfsr.toNat
    (noiseAdvance p v level).2 = if n / 2 ^ 14 % 2 = n / 2 ^ 13 % 2 then (p.lvl : Int) else -(p.lvl : Int) := by
  intro n
  rw [← levelOf_decide, ← getLsbD_beq_getLsbD]
  exact congrArg (levelOf p) (noiseTap_wide h)

theorem noiseAdvance_level_narrow (p : Params) {v : NoiseVoice} (level : Int) (h : v.widthMode = .narrow) :
    let n := (noiseAdvance p v level).1.lfsr.toNat
    (noiseAdvance p v level).2 = if n / 2 ^ 6 % 2 = n / 2 ^ 5 % 2 then (p.lvl : Int) else -(p.lvl : Int) := by
  intro n
  rw [← levelOf_decide, ← getLsbD_beq_getLsbD]
  exact congrArg (levelOf p) (noiseTap_narrow h)

/-- Settles O47: one crossing by arithmetic, and the recurrences of the output bits. -/
theorem noiseRecurrence : Obligations.NoiseRecurrence :=
  ⟨fun p v level => ⟨noiseAdvance_lfsr p v level, rfl, rfl, noiseAdvance_level_wide p level, noiseAdvance_level_narrow p level⟩,
    fun _ _ _ n hp => ⟨fun h => noiseBit_wide hp h n, fun h => noiseBit_narrow hp h n⟩⟩

end Sys2Proof.Machine
end

section
/-! PROOFS. `generate` behind the host's two switches (R230, R244, R245), and the channels that it does not process (R233, R274). -/

namespace Sys2Proof.Machine

open Sys2Proof.Safety

/-! ### The host's switches -/

theorem exec_gen (n : BitVec 24) (s : State) : exec (.gen n) s = .next (generate n.toNat s) := rfl

/-- `generate` with the host disabled or locked. -/
theorem generate_blocked {s : State} (n : Nat) (h : s.hostEnable = false ∨ s.hostLocked = true) :
    generate n s = { s with returned := .produced false } := if_pos h

/-- Settles O49: the driver's first test stops it. -/
theorem generateBlocked : Obligations.GenerateBlocked := fun s n h => by
  rw [exec_gen, generate_blocked n.toNat h]

/-- Settles O58: each switch is one field, and a block that it disables or locks is `GenerateBlocked`'s. -/
theorem switchesGateGenerate : Obligations.SwitchesGateGenerate := fun _ _ n =>
  ⟨⟨_, rfl, rfl, fun hb => generateBlocked _ n (.inl hb)⟩, ⟨_, rfl, rfl, fun hb => generateBlocked _ n (.inr hb)⟩⟩

/-! ### A channel that is not processed -/

/-- From `s` to `t` channel `i`'s record and its own fields are as before (R27 to R29, R32). -/
def Frozen (i : Ch) (s t : State) : Prop :=
  t.ch i = s.ch i ∧ (i = .square1 → t.sweep = s.sweep ∧ t.duty1 = s.duty1) ∧ (i = .square2 → t.duty2 = s.duty2) ∧
  (i = .wave → t.samplePosition = s.samplePosition) ∧ (i = .noise → t.noiseVoice = s.noiseVoice)

theorem Frozen.refl (i : Ch) (s : State) : Frozen i s s :=
  ⟨rfl, fun _ => ⟨rfl, rfl⟩, fun _ => rfl, fun _ => rfl, fun _ => rfl⟩

theorem Frozen.trans {i : Ch} {s u t : State} (h : Frozen i s u) (k : Frozen i u t) : Frozen i s t := by
  obtain ⟨record, own1, own2, ownW, ownN⟩ := h
  obtain ⟨record', own1', own2', ownW', ownN'⟩ := k
  exact ⟨record'.trans record, fun e => ⟨(own1' e).1.trans (own1 e).1, (own1' e).2.trans (own1 e).2⟩,
    fun e => (own2' e).trans (own2 e), fun e => (ownW' e).trans (ownW e), fun e => (ownN' e).trans (ownN e)⟩

/-- The processing of another channel leaves channel `i`. -/
theorem Moved.frozen {i j : Ch} {s t : State} (h : Moved j s t) (hij : i ≠ j) : Frozen i s t :=
  ⟨h.others i hij, fun e => (h.square1Only (e ▸ hij.symm)).symm, fun e => h.square2Only (e ▸ hij.symm),
    fun e => h.waveOnly (e ▸ hij.symm), fun e => h.noiseOnly (e ▸ hij.symm)⟩

/-- The processing of any channel leaves one that is not enabled or not powered: its own processing is skipped. -/
theorem processChannel_frozen {i : Ch} {s : State} (off : (s.ch i).enabled = false ∨ (s.ch i).powered = false) (j : Ch) (n : Nat)
    {b : Block} (h : Frozen i s b.st) : Frozen i s (processChannel j n b).st := by
  by_cases e : i = j
  · subst e
    rw [processChannel_off (by rw [h.1]; exact off)]
    exact h
  · exact h.trans ((Moved.processChannel j n b).frozen e)

theorem subBlock_frozen {i : Ch} {s : State} (off : (s.ch i).enabled = false ∨ (s.ch i).powered = false) (j size : Nat) {t : State}
    (h : Frozen i s t) : Frozen i s (subBlock j size t) := by
  have part := fun c (b : Block) => processChannel_frozen (b := b) off c (stepsOf t.params size)
  exact part .noise _ (part .square2 _ (part .square1 _ (part .wave ⟨t, List.replicate _ 0, List.replicate _ 0⟩ h)))

theorem generate_frozen {i : Ch} {s : State} (off : (s.ch i).enabled = false ∨ (s.ch i).powered = false) (n : Nat) :
    Frozen i s (generate n s) := by
  unfold generate
  split
  · exact Frozen.refl i s
  · exact generateLoop_induct (P := Frozen i s) (fun j size _ h => subBlock_frozen off j size h) n 0 n (Frozen.refl i s)

/-- Settles O52: no sub-block processes the channel, since none makes it enabled or powered. -/
theorem unprocessedChannelIsFrozen : Obligations.UnprocessedChannelIsFrozen :=
  fun s n _ off => ⟨_, exec_gen n s, generate_frozen off n.toNat⟩

end Sys2Proof.Machine
end

section
/-! PROOFS. The slots that a sub-block writes and their values, whatever the register window holds (R230, R236, R237). -/

namespace Sys2Proof.Machine

open Sys2Proof.Safety

/-! ### One slot (R237) -/

theorem storeSlot_fits {v : Int} (lo : -32768 ≤ v) (hi : v ≤ 32767) (d : Nat) : storeSlot v d = (BitVec.ofInt 16 v, d) :=
  if_pos ⟨lo, hi⟩

theorem storeSlot_free {v : Int} (h : v < -32768 ∨ 32767 < v) (d : Nat) : storeSlot v d = (Config.freeSlot d, d + 1) :=
  if_neg (by unfold sampleMin sampleMax; omega)

/-- Settles O55: the two branches of `Store`; a value that fits is the slot's by `storeSlot_holds`. -/
theorem slotHoldsSampleOrDraw : Obligations.SlotHoldsSampleOrDraw := by
  refine fun v d => ⟨fun lo hi => ⟨?_, by rw [storeSlot_fits lo hi]⟩, fun h => storeSlot_free h d⟩
  obtain ⟨y, hy, value⟩ := (storeSlot_holds v d).1 lo hi
  rw [Option.some.inj hy, value]

/-- Where no draw was taken, the true sample alone says what a slot holds. -/
theorem slotHolds_unique {v : Int} {d : Nat} {x y : Option Slot} (hx : slotHolds v d d x) (hy : slotHolds v d d y) : x = y := by
  by_cases h : -32768 ≤ v ∧ v ≤ 32767
  · obtain ⟨a, rfl, ha⟩ := hx.1 h.1 h.2
    obtain ⟨b, rfl, hb⟩ := hy.1 h.1 h.2
    rw [BitVec.eq_of_toInt_eq (ha.trans hb.symm)]
  · obtain ⟨e, lo, hi, -⟩ := hx.2 (by omega)
    omega

/-! ### One sub-block (R230) -/

/-- The true samples of a sub-block of `size` slots from the state `s`, and the state the channels leave. -/
def summed (size : Nat) (s : State) : Block :=
  processAll (stepsOf s.params size)
    { st := s, left := List.replicate (stepsOf s.params size) 0, right := List.replicate (stepsOf s.params size) 0 }

/-- The slots of a sub-block on each side, and the number of the next draw after it. -/
def stored (size : Nat) (s : State) : List Slot × List Slot × Nat :=
  replicate s.params.r (summed size s).left (summed size s).right size 0 s.draws

/-- A sub-block is its channels' processing and the store of its slots. -/
theorem subBlock_eq (j size : Nat) (s : State) : subBlock j size s = { (summed size s).st with
    outL := writeSlots s.outL j (stored size s).1
    outR := writeSlots s.outR j (stored size s).2.1
    draws := (stored size s).2.2 } := by
  obtain ⟨params, left, right, draws⟩ : (summed size s).st.params = s.params ∧ (summed size s).st.outL = s.outL ∧
    (summed size s).st.outR = s.outR ∧ (summed size s).st.draws = s.draws := processAll_port _ _
  rw [stored, ← params, ← left, ← right, ← draws]
  rfl

theorem subBlock_outL (j size : Nat) (s : State) : (subBlock j size s).outL = writeSlots s.outL j (stored size s).1 := by
  rw [subBlock_eq]

theorem subBlock_outR (j size : Nat) (s : State) : (subBlock j size s).outR = writeSlots s.outR j (stored size s).2.1 := by
  rw [subBlock_eq]

theorem subBlock_draws (j size : Nat) (s : State) : (subBlock j size s).draws = (stored size s).2.2 := by
  rw [subBlock_eq]

theorem stored_length (size : Nat) (s : State) : (stored size s).1.length = size ∧ (stored size s).2.1.length = size :=
  replicate_length _ _ _ _ _ _

/-- Slot `q` of a sub-block holds true sample `q div P_R` on each side. -/
theorem stored_holds {q size : Nat} (s : State) (hq : q < size) :
    slotHolds ((summed size s).left.getD (q / s.params.r) 0) s.draws (stored size s).2.2 (stored size s).1[q]? ∧
    slotHolds ((summed size s).right.getD (q / s.params.r) 0) s.draws (stored size s).2.2 (stored size s).2.1[q]? := by
  have h := replicate_spec s.params.r (summed size s).left (summed size s).right size 0 s.draws q hq
  rw [Nat.zero_add] at h
  exact h

/-- A sub-block only takes draws. -/
theorem draws_le_subBlock (j size : Nat) (s : State) : s.draws ≤ (subBlock j size s).draws := by
  rw [subBlock_draws]
  exact replicate_draws _ _ _ _ _ _

theorem writeSlots_getElem_kept {buf xs : List Slot} {j q : Nat} (hj : j ≤ buf.length) (hq : q < j ∨ j + xs.length ≤ q) :
    (writeSlots buf j xs)[q]? = buf[q]? := by
  rw [writeSlots_getElem buf xs hj]
  split
  · rfl
  · exact if_neg (by omega)

theorem writeSlots_getElem_written {buf xs : List Slot} {j q : Nat} (hj : j ≤ buf.length) (hq : q < xs.length) :
    (writeSlots buf j xs)[j + q]? = xs[q]? := by
  rw [writeSlots_getElem buf xs hj, if_neg (by omega), if_pos (by omega), Nat.add_sub_cancel_left]

theorem length_le_writeSlots {buf : List Slot} {j : Nat} (xs : List Slot) (hj : j ≤ buf.length) :
    j + xs.length ≤ (writeSlots buf j xs).length := by
  rw [writeSlots_length buf xs hj]
  exact Nat.le_max_left _ _

/-! ### The driver's loop (R230) -/

theorem generateLoop_next {k j n : Nat} {s : State} (h : j < n) : generateLoop (k + 1) j n s =
    generateLoop k (j + min (n - j) (blockSize s.params)) n (subBlock j (min (n - j) (blockSize s.params)) s) :=
  if_pos h

theorem generateLoop_done {k j n : Nat} {s : State} (h : n ≤ j) : generateLoop k j n s = s := by
  cases k with
  | zero => rfl
  | succ k => exact if_neg (Nat.not_lt.2 h)

/-- The driver's loop from slot 0 is the sub-blocks in order. -/
theorem generateLoop_eq_fold {s : State} (hp : s.params.wf) (n : Nat) :
    generateLoop n 0 n s = (List.range ((n + blockSize s.params - 1) / blockSize s.params)).foldl
      (fun t i => subBlock (i * blockSize s.params) (min (n - i * blockSize s.params) (blockSize s.params)) t) s := by
  have fold := generateLoop_fold n (i := 0) (n := n) (s := s) rfl (blockSize_pos hp) (by omega)
  rw [Nat.zero_mul, Nat.zero_min, Nat.sub_zero, ← List.range_eq_range'] at fold
  exact fold

/-- Settles O56: the driver's loop is its sub-blocks, and a sub-block is `subBlock_eq`, slot by slot. -/
theorem subBlockStoresTrueSamples : Obligations.SubBlockStoresTrueSamples := by
  constructor
  · intro s n hp he hl full
    rw [exec_gen, generate_unlocked _ he hl, generateLoop_eq_fold hp]
    rfl
  · intro s j size _ hjl hjr n b t
    obtain ⟨lenL, lenR⟩ := stored_length size s
    have outL : t.outL = writeSlots s.outL j (stored size s).1 := subBlock_outL j size s
    have outR : t.outR = writeSlots s.outR j (stored size s).2.1 := subBlock_outR j size s
    have draws : t.draws = (stored size s).2.2 := subBlock_draws j size s
    refine ⟨rfl, fun q hq => ?_, fun q hq => ?_⟩
    · rw [outL, outR]
      exact ⟨writeSlots_getElem_kept hjl (by omega), writeSlots_getElem_kept hjr (by omega)⟩
    · intro l r
      obtain ⟨⟨fitsL, freeL⟩, ⟨fitsR, freeR⟩⟩ := stored_holds s hq
      rw [outL, outR, draws, writeSlots_getElem_written hjl (by omega), writeSlots_getElem_written hjr (by omega)]
      exact ⟨fitsL, fitsR, freeL, freeR⟩

end Sys2Proof.Machine
end

section
/-! PROOFS. `generate` with every channel disabled (R230, D46), and the groups of equal slots (R236). -/

namespace Sys2Proof.Machine

open Sys2Proof.Safety

/-! ### Silence -/

theorem processAll_off {b : Block} (n : Nat) (h : ∀ i, (b.st.ch i).enabled = false) : processAll n b = b := by
  have skip := fun i => processChannel_off (n := n) (.inl (h i))
  rw [processAll, skip .wave, skip .square1, skip .square2, skip .noise]

/-- True samples 0 give slots 0 and take no draw. -/
theorem replicate_zero (r m k q d : Nat) :
    replicate r (List.replicate m 0) (List.replicate m 0) k q d = (List.replicate k 0, List.replicate k 0, d) := by
  have sample : ∀ g, (List.replicate m (0 : Int)).getD g 0 = 0 := fun g => by
    rw [List.getD_eq_getElem?_getD, List.getElem?_replicate]
    split <;> rfl
  have slot : storeSlot 0 d = (0, d) := storeSlot_fits (by decide) (by decide) d
  induction k generalizing q with
  | zero => rfl
  | succ k ih => simp only [replicate, sample, slot, ih, List.replicate_succ]

/-- The state with `k` zero slots from slot `j` on in both buffers. -/
def State.silenced (s : State) (j k : Nat) : State :=
  s.withBuffers (writeSlots s.outL j (List.replicate k 0)) (writeSlots s.outR j (List.replicate k 0))

theorem State.silenced_silenced {s : State} {j : Nat} (hl : j ≤ s.outL.length) (hr : j ≤ s.outR.length) (m k : Nat) :
    (s.silenced j m).silenced (j + m) k = s.silenced j (m + k) := by
  have meet : ∀ {buf : List Slot}, j ≤ buf.length →
      writeSlots (writeSlots buf j (List.replicate m 0)) (j + m) (List.replicate k 0) =
        writeSlots buf j (List.replicate (m + k) 0) := fun {buf} hb => by
    have h := writeSlots_append (List.replicate m 0) (List.replicate k 0) hb
    rw [List.length_replicate, List.replicate_append_replicate] at h
    exact h
  show s.withBuffers (writeSlots (writeSlots s.outL j _) (j + m) _) (writeSlots (writeSlots s.outR j _) (j + m) _) = _
  rw [meet hl, meet hr]
  rfl

theorem subBlock_silence {s : State} (j size : Nat) (off : ∀ i, (s.ch i).enabled = false) :
    subBlock j size s = s.silenced j size := by
  have sum : summed size s = ⟨s, List.replicate _ 0, List.replicate _ 0⟩ := processAll_off _ off
  rw [subBlock_eq, stored, sum, replicate_zero]
  rfl

theorem State.silenced_nothing (s : State) (j : Nat) : s.silenced j 0 = s := by
  rw [State.silenced, List.replicate_zero, writeSlots_nil, writeSlots_nil]
  rfl

theorem State.silenced_length {s : State} {j : Nat} (hl : j ≤ s.outL.length) (hr : j ≤ s.outR.length) (m : Nat) :
    j + m ≤ (s.silenced j m).outL.length ∧ j + m ≤ (s.silenced j m).outR.length := by
  have l := length_le_writeSlots (List.replicate m 0) hl
  have r := length_le_writeSlots (List.replicate m 0) hr
  rw [List.length_replicate] at l r
  exact ⟨l, r⟩

theorem generateLoop_silence (k : Nat) {s : State} {j n : Nat} (hb : 1 ≤ blockSize s.params) (hk : n ≤ j + k)
    (hl : j ≤ s.outL.length) (hr : j ≤ s.outR.length) (off : ∀ i, (s.ch i).enabled = false) :
    generateLoop k j n s = s.silenced j (n - j) := by
  induction k generalizing s j with
  | zero =>
    have h : n ≤ j := hk
    rw [generateLoop_done h, Nat.sub_eq_zero_of_le h, State.silenced_nothing]
  | succ k ih =>
    rcases Nat.lt_or_ge j n with h | h
    · rw [generateLoop_next h]
      generalize hm : min (n - j) (blockSize s.params) = m
      have off' : ∀ i, ((s.silenced j m).ch i).enabled = false := fun i => by
        rw [State.silenced, State.withBuffers_ch, off]
      obtain ⟨lenL, lenR⟩ := State.silenced_length hl hr m
      rw [subBlock_silence j m off, ih (s := s.silenced j m) hb (by omega) lenL lenR off', State.silenced_silenced hl hr,
        show m + (n - (j + m)) = n - j by omega]
    · rw [generateLoop_done h, Nat.sub_eq_zero_of_le h, State.silenced_nothing]

/-- Settles O50: every sub-block is silent, so the loop writes N zero slots. -/
theorem generateSilence : Obligations.GenerateSilence := by
  intro s n hp he hl off
  rw [exec_gen, generate_unlocked _ he hl,
    generateLoop_silence n.toNat (blockSize_pos hp) (by omega) (Nat.zero_le _) (Nat.zero_le _) off]
  simp [State.silenced, State.withBuffers, writeSlots]

/-! ### Groups of `P_R` slots (R236) -/

/-- Below slot `j` every slot equals the first one of its group of `r`. -/
def Grouped (r j : Nat) (buf : List Slot) : Prop := ∀ q, q < j → buf[q]? = buf[q / r * r]?

/-- Where no draw was taken, the slots of a sub-block are grouped: they hold one true sample. -/
theorem stored_grouped {size : Nat} {s : State} (hd : (stored size s).2.2 = s.draws) :
    Grouped s.params.r size (stored size s).1 ∧ Grouped s.params.r size (stored size s).2.1 := by
  have first : ∀ q, q / s.params.r * s.params.r / s.params.r = q / s.params.r := fun q => by
    rcases Nat.eq_zero_or_pos s.params.r with h | h
    · simp [h]
    · exact Nat.mul_div_cancel _ h
  have same : ∀ q, q < size → (stored size s).1[q]? = (stored size s).1[q / s.params.r * s.params.r]? ∧
      (stored size s).2.1[q]? = (stored size s).2.1[q / s.params.r * s.params.r]? := fun q hq => by
    obtain ⟨l, r⟩ := stored_holds s hq
    obtain ⟨l', r'⟩ := stored_holds s (Nat.lt_of_le_of_lt (Nat.div_mul_le_self q s.params.r) hq)
    rw [first] at l' r'
    rw [hd] at l r l' r'
    exact ⟨slotHolds_unique l l', slotHolds_unique r r'⟩
  exact ⟨fun q hq => (same q hq).1, fun q hq => (same q hq).2⟩

/-- Grouped slots written from a group's first slot on continue the groups. -/
theorem Grouped.writeSlots {r j : Nat} {buf xs : List Slot} (hb : Grouped r j buf) (hx : Grouped r xs.length xs) (hr : 1 ≤ r)
    (hj : j ≤ buf.length) (aligned : r ∣ j) : Grouped r (j + xs.length) (writeSlots buf j xs) := by
  intro q hq
  by_cases h : q < j
  · rw [writeSlots_getElem_kept hj (.inl h),
      writeSlots_getElem_kept hj (.inl (Nat.lt_of_le_of_lt (Nat.div_mul_le_self q r) h))]
    exact hb q h
  · obtain ⟨g, rfl⟩ : ∃ g, q = j + g := ⟨q - j, by omega⟩
    obtain ⟨i, rfl⟩ := aligned
    have hg : g < xs.length := by omega
    rw [Nat.mul_add_div hr, Nat.add_mul, Nat.mul_comm i r, writeSlots_getElem_written hj hg,
      writeSlots_getElem_written hj (Nat.lt_of_le_of_lt (Nat.div_mul_le_self g r) hg)]
    exact hx g hg

/-- Both buffers are written and grouped up to slot `j`. -/
def GroupedTo (j : Nat) (s : State) : Prop :=
  (j ≤ s.outL.length ∧ Grouped s.params.r j s.outL) ∧ (j ≤ s.outR.length ∧ Grouped s.params.r j s.outR)

theorem subBlock_grouped {j size : Nat} {s : State} (hr : 1 ≤ s.params.r) (aligned : s.params.r ∣ j) (h : GroupedTo j s)
    (hd : (subBlock j size s).draws = s.draws) : GroupedTo (j + size) (subBlock j size s) := by
  obtain ⟨lenL, lenR⟩ := stored_length size s
  rw [subBlock_draws] at hd
  obtain ⟨newL, newR⟩ := stored_grouped hd
  have side : ∀ {buf xs : List Slot}, j ≤ buf.length ∧ Grouped s.params.r j buf → xs.length = size → Grouped s.params.r size xs →
      j + size ≤ (writeSlots buf j xs).length ∧ Grouped s.params.r (j + size) (writeSlots buf j xs) :=
    fun {buf xs} hb hx hg => by
      subst hx
      exact ⟨length_le_writeSlots xs hb.1, hb.2.writeSlots hg hr hb.1 aligned⟩
  rw [GroupedTo, subBlock_outL, subBlock_outR, subBlock_params]
  exact ⟨side h.1 lenL newL, side h.2 lenR newR⟩

theorem draws_le_generateLoop (k j n : Nat) (s : State) : s.draws ≤ (generateLoop k j n s).draws :=
  generateLoop_induct (P := fun t => s.draws ≤ t.draws) (fun j size t h => Nat.le_trans h (draws_le_subBlock j size t)) k j n
    (Nat.le_refl _)

/-- A driver's loop that takes no draw continues the groups to its last slot: every sub-block but the last ends a group. -/
theorem generateLoop_grouped (k : Nat) {j n : Nat} {s : State} (hb : 1 ≤ blockSize s.params) (hr : 1 ≤ s.params.r)
    (hk : n ≤ j + k) (aligned : j < n → s.params.r ∣ j) (h : GroupedTo j s) (hd : (generateLoop k j n s).draws = s.draws) :
    ∀ q, q < n → (generateLoop k j n s).outL[q]? = (generateLoop k j n s).outL[q / s.params.r * s.params.r]? ∧
      (generateLoop k j n s).outR[q]? = (generateLoop k j n s).outR[q / s.params.r * s.params.r]? := by
  induction k generalizing j s with
  | zero => exact fun q hq => ⟨h.1.2 q (by omega), h.2.2 q (by omega)⟩
  | succ k ih =>
    rcases Nat.lt_or_ge j n with hj | hj
    · rw [generateLoop_next hj] at hd ⊢
      generalize hm : min (n - j) (blockSize s.params) = m at hd ⊢
      have params : (subBlock j m s).params = s.params := subBlock_params j m s
      have noDraw : (subBlock j m s).draws = s.draws :=
        Nat.le_antisymm (hd ▸ draws_le_generateLoop k (j + m) n _) (draws_le_subBlock j m s)
      have aligned' : j + m < n → s.params.r ∣ j + m := fun hn => by
        have full : m = blockSize s.params := by omega
        rw [full]
        exact Nat.dvd_add (aligned hj) (Nat.dvd_mul_left _ _)
      have hk' : n ≤ j + m + k := by omega
      rw [← params] at hb hr aligned' ⊢
      exact ih hb hr hk' aligned' (subBlock_grouped (params ▸ hr) (aligned hj) h noDraw) (hd.trans noDraw.symm)
    · rw [generateLoop_done hj]
      exact fun q hq => ⟨h.1.2 q (by omega), h.2.2 q (by omega)⟩

/-- Settles O57: the loop from slot 0 on, where no slot stands yet. -/
theorem replicationGroups : Obligations.ReplicationGroups := by
  intro s t n q hp he hl run draws hq
  rw [exec_gen, generate_unlocked _ he hl] at run
  cases run
  have start : GroupedTo 0 s := ⟨⟨Nat.zero_le _, fun _ h => absurd h (Nat.not_lt_zero _)⟩,
    ⟨Nat.zero_le _, fun _ h => absurd h (Nat.not_lt_zero _)⟩⟩
  have hr : 1 ≤ s.params.r := by
    obtain ⟨-, -, -, -, -, -, hr, -⟩ := hp
    exact hr
  exact generateLoop_grouped n.toNat (blockSize_pos hp) hr (by omega) (fun _ => Nat.dvd_zero _) start draws q hq

end Sys2Proof.Machine
end

section
/-! PROOFS. The refusal mark over a step, and that every step answers a next state (R260, R261, R280). -/

namespace Sys2Proof.Machine

/-! ### The refusal mark only gains flags -/

/-- Each flag of the refusal mark that is set in `s` is set in `t` (R261). -/
def MarksKept (s t : State) : Prop :=
  (s.marks.addressOutOfRange = true → t.marks.addressOutOfRange = true) ∧
  (s.marks.badOperationWord = true → t.marks.badOperationWord = true)

theorem MarksKept.of_eq {s t : State} (h : t.marks = s.marks) : MarksKept s t := by
  rw [MarksKept, h]
  exact ⟨id, id⟩

theorem MarksKept.trans {s u t : State} (h : MarksKept s u) (k : MarksKept u t) : MarksKept s t :=
  ⟨k.1 ∘ h.1, k.2 ∘ h.2⟩

theorem MarksKept.refuse (r : RefuseReason) (s : State) : MarksKept s (refuse r s) := by
  cases r with
  | addressOutOfRange => exact ⟨fun _ => rfl, id⟩
  | badOperationWord => exact ⟨id, fun _ => rfl⟩

theorem BlockOnly.marks {s t : State} (h : BlockOnly s t) : t.marks = s.marks := by
  rw [h]

/-! ### The operations -/

theorem MarksKept.readReg (a : Nat) (s : State) : MarksKept s (readReg a s) := by
  unfold Machine.readReg
  split
  · exact MarksKept.refuse _ s
  · exact MarksKept.of_eq rfl

theorem MarksKept.writeReg (a : Nat) (v : Byte) (s : State) : MarksKept s (writeReg a v s) := by
  rcases writeReg_blockOnly a v s with e | h
  · rw [e]; exact MarksKept.refuse _ s
  · exact MarksKept.of_eq h.marks

theorem MarksKept.initWrites (n a : Nat) (s : State) : MarksKept s (initWrites n a s) := by
  induction n generalizing a s with
  | zero => exact MarksKept.of_eq rfl
  | succ n ih => exact (MarksKept.writeReg a _ s).trans (ih (a + 1) _)

/-- `init` clears the fields of R26 to R33, the refusal mark is none of them, and its writes keep it (R280). -/
theorem MarksKept.initUnit (s : State) : MarksKept s (initUnit s) := by
  have clear : MarksKept s s.cleared := MarksKept.of_eq rfl
  exact clear.trans <| (MarksKept.writeReg nr52 _ _).trans <| (MarksKept.initWrites 22 0xFF10 _).trans <|
    (MarksKept.initWrites 9 0xFF27 _).trans (MarksKept.initWrites 16 0xFF30 _)

/-- The channels of a sub-block change the block's own state at most (R232). -/
theorem processAll_blockOnly (n : Nat) (b : Block) : BlockOnly b.st (processAll n b).st := by
  have part : ∀ i b, BlockOnly b.st (processChannel i n b).st := fun i b => (Moved.processChannel i n b).blockOnly
  exact (part .wave _).trans <| (part .square1 _).trans <| (part .square2 _).trans (part .noise _)

theorem subBlock_marks (j size : Nat) (s : State) : (subBlock j size s).marks = s.marks :=
  (processAll_blockOnly _ _).marks

theorem MarksKept.generate (n : Nat) (s : State) : MarksKept s (generate n s) := by
  have loop : (generateLoop n 0 n s).marks = s.marks :=
    generateLoop_induct (P := fun t => t.marks = s.marks) (fun j size t h => (subBlock_marks j size t).trans h) n 0 n rfl
  unfold Machine.generate
  split
  · exact MarksKept.of_eq rfl
  · exact MarksKept.of_eq loop

theorem OpResult.marksKept {s t : State} (h : OpResult s t) : MarksKept s t := by
  cases h with
  | read a => exact MarksKept.readReg a s
  | write a v => exact MarksKept.writeReg a v s
  | generate n => exact MarksKept.generate n s
  | init => exact MarksKept.initUnit s
  | enable b | lock b => exact MarksKept.of_eq rfl

/-! ### The statements -/

/-- Settles O11: a step waits, refuses a word or runs an operation, and each keeps the flags; taking the word off the queue does
not touch them. -/
theorem refusalMarkStays : Obligations.RefusalMarkStays := by
  intro s t h
  rcases step_cases h with ⟨-, rfl⟩ | ⟨w, rest, -, ⟨r, -, rfl⟩ | ⟨i, -, hr⟩⟩
  · exact MarksKept.of_eq rfl
  · exact MarksKept.refuse r { s with inbox := rest }
  · exact hr.marksKept

/-- Settles O10: an empty queue waits, a word the decoder refuses is marked, and every operation's meaning is a next state. -/
theorem everyStepAnswersNext : Obligations.EveryStepAnswersNext := by
  intro s
  cases hq : s.inbox with
  | nil => exact ⟨s, step_of_empty hq⟩
  | cons w rest =>
    cases hd : decode w with
    | error r => exact ⟨refuse r { s with inbox := rest }, step_of_error hq hd⟩
    | ok i =>
      obtain ⟨t, run, -⟩ := exec_result i { s with inbox := rest }
      exact ⟨t, (step_of_ok hq hd).trans run⟩

end Sys2Proof.Machine
end

section
/-! PROOFS. The state after reset, and the parts of `init` that no init byte changes: what is not the block's, the register window,
and the power-off case (R280, R283). -/

namespace Sys2Proof.Machine

open Sys2Proof.Safety

/-! ### The state after reset (R283) -/

theorem memRead_cell (k : Nat) (b : Byte) (a : Nat) : memRead [(k, b)] a = if a = k then b else 0 := by
  simp only [memRead, eq_comm]

/-- Settles O13: S0 lists one cell, NR52 = 0x80, both as the init bytes and as the window. -/
theorem resetIsCleanConfiguration : Obligations.ResetIsCleanConfiguration := by
  have channels : ∀ i, State.reset.ch i = Channel.before := fun i => by cases i <;> rfl
  refine ⟨rfl, memRead_cell 0xFF26 0x80, memRead_cell 0xFF26 0x80, fun i => ?_, rfl, rfl, rfl, rfl, rfl, rfl, rfl⟩
  rw [channels]
  exact ⟨rfl, rfl, rfl, rfl, rfl, rfl, rfl⟩

/-! ### The canonical form of the window is unique (R60) -/

theorem memSortedAbove_cons {lo : Nat} {c : Host.Cell} {m : List Host.Cell} :
    memSortedAbove lo (c :: m) = true ↔ lo < c.1 ∧ c.2 ≠ 0 ∧ memSortedAbove c.1 m = true := by
  simp only [memSortedAbove, Bool.and_eq_true, decide_eq_true_eq, and_assoc]

/-- Two windows in canonical form that read alike are the same list. -/
theorem mem_ext {lo : Nat} {m m' : List Host.Cell} (h : memSortedAbove lo m = true) (h' : memSortedAbove lo m' = true)
    (e : ∀ a, memRead m a = memRead m' a) : m = m' := by
  have listed : ∀ (c : Host.Cell) rest, memRead (c :: rest) c.1 = c.2 := fun c rest => if_pos rfl
  induction m generalizing lo m' with
  | nil =>
    cases m' with
    | nil => rfl
    | cons c' rest' =>
      obtain ⟨-, nonzero, -⟩ := memSortedAbove_cons.mp h'
      exact absurd ((listed c' rest').symm.trans (e c'.1).symm) nonzero
  | cons c rest ih =>
    obtain ⟨-, nonzero, sorted⟩ := memSortedAbove_cons.mp h
    cases m' with
    | nil => exact absurd ((listed c rest).symm.trans (e c.1)) nonzero
    | cons c' rest' =>
      obtain ⟨-, nonzero', sorted'⟩ := memSortedAbove_cons.mp h'
      have first : c.1 = c'.1 := by
        rcases Nat.lt_trichotomy c.1 c'.1 with lt | eq | gt
        · have unlisted := memRead_below (memSortedAbove_cons.mpr ⟨lt, nonzero', sorted'⟩) (Nat.le_refl c.1)
          exact absurd ((listed c rest).symm.trans ((e c.1).trans unlisted)) nonzero
        · exact eq
        · have unlisted := memRead_below (memSortedAbove_cons.mpr ⟨gt, nonzero, sorted⟩) (Nat.le_refl c'.1)
          exact absurd ((listed c' rest').symm.trans ((e c'.1).symm.trans unlisted)) nonzero'
      have byte : c.2 = c'.2 := by
        have := e c.1
        rwa [listed, first, listed] at this
      refine congrArg₂ List.cons (Prod.ext first byte) (ih sorted (first ▸ sorted') fun a => ?_)
      by_cases ha : a ≤ c.1
      · rw [memRead_below sorted ha, memRead_below sorted' (first ▸ ha)]
      · have := e a
        simp only [memRead] at this
        rwa [if_neg (by omega), if_neg (by omega)] at this

/-- Outside the window nothing is listed. -/
theorem memRead_outside {m : List Host.Cell} (w : memWf m = true) {a : Nat} (h : inWindow a = false) : memRead m a = 0 := by
  simp only [memWf, Bool.and_eq_true] at w
  obtain ⟨-, inside⟩ := w
  induction m with
  | nil => rfl
  | cons c rest ih =>
    simp only [List.all_cons, Bool.and_eq_true] at inside
    obtain ⟨listed, inside⟩ := inside
    have other : c.1 ≠ a := fun e => by rw [e, h] at listed; cases listed
    exact (if_neg other).trans (ih inside)

/-! ### The host's side (R280) -/

/-- The default writes are in the window, so none of them is refused. -/
theorem BlockOnly.initWrites (n : Nat) {a : Nat} (s : State) (ha : 0xFF10 ≤ a) (hb : a + n ≤ 0xFF40) :
    BlockOnly s (initWrites n a s) := by
  induction n generalizing a s with
  | zero => exact BlockOnly.refl s
  | succ n ih =>
    refine BlockOnly.trans ?_ (ih (writeReg a _ s) (by omega) (by omega))
    obtain ⟨outside, -⟩ | ⟨-, e⟩ | ⟨-, -, p, hp, e⟩ := writeReg_cases a (initByte s.params a) s
    · rw [inWindow_iff.mpr (by omega)] at outside
      cases outside
    · rw [e]; exact BlockOnly.nr52Write _ s
    · rw [e]; exact BlockOnly.gatedWrite hp s

theorem BlockOnly.initUnit (s : State) : BlockOnly s (initUnit s) := by
  have clear : BlockOnly s s.cleared := rfl
  exact clear.trans <| (BlockOnly.nr52Write _ _).trans <| (BlockOnly.initWrites 22 _ (by decide) (by decide)).trans <|
    (BlockOnly.initWrites 9 _ (by decide) (by decide)).trans (BlockOnly.initWrites 16 _ (by decide) (by decide))

/-! ### Init bytes that leave master power off (R102, R280) -/

/-- While power is off the default writes are ignored. -/
theorem initWrites_off (n : Nat) {a : Nat} {s : State} (hp : (s.reg 0xFF26).getLsbD 7 = false) (ha : 0xFF10 ≤ a)
    (hb : a + n ≤ 0xFF40) (hn : 0xFF26 < a ∨ a + n ≤ 0xFF26) : initWrites n a s = s := by
  induction n generalizing a with
  | zero => rfl
  | succ n ih =>
    rw [initWrites, writeReg_off _ hp (inWindow_iff.mpr (by omega)) (show a ≠ 0xFF26 by omega)]
    exact ih (by omega) (by omega) (by omega)

/-- The power-off of NR52 changes nothing in the before-init state. -/
theorem nr52Write_cleared_off {v : Byte} (hv : powerOf v = false) (s : State) : nr52Write v s.cleared = s.cleared := by
  obtain ⟨wf, zero, e⟩ := nr52Write_off hv (show memWf s.cleared.mem = true from rfl)
  have mem : (nr52Write v s.cleared).mem = [] := mem_ext (memWf_sorted wf) rfl fun b => (zero b).trans (ite_self _)
  rw [e, mem]
  rfl

theorem initUnit_off {s : State} (h : (initByte s.params nr52).getLsbD 7 = false) : initUnit s = s.cleared := by
  have power : writeReg nr52 (initByte s.cleared.params nr52) s.cleared = s.cleared := nr52Write_cleared_off h s
  have off : (s.cleared.reg 0xFF26).getLsbD 7 = false := show (0 : Byte).getLsbD 7 = false by decide
  rw [initUnit, power, initWrites_off 22 off (by decide) (by decide) (by decide),
    initWrites_off 9 off (by decide) (by decide) (by decide), initWrites_off 16 off (by decide) (by decide) (by decide)]

/-! ### The register window with master power on (R42, R280) -/

/-- A mirror stands: it is the mirror of the state it leaves. -/
theorem mirrors_self {s t : State} (h : mirrors s t) : mirrors t t := by
  unfold mirrors at h ⊢
  have bit := fun b : Bool => Bool.toNat_le b
  have := bit t.noise.enabled; have := bit t.wave.enabled; have := bit t.square2.enabled; have := bit t.square1.enabled
  omega

/-- Where NR52 mirrors the channels, a write with master power on leaves it so: a trigger mirrors again, any other write changes
neither side. -/
theorem writeReg_mirrors {a : Nat} (v : Byte) {s : State} (w : memWf s.mem = true) (hp : (s.reg 0xFF26).getLsbD 7 = true)
    (hn : a ≠ nr52) (m : mirrors s s) : mirrors (writeReg a v s) (writeReg a v s) := by
  by_cases ht : ∃ i, a = controlAddr i ∧ triggerOf v = true
  · obtain ⟨i, rfl, bit7⟩ := ht
    obtain ⟨-, mirror, -⟩ := writeReg_storesAndMirrors i w hp bit7
    exact mirrors_self mirror
  · obtain ⟨mem, enabled⟩ := writeReg_untriggered (v := v) s hn fun i ha => by
      simpa using fun bit7 => ht ⟨i, ha, bit7⟩
    have nr52Kept : (writeReg a v s).reg 0xFF26 = s.reg 0xFF26 := by
      obtain e | e := mem
      · exact congrArg (memRead · _) e
      · exact (storesOnly_of_mem w e).2 _ (Ne.symm hn)
    have e1 := enabled .square1; have e2 := enabled .square2; have e3 := enabled .wave; have e4 := enabled .noise
    simp only [State.ch_square1, State.ch_square2, State.ch_wave, State.ch_noise] at e1 e2 e3 e4
    unfold mirrors
    rwa [nr52Kept, e1, e2, e3, e4]

/-- The register window in the middle of the default writes: canonical, master power on, NR52 mirroring the channels. -/
structure Mirrored (p : Params) (s : State) : Prop where
  wf : memWf s.mem = true
  power : (s.reg 0xFF26).getLsbD 7 = true
  mirror : mirrors s s
  params : s.params = p

/-- A run of the default writes that does not pass NR52 stores each init byte at its address. -/
theorem Mirrored.initWrites {p : Params} (n : Nat) {a : Nat} {s : State} (h : Mirrored p s) (ha : 0xFF10 ≤ a)
    (hb : a + n ≤ 0xFF40) (hn : 0xFF26 < a ∨ a + n ≤ 0xFF26) :
    Mirrored p (initWrites n a s) ∧ (∀ b, a ≤ b → b < a + n → (initWrites n a s).reg b = initByte p b) ∧
    ∀ b, (b < a ∨ a + n ≤ b) → b ≠ 0xFF26 → (initWrites n a s).reg b = s.reg b := by
  obtain ⟨wf, power, params, stored, kept⟩ := initWrites_written n h.wf h.power ha hb hn
  refine ⟨⟨wf, power, ?_, params.trans h.params⟩, h.params ▸ stored, kept⟩
  clear wf power params stored kept
  induction n generalizing a s with
  | zero => exact h.mirror
  | succ n ih =>
    have written := writeReg_written (a := a) (v := initByte s.params a) h.wf h.power
      (inWindow_iff.mpr (by omega)) (by omega)
    have first : Mirrored p (writeReg a (initByte s.params a) s) :=
      ⟨written.wf, written.power.trans h.power, writeReg_mirrors _ h.wf h.power (show a ≠ 0xFF26 by omega) h.mirror,
        written.params.trans h.params⟩
    exact ih first (by omega) (by omega) (by omega)

/-- The state in which the default writes begin, after the NR52 write with bit 7 set: cleared but for NR52 (R280). -/
def State.poweredUp (s : State) : State := { s.cleared with mem := [(0xFF26, 0x80)] }

theorem State.poweredUp_mirrored (s : State) : Mirrored s.params s.poweredUp where
  wf := rfl
  power := show (0x80 : Byte).getLsbD 7 = true by decide
  mirror := show (0x80 : Byte).toNat = (0x80 : Byte).toNat / 128 * 128 + 0 * 8 + 0 * 4 + 0 * 2 + 0 by decide
  params := rfl

theorem initUnit_on {s : State} (h : (initByte s.params nr52).getLsbD 7 = true) :
    initUnit s = initWrites 16 0xFF30 (initWrites 9 0xFF27 (initWrites 22 0xFF10 s.poweredUp)) := by
  have power : writeReg nr52 (initByte s.cleared.params nr52) s.cleared = s.poweredUp := nr52Write_on h s.cleared
  rw [initUnit, power]

theorem Mirrored.nr52 {p : Params} {s : State} (h : Mirrored p s) : (s.reg 0xFF26).toNat = 128 + s.noise.enabled.toNat * 8 +
    s.wave.enabled.toNat * 4 + s.square2.enabled.toNat * 2 + s.square1.enabled.toNat := by
  have power := h.power
  rw [← bit, bit_seven_eq, decide_eq_true_eq] at power
  have byte : (s.reg 0xFF26).toNat / 128 = 1 := by omega
  have mirror := h.mirror
  rwa [mirrors, byte] at mirror

/-- The window after `init`: every byte is its init byte, but for NR52, which mirrors the channels. -/
theorem initUnit_window {s : State} (h : (initByte s.params nr52).getLsbD 7 = true) :
    Mirrored s.params (initUnit s) ∧
    ∀ a, 0xFF10 ≤ a → a ≤ 0xFF3F → a ≠ 0xFF26 → (initUnit s).reg a = initByte s.params a := by
  rw [initUnit_on h]
  obtain ⟨m1, stored1, -⟩ := s.poweredUp_mirrored.initWrites 22 (a := 0xFF10) (by decide) (by decide) (by decide)
  obtain ⟨m2, stored2, kept2⟩ := m1.initWrites 9 (a := 0xFF27) (by decide) (by decide) (by decide)
  obtain ⟨m3, stored3, kept3⟩ := m2.initWrites 16 (a := 0xFF30) (by decide) (by decide) (by decide)
  refine ⟨m3, fun a lo hi hn => ?_⟩
  rcases Nat.lt_or_ge a 0xFF30 with h30 | h30
  · rw [kept3 a (by omega) hn]
    rcases Nat.lt_or_ge a 0xFF27 with h27 | h27
    · rw [kept2 a (by omega) hn]
      exact stored1 a (by omega) (by omega)
    · exact stored2 a (by omega) (by omega)
  · exact stored3 a (by omega) (by omega)

end Sys2Proof.Machine
end

section
/-! PROOFS. The fields that the default writes of `init` decode, channel by channel, and the state that `init` leaves (R280, R281,
R283). -/

namespace Sys2Proof.Machine

open Sys2Proof.Safety

/-! ### A control write on the fields (R107, R150) -/

theorem ctrlFields_square1 (v x : Byte) (f : State) : ctrlFields .square1 v x f = { f with
    square1 := if v.getLsbD 7 then triggered f.params 64 (ctrlMerged v f.square1) else ctrlMerged v f.square1
    sweep := if v.getLsbD 7 then sweepLatched f.params x (freqHigh f.square1.frequency v) else f.sweep } := by
  rw [sweepLatched, ← sweepInc_sweepPeriodOf, ← sweepPeriodOf_eq, ← sweepShiftOf_eq, ctrlMerged, ← mergeFreqHigh_eq,
    ctrlFields, triggerOf, bit]
  cases v.getLsbD 7
  · rfl
  · simp only [if_true, State.modCh, State.setCh, State.ch, envReload, channelReset, lengthReload]
    rfl

theorem ctrlFields_square2 (v x : Byte) (f : State) : ctrlFields .square2 v x f = { f with
    square2 := if v.getLsbD 7 then triggered f.params 64 (ctrlMerged v f.square2) else ctrlMerged v f.square2 } := by
  rw [ctrlMerged, ← mergeFreqHigh_eq, ctrlFields, triggerOf, bit]
  cases v.getLsbD 7
  · rfl
  · simp only [if_true, State.modCh, State.setCh, State.ch, envReload, channelReset, lengthReload]
    rfl

theorem ctrlFields_wave (v x : Byte) (f : State) : ctrlFields .wave v x f = { f with
    wave := if v.getLsbD 7 then triggered f.params 256 (ctrlMerged v f.wave) else ctrlMerged v f.wave
    samplePosition := if v.getLsbD 7 then 0 else f.samplePosition } := by
  rw [ctrlMerged, ← mergeFreqHigh_eq, ctrlFields, triggerOf, bit]
  cases v.getLsbD 7
  · rfl
  · simp only [if_true, State.modCh, State.setCh, State.ch, envReload, channelReset, lengthReload]
    rfl

theorem ctrlFields_noise (v x : Byte) (f : State) : ctrlFields .noise v x f = { f with
    noise := if v.getLsbD 7 then { triggered f.params 64 (lengthEnabled v f.noise) with currentLevel := -(f.params.lvl : Int) }
      else lengthEnabled v f.noise
    noiseVoice := { f.noiseVoice with lfsr := if v.getLsbD 7 then 0xFFFF else f.noiseVoice.lfsr } } := by
  rw [ctrlFields, triggerOf, bit]
  cases v.getLsbD 7
  · rfl
  · simp only [if_true, State.modCh, State.setCh, State.ch, envReload, channelReset, lengthReload]
    rfl

/-! ### A channel's record before its trigger and its pan (R86 to R91, R104 to R107) -/

/-- The frequency of an NRx3 and an NRx4 byte (R106, R107). -/
def frequencyOf (low high : Byte) : BitVec 16 := BitVec.ofNat 16 (high.toNat % 8 * 256 + low.toNat)

theorem freqHigh_mergeFreqLow (low high : Byte) : freqHigh (mergeFreqLow 0#16 low) high = frequencyOf low high := by
  have := low.isLt
  rw [mergeFreqLow_eq, freqHigh, freqLow, frequencyOf, BitVec.toNat_ofNat, BitVec.toNat_zero]
  congr 2
  omega

/-- The before-init record after the writes of its length load and of its NRx2 byte. -/
def enveloped (load x2 : Byte) : Channel :=
  envWriteChannel x2 { Channel.before with len := { Length.before with load := load } }

/-- The channel is not enabled, so the NRx2 write is not in zombie mode. -/
theorem lengthEnabled_enveloped (load x2 x4 : Byte) (f : BitVec 16) (i : Nat) :
    lengthEnabled x4 { enveloped load x2 with frequency := f } = defaultChannel 0#8 i f load x2 x4 := by
  simp only [defaultChannel, ← volumeInitOf_eq, ← dacOf_eq, ← envStepOf_eq, BitVec.getLsbD_zero, enveloped, envWriteChannel,
    Channel.before, Bool.and_false, Bool.false_eq_true, if_false]
  rfl

theorem ctrlMerged_enveloped (load x2 x3 x4 : Byte) (i : Nat) :
    ctrlMerged x4 { enveloped load x2 with frequency := mergeFreqLow 0#16 x3 } =
      defaultChannel 0#8 i (frequencyOf x3 x4) load x2 x4 := by
  rw [← lengthEnabled_enveloped, ← freqHigh_mergeFreqLow]
  rfl

/-- The duty pattern of an NRx1 byte (R86). -/
def dutyPatternOf (v : Byte) : Byte := ([0x10, 0x30, 0x3C, 0xCF] : List Byte).getD (v.toNat / 64) 0

theorem dutyTable_dutyCodeOf (v : Byte) : dutyTable (dutyCodeOf v) = dutyPatternOf v := by
  rw [dutyTable_eq, dutyCodeOf_toNat, dutyPatternOf]

/-! ### The channels' records after the default writes (R281) -/

/-- Square channel `i` after the default writes from NRx1 at `a` on, under the pan byte `pan`. -/
def defaultSquare (p : Params) (pan : Byte) (i a : Nat) : Channel :=
  let c := defaultChannel pan i (frequencyOf (initByte p (a + 2)) (initByte p (a + 3)))
    (BitVec.ofNat 8 ((initByte p a).toNat % 64)) (initByte p (a + 1)) (initByte p (a + 3))
  if (initByte p (a + 3)).getLsbD 7 then triggered p 64 c else c

/-- The wave channel after the default writes, under the pan byte `pan`. -/
def defaultWave (p : Params) (pan : Byte) : Channel :=
  let code := BitVec.ofNat 4 ((initByte p 0xFF1C).toNat / 32 % 4)
  let c := { defaultChannel pan 2 (frequencyOf (initByte p 0xFF1D) (initByte p 0xFF1E)) (initByte p 0xFF1B) 0
      (initByte p 0xFF1E) with
    powered := (initByte p 0xFF1A).getLsbD 7, volume := code, volumeInit := code }
  if (initByte p 0xFF1E).getLsbD 7 then triggered p 256 c else c

/-- The noise channel after the default writes, under the pan byte `pan`. -/
def defaultNoise (p : Params) (pan : Byte) : Channel :=
  let c := defaultChannel pan 3 (BitVec.ofNat 16 ((initByte p 0xFF22).toNat / 16))
    (BitVec.ofNat 8 ((initByte p 0xFF20).toNat % 64)) (initByte p 0xFF21) (initByte p 0xFF23)
  if (initByte p 0xFF23).getLsbD 7 then { triggered p 64 c with currentLevel := -(p.lvl : Int) } else c

/-- The fields that the default writes decode, in the state that `init` begins with, under the pan byte `pan`. -/
def defaultFields (p : Params) (pan : Byte) (s : State) : State := { s.cleared with
  square1 := defaultSquare p pan 0 0xFF11
  square2 := defaultSquare p pan 1 0xFF16
  wave := defaultWave p pan
  noise := defaultNoise p pan
  duty1 := { dutyPattern := dutyPatternOf (initByte p 0xFF11), dutyStep := 0 }
  duty2 := { dutyPattern := dutyPatternOf (initByte p 0xFF16), dutyStep := 0 }
  samplePosition := 0
  noiseVoice := {
    lfsr := if (initByte p 0xFF23).getLsbD 7 then 0xFFFF else 0
    widthMode := if (initByte p 0xFF22).toNat / 8 % 2 = 0 then .wide else .narrow
    divisorCode := BitVec.ofNat 3 ((initByte p 0xFF22).toNat % 8) }
  sweep := if (initByte p 0xFF14).getLsbD 7 then
    sweepLatched p (initByte p 0xFF10) (frequencyOf (initByte p 0xFF13) (initByte p 0xFF14)) else Sweep.before
  volumeLeft := BitVec.ofNat 3 ((initByte p 0xFF24).toNat / 16 % 8)
  volumeRight := BitVec.ofNat 3 ((initByte p 0xFF24).toNat % 8) }

/-- NR51 is written after every trigger, and a trigger does not look at the pan (R130). -/
theorem panWrite_defaultFields (p : Params) (pan : Byte) (s : State) :
    panWrite pan (defaultFields p 0#8 s) = defaultFields p pan s := by
  have square : ∀ i a, { defaultSquare p 0#8 i a with onLeft := pan.getLsbD (4 + i), onRight := pan.getLsbD i } =
      defaultSquare p pan i a := fun i a => by
    unfold defaultSquare
    cases (initByte p (a + 3)).getLsbD 7 <;> rfl
  have wave : { defaultWave p 0#8 with onLeft := pan.getLsbD 6, onRight := pan.getLsbD 2 } = defaultWave p pan := by
    unfold defaultWave
    cases (initByte p 0xFF1E).getLsbD 7 <;> rfl
  have noise : { defaultNoise p 0#8 with onLeft := pan.getLsbD 7, onRight := pan.getLsbD 3 } = defaultNoise p pan := by
    unfold defaultNoise
    cases (initByte p 0xFF23).getLsbD 7 <;> rfl
  unfold defaultFields
  rw [← square 0, ← square 1, ← wave, ← noise]
  rfl

/-! ### The default writes, channel by channel (R280) -/

section
variable {p : Params} {x y : Byte} {f g s : State}

/-- The default write of an address whose procedure `e` does not look at the window, and the writes after it. -/
theorem Booting.next {n a : Nat} (h : Booting p x f s) (e : State → State)
    (k : ∀ t, Booting p x (e f) t → Booting p y g (initWrites n (a + 1) t)) (ha : inWindow a = true := by decide)
    (hn : a ≠ 0xFF26 := by decide) (hs : a ≠ Machine.nr10 := by decide)
    (w : ∀ s, writeReg a (initByte p a) s = gatedWrite a (initByte p a) e s := by exact fun _ => rfl)
    (he : ∀ u : State, (e u).fields = e u.fields := by exact fun _ => rfl) :
    Booting p y g (initWrites (n + 1) a s) := by
  obtain ⟨t, run, ht⟩ := h.plain n e ha hn hs w he
  rw [run]
  exact k t ht

/-- The default write of channel `i`'s control register, and the writes after it. -/
theorem Booting.nextCtrl {n a : Nat} (h : Booting p x f s) (i : Ch)
    (k : ∀ t, Booting p x (ctrlFields i (initByte p a) x f) t → Booting p y g (initWrites n (a + 1) t))
    (ha : inWindow a = true := by decide) (hn : a ≠ 0xFF26 := by decide) (hs : a ≠ Machine.nr10 := by decide)
    (w : ∀ s, writeReg a (initByte p a) s = gatedWrite a (initByte p a) (ctrlWrite i (initByte p a)) s := by
      exact fun _ => rfl) :
    Booting p y g (initWrites (n + 1) a s) := by
  obtain ⟨t, run, ht⟩ := h.ctrl n i ha hn hs w
  rw [run]
  exact k t ht

theorem Booting.square1 (h : Booting p x f s) (start : f = { f with params := p, square1 := Channel.before }) :
    Booting p (initByte p 0xFF10) { f with
      params := p
      square1 := defaultSquare p 0#8 0 0xFF11
      duty1 := { f.duty1 with dutyPattern := dutyPatternOf (initByte p 0xFF11) }
      sweep := if (initByte p 0xFF14).getLsbD 7 then
        sweepLatched p (initByte p 0xFF10) (frequencyOf (initByte p 0xFF13) (initByte p 0xFF14)) else f.sweep }
      (initWrites 6 0xFF10 s) := by
  rw [start] at h
  obtain ⟨t, run, h⟩ := h.nr10 5
  rw [run]
  refine h.next (dutyLenWrite .one (initByte p 0xFF11)) fun _ h => ?_
  refine h.next (envWrite .square1 (initByte p 0xFF12)) fun _ h => ?_
  refine h.next (freqLowWrite .square1 (initByte p 0xFF13)) fun _ h => ?_
  refine h.nextCtrl .square1 fun _ h => ?_
  refine h.next noSideEffect fun _ h => ?_
  rw [ctrlFields_square1] at h
  rw [defaultSquare, ← lengthLoadOf_eq, ← ctrlMerged_enveloped, ← freqHigh_mergeFreqLow, ← dutyTable_dutyCodeOf]
  exact h

theorem Booting.square2 (h : Booting p x f s) (start : f = { f with params := p, square2 := Channel.before }) :
    Booting p x { f with
      params := p
      square2 := defaultSquare p 0#8 1 0xFF16
      duty2 := { f.duty2 with dutyPattern := dutyPatternOf (initByte p 0xFF16) } }
      (initWrites 4 0xFF16 s) := by
  rw [start] at h
  refine h.next (dutyLenWrite .two (initByte p 0xFF16)) fun _ h => ?_
  refine h.next (envWrite .square2 (initByte p 0xFF17)) fun _ h => ?_
  refine h.next (freqLowWrite .square2 (initByte p 0xFF18)) fun _ h => ?_
  refine h.nextCtrl .square2 fun _ h => ?_
  rw [ctrlFields_square2] at h
  rw [defaultSquare, ← lengthLoadOf_eq, ← ctrlMerged_enveloped, ← dutyTable_dutyCodeOf]
  exact h

theorem Booting.wave (h : Booting p x f s) (start : f = { f with params := p, wave := Channel.before, samplePosition := 0 }) :
    Booting p x { f with params := p, wave := defaultWave p 0#8, samplePosition := 0 } (initWrites 6 0xFF1A s) := by
  rw [start] at h
  refine h.next (waveDacWrite (initByte p 0xFF1A)) fun _ h => ?_
  refine h.next (waveLengthWrite (initByte p 0xFF1B)) fun _ h => ?_
  refine h.next (waveVolumeWrite (initByte p 0xFF1C)) fun _ h => ?_
  refine h.next (freqLowWrite .wave (initByte p 0xFF1D)) fun _ h => ?_
  refine h.nextCtrl .wave fun _ h => ?_
  refine h.next noSideEffect fun _ h => ?_
  rw [ctrlFields_wave] at h
  have position : (if (initByte p 0xFF1E).getLsbD 7 then 0 else 0) = (0 : BitVec 5) := ite_self 0
  rw [← position, defaultWave, ← waveCodeOf_eq, ← freqHigh_mergeFreqLow]
  exact h

theorem Booting.noise (h : Booting p x f s) (start : f = { f with params := p, noise := Channel.before }) :
    Booting p x { f with
      params := p
      noise := defaultNoise p 0#8
      noiseVoice := {
        lfsr := if (initByte p 0xFF23).getLsbD 7 then 0xFFFF else f.noiseVoice.lfsr
        widthMode := if (initByte p 0xFF22).toNat / 8 % 2 = 0 then .wide else .narrow
        divisorCode := BitVec.ofNat 3 ((initByte p 0xFF22).toNat % 8) } } (initWrites 4 0xFF20 s) := by
  rw [start] at h
  refine h.next (lengthLoadWrite .noise (initByte p 0xFF20)) fun _ h => ?_
  refine h.next (envWrite .noise (initByte p 0xFF21)) fun _ h => ?_
  refine h.next (noiseWrite (initByte p 0xFF22)) fun _ h => ?_
  refine h.nextCtrl .noise fun _ h => ?_
  rw [ctrlFields_noise] at h
  rw [defaultNoise, ← lengthLoadOf_eq, ← shiftCodeOf_eq, ← lengthEnabled_enveloped, ← widthOf_eq, ← divisorOf_eq]
  exact h

theorem Booting.mixer (h : Booting p x f s) : Booting p x (panWrite (initByte p 0xFF25) { f with
    volumeLeft := BitVec.ofNat 3 ((initByte p 0xFF24).toNat / 16 % 8)
    volumeRight := BitVec.ofNat 3 ((initByte p 0xFF24).toNat % 8) }) (initWrites 2 0xFF24 s) := by
  refine h.next (masterVolumeWrite (initByte p 0xFF24)) fun _ h => ?_
  refine h.next (panWrite (initByte p 0xFF25)) fun _ h => ?_
  rw [← volumeLeftOf_eq, ← volumeRightOf_eq]
  exact h

/-- From 0xFF27 on the default writes only store (R131, R132). -/
theorem Booting.stores (n : Nat) {a : Nat} (h : Booting p x f s) (ha : 0xFF27 ≤ a) (hb : a + n ≤ 0xFF40) :
    Booting p x f (initWrites n a s) := by
  induction n generalizing a s with
  | zero => exact h
  | succ n ih =>
    have stored : ∀ s, writeReg a (initByte p a) s = gatedWrite a (initByte p a) noSideEffect s := fun s => by
      rcases Nat.lt_or_ge a 0xFF28 with lt | ge
      · obtain rfl : a = 0xFF27 := by omega
        rfl
      · exact writeReg_plain _ s ge (by omega)
    exact h.next noSideEffect (fun _ h => ih h (by omega) (by omega)) (inWindow_iff.mpr (by omega)) (by omega)
      (show a ≠ 0xFF10 by omega) stored

end

theorem initWrites_add (m n a : Nat) (s : State) : initWrites (m + n) a s = initWrites n (a + m) (initWrites m a s) := by
  induction m generalizing a s with
  | zero => rw [Nat.zero_add]; rfl
  | succ m ih =>
    rw [Nat.succ_add, initWrites, ih, Nat.add_right_comm, Nat.add_assoc]
    rfl

/-- The fields after `init`, with master power on. -/
theorem initUnit_fields {s : State} (h : (initByte s.params nr52).getLsbD 7 = true) :
    (initUnit s).fields = defaultFields s.params (initByte s.params 0xFF25) s := by
  have registers : initWrites 22 0xFF10 s.poweredUp = initWrites 2 0xFF24 (initWrites 4 0xFF20 (initWrites 6 0xFF1A
      (initWrites 4 0xFF16 (initWrites 6 0xFF10 s.poweredUp)))) :=
    (initWrites_add 6 16 0xFF10 _).trans <| (initWrites_add 4 12 0xFF16 _).trans <| (initWrites_add 6 6 0xFF1A _).trans
      (initWrites_add 4 2 0xFF20 _)
  have start : Booting s.params 0 s.cleared s.poweredUp :=
    ⟨s.poweredUp_mirrored.wf, s.poweredUp_mirrored.power, rfl, rfl, rfl⟩
  have b1 := start.square1 rfl
  have b2 := b1.square2 rfl
  have b3 := b2.wave rfl
  have b4 := b3.noise rfl
  have booted := (b4.mixer.stores 9 (a := 0xFF27) (by decide) (by decide)).stores 16 (a := 0xFF30) (by decide) (by decide)
  rw [initUnit_on h, registers]
  exact booted.fields.trans (panWrite_defaultFields s.params (initByte s.params 0xFF25) s)

/-- The default writes of S0 decode the fields of the reset state (R281, R283). -/
theorem defaultFields_clean {p : Params} (hp : p.initImage = [(0xFF26, 0x80)]) (s : State) :
    defaultFields p (initByte p 0xFF25) s = { State.reset with
      params := s.params, mem := [], hostEnable := s.hostEnable, hostLocked := s.hostLocked, marks := s.marks,
      returned := s.returned, outL := s.outL, outR := s.outR, draws := s.draws, inbox := s.inbox } := by
  have zero : ∀ a, a ≠ 0xFF26 → initByte p a = 0#8 := fun a ha => by rw [initByte, hp, memRead_cell, if_neg ha]; rfl
  simp (disch := decide) only [defaultFields, defaultSquare, defaultWave, defaultNoise, zero, BitVec.getLsbD_zero, if_false,
    Bool.false_eq_true]
  rfl

/-! ### The statements -/

/-- Settles O15: `init` changes the block's own state only; with power off its writes change nothing, and with power on every byte
is stored and the fields are the decoded ones. -/
theorem initWritesTheDefaults : Obligations.InitWritesTheDefaults := by
  intro s
  have host := BlockOnly.initUnit s
  refine ⟨initUnit s, rfl, by rw [host], by rw [host], by rw [host], by rw [host], by rw [host], by rw [host], by rw [host],
    by rw [host], by rw [host], initUnit_off, fun on => ?_⟩
  obtain ⟨window, bytes⟩ := initUnit_window on
  have decoded := initUnit_fields on
  exact ⟨bytes, window.nr52, congrArg State.square1 decoded, congrArg State.square2 decoded, congrArg State.wave decoded,
    congrArg State.noise decoded, congrArg State.duty1 decoded, congrArg State.duty2 decoded,
    congrArg State.samplePosition decoded, congrArg State.noiseVoice decoded, congrArg State.sweep decoded,
    congrArg State.volumeLeft decoded, congrArg State.volumeRight decoded⟩

/-- Settles O14: the decoded fields are those of the reset state, no channel runs, and so the window lists NR52 = 0x80 only. -/
theorem initRestoresReset : Obligations.InitRestoresReset := by
  intro s hs
  have image : ∀ a, initByte s.params a = if a = 0xFF26 then 0x80 else 0 := fun a => by rw [initByte, hs, memRead_cell]
  have on : (initByte s.params nr52).getLsbD 7 = true := by rw [image]; decide
  obtain ⟨window, bytes⟩ := initUnit_window on
  have decoded := (initUnit_fields on).trans (defaultFields_clean hs s)
  have status : ((initUnit s).reg 0xFF26).toNat = 128 := window.nr52.trans <| congrArg (fun t : State => 128 +
    t.noise.enabled.toNat * 8 + t.wave.enabled.toNat * 4 + t.square2.enabled.toNat * 2 + t.square1.enabled.toNat) decoded
  have mem : (initUnit s).mem = [(0xFF26, 0x80)] := by
    refine mem_ext (memWf_sorted window.wf) (by decide) fun a => ?_
    rw [memRead_cell]
    cases ha : inWindow a with
    | false => rw [memRead_outside window.wf ha, if_neg (by rintro rfl; cases ha)]
    | true =>
      obtain ⟨lo, hi⟩ := inWindow_iff.mp ha
      by_cases h52 : a = 0xFF26
      · subst h52
        exact BitVec.eq_of_toNat_eq status
      · exact (bytes a lo hi h52).trans (image a)
  have whole : initUnit s = { (initUnit s).fields with mem := (initUnit s).mem } := rfl
  rw [decoded, mem] at whole
  exact congrArg Host.Outcome.next whole

end Sys2Proof.Machine
end
